-- ==== Sys2Proof/Word.lean ====
section
/-! DEFINITION. The word and byte types of the JRE-CODEC: registers and command words are 32 bits wide (10_state.md R32,
30_encoding.md R110), IBUF and OBUF are byte arrays (20_memory.md R81). -/

namespace Sys2Proof

/-- A register, a bus datum or a command word (10_state.md R32, 30_encoding.md R110). -/
abbrev Word := BitVec 32

/-- One byte of IBUF or OBUF, one opcode, one symbol (10_state.md R52, R57, R58). -/
abbrev Byte := BitVec 8

/-- A 16-bit element: u16 in QT, s16 in COEF and DC_PRED (10_state.md R46, R50, R54). -/
abbrev Half := BitVec 16

end Sys2Proof
end

