-- ==== Sys2Proof/Machine/Arith.lean ====
section
/-! DEFINITION. The arithmetic of 00_scope.md R11, R12 and R14 (rounding, clamping, wrapping, bit lengths, the zig-zag order), and
exact arithmetic with the cosines of the 8×8 DCT (43_transform.md R262), which decides every comparison exactly (log 8). -/

namespace Sys2Proof.Machine

/-! ## Integers and rationals -/

/-- rnd(n / d) for d > 0: to the nearest integer, ties away from zero (00_scope.md R12). -/
def rndDiv (n : Int) (d : Nat) : Int :=
  if 0 ≤ n then (2 * n + d) / (2 * d) else -((-(2 * n) + d) / (2 * d))

/-- clamp(v, 0, 255) as a u8 (00_scope.md R11). -/
def clampByte (v : Int) : Byte := BitVec.ofNat 8 (min v.toNat 255)

/-- wrap16 (00_scope.md R11), as the s16 that holds it. -/
def wrap16 (v : Int) : Half := BitVec.ofInt 16 v

/-- bitlen (00_scope.md R11): bitlen(0) = 0. -/
def bitlen (n : Nat) : Nat := if n = 0 then 0 else Nat.log2 n + 1

/-! ## Zig-zag order -/

/-- ZZ (00_scope.md R14): the natural index of the k-th coefficient in zig-zag order. -/
def zigzag : List Nat :=
  [ 0,  1,  8, 16,  9,  2,  3, 10, 17, 24, 32, 25, 18, 11,  4,  5] ++
  [12, 19, 26, 33, 40, 48, 41, 34, 27, 20, 13,  6,  7, 14, 21, 28] ++
  [35, 42, 49, 56, 57, 50, 43, 36, 29, 22, 15, 23, 30, 37, 44, 51] ++
  [58, 59, 52, 45, 38, 31, 39, 46, 53, 60, 61, 54, 47, 55, 62, 63]

/-- ZZ[k] (00_scope.md R14). -/
def zz (k : Nat) : Nat := zigzag.getD k 0

/-- IZZ[n] (00_scope.md R14): the k with ZZ[k] = n. -/
def izz (n : Nat) : Nat := zigzag.idxOf n

/-! ## Exact sums of cosines

Every value the exact DCT computes is an integer combination of the numbers 2·cos(kπ/16), divided by 16: with
`angle x u` below, 2·C(u)·cos((2x+1)uπ/16) = 2·cos(angle·π/16), since C(0) = 1/√2 = cos(4π/16). -/

/-- An integer combination Σ cⱼ · 2·cos(jπ/16), j = 0..7. -/
structure CosSum where
  c0 : Int
  c1 : Int
  c2 : Int
  c3 : Int
  c4 : Int
  c5 : Int
  c6 : Int
  c7 : Int
deriving DecidableEq, Repr

/-- The empty sum. -/
def CosSum.zero : CosSum := ⟨0, 0, 0, 0, 0, 0, 0, 0⟩

/-- Adding n · 2·cos(kπ/16): the cosine is even, of period 32 in k, negated by 16 - k, and 0 at k = 8. -/
def CosSum.addTerm (a : CosSum) (n : Int) (k : Nat) : CosSum :=
  match k % 32 with
  | 0 => { a with c0 := a.c0 + n }
  | 1 | 31 => { a with c1 := a.c1 + n }
  | 2 | 30 => { a with c2 := a.c2 + n }
  | 3 | 29 => { a with c3 := a.c3 + n }
  | 4 | 28 => { a with c4 := a.c4 + n }
  | 5 | 27 => { a with c5 := a.c5 + n }
  | 6 | 26 => { a with c6 := a.c6 + n }
  | 7 | 25 => { a with c7 := a.c7 + n }
  | 8 | 24 => a
  | 9 | 23 => { a with c7 := a.c7 - n }
  | 10 | 22 => { a with c6 := a.c6 - n }
  | 11 | 21 => { a with c5 := a.c5 - n }
  | 12 | 20 => { a with c4 := a.c4 - n }
  | 13 | 19 => { a with c3 := a.c3 - n }
  | 14 | 18 => { a with c2 := a.c2 - n }
  | 15 | 17 => { a with c1 := a.c1 - n }
  | _ => { a with c0 := a.c0 - n }

/-- Adding the product of n · 2·cos(jπ/16) and 2·cos(kπ/16), by 2cos α · 2cos β = 2cos(α+β) + 2cos(α-β). -/
def CosSum.addProduct (a : CosSum) (n : Int) (j k : Nat) : CosSum :=
  (a.addTerm n (j + k)).addTerm n (j + (32 - k % 32))

/-- Adding the product of the sum `b` and 2·cos(kπ/16). -/
def CosSum.addScaled (a b : CosSum) (k : Nat) : CosSum :=
  (((((((a.addProduct b.c0 0 k).addProduct b.c1 1 k).addProduct b.c2 2 k).addProduct b.c3 3 k).addProduct
    b.c4 4 k).addProduct b.c5 5 k).addProduct b.c6 6 k).addProduct b.c7 7 k

/-- The angle of the DCT's basis: 2·C(u)·cos((2x+1)uπ/16) = 2·cos(angle x u · π/16) (43_transform.md R262). -/
def angle (x u : Nat) : Nat := if u = 0 then 4 else (2 * x + 1) * u

/-! ## Exact comparison

2·cos(π/16) = √(2+√(2+√2)): the field of these sums is three square roots above the rationals, s = √2, t = √(2+s),
w = √(2+t), and the sign of p + q·√r follows from the signs of p, q and p² - q²·r one level below. -/

/-- a + b·√2. -/
structure Quad1 where
  a : Int
  b : Int
deriving DecidableEq, Repr

/-- a + b·√(2+√2). -/
structure Quad2 where
  a : Quad1
  b : Quad1
deriving DecidableEq, Repr

/-- a + b·√(2+√(2+√2)). -/
structure Quad3 where
  a : Quad2
  b : Quad2
deriving DecidableEq, Repr

def Quad1.add (x y : Quad1) : Quad1 := ⟨x.a + y.a, x.b + y.b⟩
def Quad1.sub (x y : Quad1) : Quad1 := ⟨x.a - y.a, x.b - y.b⟩
def Quad1.mul (x y : Quad1) : Quad1 := ⟨x.a * y.a + 2 * (x.b * y.b), x.a * y.b + x.b * y.a⟩

/-- The square of √(2+√2). -/
def Quad1.root : Quad1 := ⟨2, 1⟩

def Quad2.add (x y : Quad2) : Quad2 := ⟨x.a.add y.a, x.b.add y.b⟩
def Quad2.sub (x y : Quad2) : Quad2 := ⟨x.a.sub y.a, x.b.sub y.b⟩
def Quad2.mul (x y : Quad2) : Quad2 :=
  ⟨(x.a.mul y.a).add ((x.b.mul y.b).mul Quad1.root), (x.a.mul y.b).add (x.b.mul y.a)⟩

/-- The square of √(2+√(2+√2)). -/
def Quad2.root : Quad2 := ⟨⟨2, 0⟩, ⟨1, 0⟩⟩

/-- The sign of p + q·√r from the sign `sp` of p, `sq` of q and `sd` of p² - q²·r, r > 0. -/
def signOfRoot (sp sq sd : Int) : Int :=
  if sq = 0 then sp else if sp = 0 then sq else if sp = sq then sp else sp * sd

/-- The sign (-1, 0 or 1) of a + b·√2. -/
def Quad1.sign (x : Quad1) : Int := signOfRoot x.a.sign x.b.sign (x.a * x.a - 2 * (x.b * x.b)).sign

/-- The sign of a + b·√(2+√2). -/
def Quad2.sign (x : Quad2) : Int :=
  signOfRoot x.a.sign x.b.sign ((x.a.mul x.a).sub ((x.b.mul x.b).mul Quad1.root)).sign

/-- The sign of a + b·√(2+√(2+√2)). -/
def Quad3.sign (x : Quad3) : Int :=
  signOfRoot x.a.sign x.b.sign ((x.a.mul x.a).sub ((x.b.mul x.b).mul Quad2.root)).sign

/-- The value of a cosine sum over s, t, w: 2cos(π/16) = w, 2cos(2π/16) = t, 2cos(3π/16) = w(t-1), 2cos(4π/16) = s,
2cos(5π/16) = w(s-t+1), 2cos(6π/16) = t(s-1), 2cos(7π/16) = w(ts-s-1). -/
def CosSum.toQuad (x : CosSum) : Quad3 :=
  ⟨⟨⟨2 * x.c0, x.c4⟩, ⟨x.c2 - x.c6, x.c6⟩⟩,
   ⟨⟨x.c1 - x.c3 + x.c5 - x.c7, x.c5 - x.c7⟩, ⟨x.c3 - x.c5, x.c7⟩⟩⟩

/-- m · x + n for integers m, n. -/
def Quad3.affine (x : Quad3) (m n : Int) : Quad3 :=
  ⟨⟨⟨m * x.a.a.a + n, m * x.a.a.b⟩, ⟨m * x.a.b.a, m * x.a.b.b⟩⟩,
   ⟨⟨m * x.b.a.a, m * x.b.a.b⟩, ⟨m * x.b.b.a, m * x.b.b.b⟩⟩⟩

/-- An integer no smaller than the absolute value: s, t and w are below 2. -/
def Quad3.bound (x : Quad3) : Nat :=
  x.a.a.a.natAbs + 2 * x.a.a.b.natAbs + 2 * x.a.b.a.natAbs + 4 * x.a.b.b.natAbs +
  2 * x.b.a.a.natAbs + 4 * x.b.a.b.natAbs + 4 * x.b.b.a.natAbs + 8 * x.b.b.b.natAbs

/-- The greatest k of the form acc + (a number below 2^n) with k·d ≤ x, bit by bit from the top. -/
def Quad3.searchFloor (x : Quad3) (d : Nat) : Nat → Nat → Nat
  | 0, acc => acc
  | n + 1, acc =>
    if 0 ≤ (x.affine 1 (-((acc + 2 ^ n) * d : Nat))).sign then x.searchFloor d n (acc + 2 ^ n)
    else x.searchFloor d n acc

/-- floor(x / d) for x ≥ 0 and d > 0. -/
def Quad3.floorDiv (x : Quad3) (d : Nat) : Nat := x.searchFloor d (bitlen (x.bound / d)) 0

/-- rnd(x / d) for d > 0, ties away from zero, every comparison exact (00_scope.md R12, 43_transform.md R262). -/
def Quad3.rndDiv (x : Quad3) (d : Nat) : Int :=
  if 0 ≤ x.sign then ((x.affine 2 d).floorDiv (2 * d) : Int) else -((x.affine (-2) d).floorDiv (2 * d) : Int)

end Sys2Proof.Machine
end

