-- ==== Sys2Proof/Syntax.lean ====
section
/-! DEFINITION. The commands of the JRE-CODEC as syntax: one constructor per row of spec/opcode_table.json
(30_encoding.md R111, R118), operands as the numbers their fields hold. -/

namespace Sys2Proof

/-- CLASS of a Huffman table (10_state.md R51): DC = 0, AC = 1. -/
inductive HtClass where
  | dc
  | ac
deriving DecidableEq, Repr

/-- A command (30_encoding.md R118). -/
inductive Instr where
  /-- NOP, 41_control_commands.md R170 -/
  | nop
  /-- HT_BUILD CLASS ID, 41_control_commands.md R172 -/
  | htBuild (cls : HtClass) (id : Nat)
  /-- DC_RESET, 41_control_commands.md R173 -/
  | dcReset
  /-- BS_ALIGN_RD, 41_control_commands.md R174 -/
  | bsAlignRd
  /-- BS_FLUSH_WR, 41_control_commands.md R175 -/
  | bsFlushWr
  /-- HDEC SLOT COMP DCT ACT, 42_huffman.md R230 -/
  | hdec (slot comp dct act : Nat)
  /-- HENC SLOT COMP DCT ACT, 42_huffman.md R240 -/
  | henc (slot comp dct act : Nat)
  /-- IDCT SLOT QT, 43_transform.md R263 -/
  | idct (slot qt : Nat)
  /-- FDCT SLOT QT, 43_transform.md R264 -/
  | fdct (slot qt : Nat)
  /-- CSC_INV YHM1 YVM1 CHM1 CVM1, 44_color.md R303 -/
  | cscInv (yhm1 yvm1 chm1 cvm1 : Nat)
  /-- CSC_FWD YHM1 YVM1 CHM1 CVM1, 44_color.md R304 -/
  | cscFwd (yhm1 yvm1 chm1 cvm1 : Nat)
deriving DecidableEq, Repr

end Sys2Proof
end

