-- ==== Sys2Proof/WellFormed.lean ====
section
/-! DEFINITION. When a command term has an encoding: each operand fits the bits of its field (30_encoding.md R111; R121: a
field value too wide for its bits is an assembly error). Whether a field value is legal when the command runs (SLOT of 6 or 7,
a sampling combination) is the command's own check (R353), not this one. -/

namespace Sys2Proof

/-- `v` fits a field of `width` bits. -/
def fits (width v : Nat) : Bool := v < 2 ^ width

/-- The operands fit their fields: SLOT 3 bits, COMP, DCT, ACT, QT, ID and each sampling factor 2 bits (30_encoding.md R111). -/
def Instr.wf : Instr → Bool
  | .nop => true
  | .htBuild _ id => fits 2 id
  | .dcReset => true
  | .bsAlignRd => true
  | .bsFlushWr => true
  | .hdec slot comp dct act => fits 3 slot && fits 2 comp && fits 2 dct && fits 2 act
  | .henc slot comp dct act => fits 3 slot && fits 2 comp && fits 2 dct && fits 2 act
  | .idct slot qt => fits 3 slot && fits 2 qt
  | .fdct slot qt => fits 3 slot && fits 2 qt
  | .cscInv yhm1 yvm1 chm1 cvm1 => fits 2 yhm1 && fits 2 yvm1 && fits 2 chm1 && fits 2 cvm1
  | .cscFwd yhm1 yvm1 chm1 cvm1 => fits 2 yhm1 && fits 2 yvm1 && fits 2 chm1 && fits 2 cvm1

/-- A well-formed command. -/
abbrev WellFormed (i : Instr) : Prop := i.wf = true

end Sys2Proof
end

