-- ==== Sys2Proof/Decode.lean ====
section
/-! DEFINITION. Decoding a command word and encoding a command (30_encoding.md R110–R121). Decoding is total: every word is a
command or is rejected by name, in the order of R118: the opcode first, then the reserved bits of the format. -/

namespace Sys2Proof

/-- Why a word is no command (30_encoding.md R119). -/
inductive Reject where
  /-- OP is not in the opcode map: ILLEGAL_COMMAND/1 -/
  | undefinedOp
  /-- a reserved bit of the format is 1: ILLEGAL_COMMAND/2 -/
  | reservedBit
deriving DecidableEq, Repr

/-- The opcodes of 30_encoding.md R118. -/
inductive Op where
  | nop | htBuild | dcReset | bsAlignRd | bsFlushWr | hdec | henc | idct | fdct | cscInv | cscFwd
deriving DecidableEq, Repr

/-- The formats of 30_encoding.md R111. -/
inductive Format where
  | n | h | b | t | c
deriving DecidableEq, Repr

/-- OP of each command (30_encoding.md R118). -/
def Op.code : Op → Byte
  | .nop => 0x00#8
  | .htBuild => 0x01#8
  | .dcReset => 0x02#8
  | .bsAlignRd => 0x08#8
  | .bsFlushWr => 0x09#8
  | .hdec => 0x10#8
  | .henc => 0x11#8
  | .idct => 0x20#8
  | .fdct => 0x21#8
  | .cscInv => 0x30#8
  | .cscFwd => 0x31#8

/-- The format of each command (30_encoding.md R118). -/
def Op.format : Op → Format
  | .nop | .dcReset | .bsAlignRd | .bsFlushWr => .n
  | .htBuild => .h
  | .hdec | .henc => .b
  | .idct | .fdct => .t
  | .cscInv | .cscFwd => .c

/-- The reserved bits of each format, which must be 0 (30_encoding.md R111, R119). -/
def Format.reserved : Format → Word
  | .n => 0xFFFFFF00#32
  | .h => 0xFFFFCE00#32
  | .b => 0xFFCCC800#32
  | .t => 0xFFFCF800#32
  | .c => 0xFFFF0000#32

/-- OP as the opcode map reads it: CW[7:0] (30_encoding.md R110). -/
def opField (w : Word) : Byte := w.extractLsb' 0 8

/-- The field of `width` bits from bit `lo` up, as a number (30_encoding.md R117). -/
def field (w : Word) (lo width : Nat) : Nat := (w.extractLsb' lo width).toNat

/-- The opcode map read backwards: every value not listed is illegal (30_encoding.md R118, R119). -/
def opOfCode (c : Byte) : Option Op :=
  match c.toNat with
  | 0x00 => some .nop
  | 0x01 => some .htBuild
  | 0x02 => some .dcReset
  | 0x08 => some .bsAlignRd
  | 0x09 => some .bsFlushWr
  | 0x10 => some .hdec
  | 0x11 => some .henc
  | 0x20 => some .idct
  | 0x21 => some .fdct
  | 0x30 => some .cscInv
  | 0x31 => some .cscFwd
  | _ => none

/-- CLASS from its bit (30_encoding.md R114). -/
def classOfBit (b : Nat) : HtClass := if b = 0 then .dc else .ac

/-- CLASS as its bit (30_encoding.md R114). -/
def classBit : HtClass → Nat
  | .dc => 0
  | .ac => 1

/-- The operands of a word whose opcode is known (30_encoding.md R111–R116). -/
def operandsOf (w : Word) : Op → Instr
  | .nop => .nop
  | .htBuild => .htBuild (classOfBit (field w 8 1)) (field w 12 2)
  | .dcReset => .dcReset
  | .bsAlignRd => .bsAlignRd
  | .bsFlushWr => .bsFlushWr
  | .hdec => .hdec (field w 8 3) (field w 12 2) (field w 16 2) (field w 20 2)
  | .henc => .henc (field w 8 3) (field w 12 2) (field w 16 2) (field w 20 2)
  | .idct => .idct (field w 8 3) (field w 16 2)
  | .fdct => .fdct (field w 8 3) (field w 16 2)
  | .cscInv => .cscInv (field w 8 2) (field w 10 2) (field w 12 2) (field w 14 2)
  | .cscFwd => .cscFwd (field w 8 2) (field w 10 2) (field w 12 2) (field w 14 2)

/-- The decoder of 30_encoding.md R118: match OP, then check the reserved bits, then take the fields. -/
def decode (w : Word) : Except Reject Instr :=
  match opOfCode (opField w) with
  | none => .error .undefinedOp
  | some op => if w &&& op.format.reserved = 0#32 then .ok (operandsOf w op) else .error .reservedBit

/-- The opcode of a command. -/
def opOf : Instr → Op
  | .nop => .nop
  | .htBuild _ _ => .htBuild
  | .dcReset => .dcReset
  | .bsAlignRd => .bsAlignRd
  | .bsFlushWr => .bsFlushWr
  | .hdec _ _ _ _ => .hdec
  | .henc _ _ _ _ => .henc
  | .idct _ _ => .idct
  | .fdct _ _ => .fdct
  | .cscInv _ _ _ _ => .cscInv
  | .cscFwd _ _ _ _ => .cscFwd

/-- `v` placed with its bit 0 at bit `lo`. -/
def place (v lo : Nat) : Word := BitVec.ofNat 32 v <<< lo

/-- The operand bits of a command, as 30_encoding.md R121 assembles them. -/
def operandBits : Instr → Word
  | .nop => 0#32
  | .htBuild cls id => place (classBit cls) 8 ||| place id 12
  | .dcReset => 0#32
  | .bsAlignRd => 0#32
  | .bsFlushWr => 0#32
  | .hdec slot comp dct act => place slot 8 ||| place comp 12 ||| place dct 16 ||| place act 20
  | .henc slot comp dct act => place slot 8 ||| place comp 12 ||| place dct 16 ||| place act 20
  | .idct slot qt => place slot 8 ||| place qt 16
  | .fdct slot qt => place slot 8 ||| place qt 16
  | .cscInv yhm1 yvm1 chm1 cvm1 => place yhm1 8 ||| place yvm1 10 ||| place chm1 12 ||| place cvm1 14
  | .cscFwd yhm1 yvm1 chm1 cvm1 => place yhm1 8 ||| place yvm1 10 ||| place chm1 12 ||| place cvm1 14

/-- The command word of a well-formed command (30_encoding.md R121). -/
def encode (i : Instr) : Word := (opOf i).code.setWidth 32 ||| operandBits i

/-- Assembling: a field value too wide for its bits is an assembly error, not a different word (30_encoding.md R121). -/
def assemble (i : Instr) : Option Word := if i.wf then some (encode i) else none

/-- The command this decoder reads from an instruction whose bits are `w`, numbered as spec/opcode_table.json numbers them;
the bits above `nbits` are 0. A command is one 32-bit word written to CMD (30_encoding.md R110), so no byte order is left. -/
def decodeTableWord (nbits w : Nat) : Option Instr :=
  match decode (BitVec.ofNat 32 (w % 2 ^ nbits)) with
  | .ok i => some i
  | .error _ => none

end Sys2Proof
end

