-- ==== Sys2Proof/Config.lean ====
section
/-! DEFINITION. What an implementation of the JRE-CODEC fixes (the parameters of 00_scope.md R8) and the free values the spec
leaves open (93_implementation_defined.md section 2). A free value is an opaque constant: nothing in Lean knows what it is. -/

namespace Sys2Proof

/-- The parameter TRANSFORM_MODEL (00_scope.md R8): the exact DCT of 43_transform.md R262, or a supplied pair of functions
(R268). -/
inductive TransformModel where
  | exact
  | supplied
deriving DecidableEq, Repr

/-- The implementation parameters of 00_scope.md R8. The buffer capacities are powers of two, held by their logarithms, which
is how CONFIG shows them (10_state.md R34). -/
structure Params where
  /-- BASE, the byte address of the window on the host bus -/
  base : Nat
  /-- log2 of IBUF_BYTES -/
  ibufLog2 : Nat
  /-- log2 of OBUF_BYTES -/
  obufLog2 : Nat
  /-- TRANSFORM_MODEL -/
  transform : TransformModel
deriving DecidableEq, Repr

/-- IBUF_BYTES (00_scope.md R8). -/
abbrev Params.ibufBytes (p : Params) : Nat := 2 ^ p.ibufLog2

/-- OBUF_BYTES (00_scope.md R8). -/
abbrev Params.obufBytes (p : Params) : Nat := 2 ^ p.obufLog2

/-- The legal values of the parameters (00_scope.md R8): BASE is 0x40000-aligned, each buffer has 4 to 65536 bytes. -/
def Params.legal (p : Params) : Bool :=
  p.base % 0x40000 == 0 && (2 ≤ p.ibufLog2 && p.ibufLog2 ≤ 16) && (2 ≤ p.obufLog2 && p.obufLog2 ≤ 16)

/-- The spec's defaults (00_scope.md R8): 32768 bytes each, EXACT. BASE is OPEN in the spec; 0 here is a DESIGN CHOICE
(log 6). -/
def Params.standard : Params := ⟨0, 15, 15, .exact⟩

/-- What byte `addr` of the internal memories holds after power-on number `epoch`, before anything writes it
(70_reset_and_hazards.md R390, 93_implementation_defined.md U2): unspecified, stable until written (log 1). -/
opaque Config.powerOnByte (epoch addr : Nat) : Byte

/-- The value of the `n`-th host read of protected state while BUSY = 1 (40_host_access.md R143,
93_implementation_defined.md U1): unspecified, fresh at each read (log 3). -/
opaque Config.busyRead (n : Nat) : Word

/-- IDCT_impl of 43_transform.md R268: from the 64 integers D (natural order) the sample at natural index `i`, in [0, 255]
(log 7). -/
opaque Config.idctImpl (D : List Int) (i : Nat) : Byte

/-- The transform inside FDCT_impl of 43_transform.md R268: from the 64 level-shifted samples and the 64 table entries (zig-zag order)
its output F at natural index `n`, before the quantizer's division, whose rounding is the same in every transform model (log 7). -/
opaque Config.fdctTransform (g : List Int) (q : List Half) (n : Nat) : Rat

end Sys2Proof
end

