-- ==== Sys2Proof/Machine/State.lean ====
section
/-! DEFINITION. The state of the JRE-CODEC as plain data (10_state.md), the reasons a step can stop, and the state after
power-on reset (70_reset_and_hazards.md R390). -/

namespace Sys2Proof.Machine

/-- Why a step stops with a fault. -/
inductive Fault where
  /-- A bus access the window does not accept: not four bytes wide, not aligned, or outside the window (20_memory.md R85,
  40_host_access.md R149). Raised by a host step alone, on a read or a write; the block's state is unchanged. Safe: the spec
  itself says that a model's run stops there (log 15). -/
  | busError (addr bytes : Nat)
deriving DecidableEq, Repr

/-- Why a step has no meaning. -/
inductive Refusal where
  /-- A command of the opcode table without a meaning yet. Raised by `exec` alone; no arm raises it now. Safe. -/
  | notModelled (mnemonic : String)
deriving DecidableEq, Repr

/-- CTRL (10_state.md R35); SOFT_RESET holds nothing. -/
structure Ctrl where
  irqEn : Bool
  inFinal : Bool
deriving DecidableEq, Repr

/-- The event flags of STATUS, bits 1 to 6 (10_state.md R37). Bit 0, BUSY, is the presence of the engine latch (log 12). -/
structure Status where
  done : Bool
  err : Bool
  needData : Bool
  outFull : Bool
  cmdDropped : Bool
  accDropped : Bool
deriving DecidableEq, Repr

/-- The engine latch (10_state.md R60): the accepted command word and CTRL.IN_FINAL as sampled at acceptance. -/
structure Latch where
  cw : Word
  fin : Bool
deriving DecidableEq, Repr

/-- DC_PRED0..DC_PRED3, s16 each (10_state.md R46). -/
structure DcPreds where
  p0 : Half
  p1 : Half
  p2 : Half
  p3 : Half
deriving DecidableEq, Repr

/-- The internal memories (10_state.md R50–R58), keyed by window offset: `cells` lists the bytes written since the last
power-on, addresses strictly rising; an unlisted address holds its power-on draw of power cycle `epoch`
(70_reset_and_hazards.md R390, logs 1 and 2). -/
structure Memory where
  cells : List Host.Cell
  epoch : Nat
deriving DecidableEq, Repr

/-- A pending action of the host or the platform on the block (40_host_access.md R140, 00_scope.md R15, logs 4, 5 and 11). -/
inductive Input where
  /-- MemRead of `bytes` bytes at bus address `addr` (40_host_access.md R141) -/
  | read (addr bytes : Nat)
  /-- MemWrite of `bytes` bytes at bus address `addr`, bus datum `v` (40_host_access.md R142) -/
  | write (addr bytes : Nat) (v : Word)
  /-- WAIT: repeat the read of STATUS until BUSY = 0 (00_scope.md R15) -/
  | wait
  /-- the platform's reset input (70_reset_and_hazards.md R390) -/
  | powerOnReset
deriving DecidableEq, Repr

/-- The two agents (40_host_access.md R140). -/
inductive Agent where
  | host
  | engine
deriving DecidableEq, Repr

/-- Everything the spec gives the block, and the model's own fields `inputs`, `schedule`, `responses`, `draws`. -/
structure State where
  /-- the implementation parameters (00_scope.md R8); CONFIG shows them (10_state.md R34); no step changes them -/
  params : Params
  /-- CTRL (10_state.md R35) -/
  ctrl : Ctrl
  /-- STATUS bits 1 to 6 (10_state.md R37) -/
  status : Status
  /-- CW and FIN while a command runs (10_state.md R60); its presence is STATUS.BUSY -/
  latch : Option Latch
  /-- ERRCODE (10_state.md R38) -/
  errcode : Word
  /-- HT_VALID bits 7 to 0 (10_state.md R39) -/
  htValid : BitVec 8
  /-- RD_POS (10_state.md R40) -/
  rdPos : BitVec 17
  /-- RD_BIT (10_state.md R41) -/
  rdBit : BitVec 3
  /-- RD_LEN (10_state.md R42) -/
  rdLen : BitVec 17
  /-- WR_POS (10_state.md R43) -/
  wrPos : BitVec 17
  /-- WR_BIT (10_state.md R44) -/
  wrBit : BitVec 3
  /-- WR_ACC (10_state.md R45) -/
  wrAcc : BitVec 7
  /-- DC_PRED0..3 (10_state.md R46) -/
  dcPred : DcPreds
  /-- QT, HT, COEF, SMP, PIX, IBUF, OBUF (10_state.md R50–R58) -/
  mem : Memory
  /-- the model's own: what the host and the platform will do next, oldest first (log 4) -/
  inputs : List Input
  /-- the model's own: whose turn comes next; when it is used up a busy engine goes first (log 4) -/
  schedule : List Agent
  /-- the model's own: the data the host's reads returned, newest first (log 5) -/
  responses : List Word
  /-- the model's own: how many protected reads have drawn an unspecified value (log 3) -/
  draws : Nat
deriving DecidableEq, Repr

/-- STATUS.BUSY (10_state.md R37, R60; log 12). -/
abbrev State.busy (s : State) : Bool := s.latch.isSome

/-- STATUS with every event flag 0. -/
abbrev Status.clear : Status := ⟨false, false, false, false, false, false⟩

/-- DC predictors all 0. -/
abbrev DcPreds.zero : DcPreds := ⟨0#16, 0#16, 0#16, 0#16⟩

/-- The machine right after power-on reset (70_reset_and_hazards.md R390), with the spec's default parameters (00_scope.md R8)
and nothing pending (log 4). -/
def State.reset : State where
  params := Params.standard
  ctrl := ⟨false, false⟩
  status := Status.clear
  latch := none
  errcode := 0#32
  htValid := 0#8
  rdPos := 0#17
  rdBit := 0#3
  rdLen := 0#17
  wrPos := 0#17
  wrBit := 0#3
  wrAcc := 0#7
  dcPred := DcPreds.zero
  mem := ⟨[], 0⟩
  inputs := []
  schedule := []
  responses := []
  draws := 0

end Sys2Proof.Machine
end

