-- ==== Sys2Proof/Machine/Flags.lean ====
section
/-! DEFINITION. STATUS, HT_VALID and the IRQ line: every flag of the block and how it is set, cleared and read (10_state.md R37,
R39, R62; 40_host_access.md R146, R147; 60_exceptions.md R351–R355, R360). -/

namespace Sys2Proof.Machine

/-- A Bool as one bit. -/
def bit (b : Bool) : BitVec 1 := BitVec.ofBool b

/-- STATUS as software reads it (10_state.md R37): BUSY in bit 0, the event flags in bits 1 to 6, the rest 0. -/
def statusWord (busy : Bool) (f : Status) : Word :=
  (bit f.accDropped ++ bit f.cmdDropped ++ bit f.outFull ++ bit f.needData ++ bit f.err ++ bit f.done ++ bit busy).setWidth 32

/-- A host write of `v` to STATUS (40_host_access.md R147): each event flag whose bit is 1 in `v` is cleared. -/
def Status.writeOneToClear (f : Status) (v : Word) : Status where
  done := f.done && !v.getLsbD 1
  err := f.err && !v.getLsbD 2
  needData := f.needData && !v.getLsbD 3
  outFull := f.outFull && !v.getLsbD 4
  cmdDropped := f.cmdDropped && !v.getLsbD 5
  accDropped := f.accDropped && !v.getLsbD 6

/-- What accepting a command clears (40_host_access.md R146): DONE, NEED_DATA and OUT_FULL. -/
def Status.onAccept (f : Status) : Status := { f with done := false, needData := false, outFull := false }

/-- The IRQ line (60_exceptions.md R360, 10_state.md R62). -/
def State.irq (s : State) : Bool :=
  s.ctrl.irqEn && (s.status.done || s.status.err || s.status.needData || s.status.outFull)

/-- HT_VALID bit `h` (10_state.md R39). -/
def htBit (v : BitVec 8) (h : Nat) : Bool := v.getLsbD h

/-- HT_VALID with bit `h` set (41_control_commands.md R172). -/
def setHtBit (v : BitVec 8) (h : Nat) : BitVec 8 := v ||| (1#8 <<< h)

/-- HT_VALID with bit `h` cleared (10_state.md R51). -/
def clearHtBit (v : BitVec 8) (h : Nat) : BitVec 8 := v &&& ~~~(1#8 <<< h)

end Sys2Proof.Machine
end

