-- ==== Sys2Proof/Machine/Ops.lean ====
section
/-! DEFINITION. The named operations over memory and registers: reading and writing bytes and elements, DC predictors, the
fixed registers, accepting a command (40_host_access.md R146), the soft reset (70_reset_and_hazards.md R391), and completion,
the block's one way of ending a command (60_exceptions.md R351–R356), which takes the place of an exception entry here: the
block has no vectors, no saved pc and no modes. The return from an error is the host clearing STATUS.ERR (R370). -/

namespace Sys2Proof.Machine

/-! ## Memory -/

/-- The byte listed at address `a`, if any. -/
def lookupCell : List Host.Cell → Nat → Option Byte
  | [], _ => none
  | (k, b) :: rest, a => if k = a then some b else lookupCell rest a

/-- The listing with byte `b` at address `a`, in the same order. -/
def insertCell : List Host.Cell → Nat → Byte → List Host.Cell
  | [], a, b => [(a, b)]
  | (k, c) :: rest, a, b =>
    if a < k then (a, b) :: (k, c) :: rest
    else if a = k then (a, b) :: rest
    else (k, c) :: insertCell rest a b

/-- Addresses strictly rising, the first above every address below `lo`. -/
def risingFrom : Nat → List Host.Cell → Bool
  | _, [] => true
  | lo, (k, _) :: rest => decide (lo ≤ k) && risingFrom (k + 1) rest

/-- The canonical form of memory: the listed addresses are strictly rising. An unlisted address has no listed value (its
content is the power-on draw), so no entry can equal one (log 1). -/
def Memory.wf (m : Memory) : Bool := risingFrom 0 m.cells

/-- The byte at address `a`: what was last written there, else the power-on draw (70_reset_and_hazards.md R390). -/
def Memory.read (m : Memory) (a : Nat) : Byte := (lookupCell m.cells a).getD (Config.powerOnByte m.epoch a)

/-- Memory with byte `b` at address `a`. -/
def Memory.write (m : Memory) (a : Nat) (b : Byte) : Memory := { m with cells := insertCell m.cells a b }

/-- Memory after the listed stores, first to last. -/
def Memory.writeAll (m : Memory) : List Host.Cell → Memory
  | [] => m
  | (a, b) :: rest => (m.write a b).writeAll rest

/-- The 16-bit element whose word is at offset `a`: low byte at `a`, high byte at `a + 1` (log 2). -/
def Memory.read16 (m : Memory) (a : Nat) : Half := m.read (a + 1) ++ m.read a

/-- The 9-bit NSYM whose word is at offset `a` (10_state.md R51, log 2). -/
def Memory.read9 (m : Memory) (a : Nat) : BitVec 9 := (m.read (a + 1)).setWidth 1 ++ m.read a

/-- Four packed bytes, little-endian (20_memory.md R81). -/
def Memory.read32 (m : Memory) (a : Nat) : Word := m.read (a + 3) ++ m.read (a + 2) ++ m.read (a + 1) ++ m.read a

/-- The stores of one 16-bit element. -/
def stores16 (a : Nat) (v : Half) : List Host.Cell := [(a, v.extractLsb' 0 8), (a + 1, v.extractLsb' 8 8)]

/-- The stores of one 9-bit NSYM. -/
def stores9 (a : Nat) (v : BitVec 9) : List Host.Cell :=
  [(a, v.extractLsb' 0 8), (a + 1, (v.extractLsb' 8 1).setWidth 8)]

/-- The stores of four packed bytes, little-endian (20_memory.md R81). -/
def stores32 (a : Nat) (v : Word) : List Host.Cell :=
  [(a, v.extractLsb' 0 8), (a + 1, v.extractLsb' 8 8), (a + 2, v.extractLsb' 16 8), (a + 3, v.extractLsb' 24 8)]

/-- The stores of 16-bit elements in consecutive words from offset `a`. -/
def storesHalves : Nat → List Half → List Host.Cell
  | _, [] => []
  | a, v :: rest => stores16 a v ++ storesHalves (a + 4) rest

/-- The stores of 8-bit elements in consecutive words from offset `a`. -/
def storesBytes : Nat → List Byte → List Host.Cell
  | _, [] => []
  | a, v :: rest => (a, v) :: storesBytes (a + 4) rest

/-- The stores of consecutive bytes from address `a` (OBUF, 10_state.md R58). -/
def storesPacked : Nat → List Byte → List Host.Cell
  | _, [] => []
  | a, v :: rest => (a, v) :: storesPacked (a + 1) rest

/-! ## Registers -/

/-- ID (10_state.md R33): ASCII "JRE1". -/
def idWord : Word := 0x4A524531#32

/-- CONFIG (10_state.md R34): IBUF_LOG2 in [4:0], OBUF_LOG2 in [12:8], TRANSFORM_EXACT in [16]. -/
def configWord (p : Params) : Word :=
  (bit (p.transform == .exact) ++ 0#3 ++ BitVec.ofNat 5 p.obufLog2 ++ 0#3 ++ BitVec.ofNat 5 p.ibufLog2).setWidth 32

/-- CTRL as software reads it (10_state.md R35): SOFT_RESET reads 0. -/
def ctrlWord (c : Ctrl) : Word := (bit c.inFinal ++ bit c.irqEn ++ 0#1).setWidth 32

/-- DC_PRED[c] (10_state.md R46). -/
def DcPreds.get (d : DcPreds) (c : Nat) : Half :=
  match c with
  | 0 => d.p0
  | 1 => d.p1
  | 2 => d.p2
  | _ => d.p3

/-- DC_PRED with entry `c` written (10_state.md R46). -/
def DcPreds.set (d : DcPreds) (c : Nat) (v : Half) : DcPreds :=
  match c with
  | 0 => { d with p0 := v }
  | 1 => { d with p1 := v }
  | 2 => { d with p2 := v }
  | _ => { d with p3 := v }

/-- What a host write of `v` stores in a position or length register of a buffer of `cap` bytes: min(v[16:0], cap)
(10_state.md R40, R42, R43). -/
def clampPos (v : Word) (cap : Nat) : BitVec 17 := BitVec.ofNat 17 (min (v.extractLsb' 0 17).toNat cap)

/-- The latched IN_FINAL (10_state.md R60). -/
def State.fin (s : State) : Bool :=
  match s.latch with
  | some l => l.fin
  | none => false

/-! ## Accepting a command -/

/-- The accepting branch of a CMD write (40_host_access.md R146): latch the word and IN_FINAL, clear DONE, NEED_DATA and
OUT_FULL, set BUSY. -/
def accept (s : State) (cw : Word) : State :=
  { s with latch := some ⟨cw, s.ctrl.inFinal⟩, status := s.status.onAccept }

/-- A CMD write (40_host_access.md R146): dropped while BUSY or ERR, else accepted. -/
def offerCommand (s : State) (cw : Word) : State :=
  if s.busy || s.status.err then { s with status := { s.status with cmdDropped := true } } else accept s cw

/-! ## Ending a command -/

/-- The error codes of 60_exceptions.md R350. -/
inductive ErrorCode where
  | truncatedStream
  | malformedTable
  | malformedStream
  | invalidCode
  | unsupportedFormat
  | invalidArgument
  | illegalCommand
deriving DecidableEq, Repr

/-- ERRCODE.CODE of each error (60_exceptions.md R350). -/
def ErrorCode.code : ErrorCode → Byte
  | .truncatedStream => 0x01#8
  | .malformedTable => 0x02#8
  | .malformedStream => 0x03#8
  | .invalidCode => 0x04#8
  | .unsupportedFormat => 0x05#8
  | .invalidArgument => 0x06#8
  | .illegalCommand => 0x07#8

/-- How a command body ends when it does not end ok (60_exceptions.md R352, R354, R355). -/
inductive Raise where
  | error (e : ErrorCode) (detail : Byte)
  | needData
  | outFull
deriving DecidableEq, Repr

/-- ERRCODE as an error writes it (60_exceptions.md R352): OP in [23:16], DETAIL in [15:8], CODE in [7:0]. -/
def errWord (op : Byte) (e : ErrorCode) (detail : Byte) : Word := 0#8 ++ op ++ detail ++ e.code

/-- Completion (60_exceptions.md R351): `s` is the state the command started from, `r` what its body made of a private copy.
Ok commits the copy and sets DONE; anything else discards it and sets one flag, an error also ERRCODE. BUSY is cleared in the
same step. -/
def complete (op : Byte) (s : State) (r : Except Raise State) : State :=
  match r with
  | .ok t => { t with latch := none, status := { t.status with done := true } }
  | .error (.error e d) =>
    { s with latch := none, errcode := errWord op e d, status := { s.status with err := true } }
  | .error .needData => { s with latch := none, status := { s.status with needData := true } }
  | .error .outFull => { s with latch := none, status := { s.status with outFull := true } }

/-- The engine step of a command whose body is `r`: always a next state. -/
def finish (op : Op) (s : State) (r : Except Raise State) : Host.Outcome State Fault Refusal :=
  .next (complete op.code s r)

/-! ## Reset -/

/-- The registers that both resets clear (70_reset_and_hazards.md R390, R391), CTRL aside. -/
def clearRegisters (s : State) : State :=
  { s with
    status := Status.clear, latch := none, errcode := 0#32, htValid := 0#8,
    rdPos := 0#17, rdBit := 0#3, rdLen := 0#17, wrPos := 0#17, wrBit := 0#3, wrAcc := 0#7,
    dcPred := DcPreds.zero }

/-- The soft reset (70_reset_and_hazards.md R391): registers cleared, a running command cancelled, memories kept. IRQ_EN and
IN_FINAL go to 0 here and take the written bits in the same CTRL write (10_state.md R35). -/
def softReset (s : State) : State := { clearRegisters s with ctrl := ⟨false, false⟩ }

/-- A CTRL write (40_host_access.md R148). -/
def writeCtrl (s : State) (v : Word) : State :=
  { (if v.getLsbD 0 then softReset s else s) with ctrl := ⟨v.getLsbD 1, v.getLsbD 2⟩ }

/-- Power-on reset by the platform's reset input (70_reset_and_hazards.md R390): as the soft reset, with CTRL 0, and every
memory element drawn anew (log 11). -/
def powerOn (s : State) : State := { softReset s with mem := ⟨[], s.mem.epoch + 1⟩ }

end Sys2Proof.Machine
end

