-- ==== Sys2Proof/Machine/Operands.lean ====
section
/-! DEFINITION. What the operand fields of a command select: block slots, quantization and Huffman tables, components, sampling
factors (30_encoding.md R112–R116), the window offsets of every memory element (10_state.md R50–R58), and the checks made on
field values before anything else (60_exceptions.md R353 points 3 and 4). -/

namespace Sys2Proof.Machine

/-! ## Where the elements are -/

/-- QT[t][k] (10_state.md R50). -/
def qtAddr (t k : Nat) : Nat := 0x1000 + 4 * (64 * t + k)

/-- HT[h].BITS[l], l = 1..16 (10_state.md R51). -/
def htBitsAddr (h l : Nat) : Nat := 0x2000 + 0x800 * h + 4 * (l - 1)

/-- HT[h].HUFFVAL[j] (10_state.md R51). -/
def htValAddr (h j : Nat) : Nat := 0x2000 + 0x800 * h + 4 * (16 + j)

/-- HT[h].NSYM (10_state.md R51). -/
def htNsymAddr (h : Nat) : Nat := 0x2000 + 0x800 * h + 4 * 272

/-- COEF[s][k] (10_state.md R54). -/
def coefAddr (s k : Nat) : Nat := 0x6000 + 4 * (64 * s + k)

/-- SMP[s][i] (10_state.md R55). -/
def smpAddr (s i : Nat) : Nat := 0x6800 + 4 * (64 * s + i)

/-- PIX[i] (10_state.md R56). -/
def pixAddr (i : Nat) : Nat := 0x7000 + 4 * i

/-- IBUF[p] (10_state.md R57). -/
def ibufAddr (p : Nat) : Nat := 0x10000 + p

/-- OBUF[p] (10_state.md R58). -/
def obufAddr (p : Nat) : Nat := 0x20000 + p

/-! ## The elements -/

/-- QT[t][k]. -/
def Memory.qt (m : Memory) (t k : Nat) : Half := m.read16 (qtAddr t k)

/-- HT[h].BITS[l]. -/
def Memory.htBits (m : Memory) (h l : Nat) : Byte := m.read (htBitsAddr h l)

/-- HT[h].HUFFVAL[j]. -/
def Memory.htVal (m : Memory) (h j : Nat) : Byte := m.read (htValAddr h j)

/-- HT[h].NSYM. -/
def Memory.htNsym (m : Memory) (h : Nat) : BitVec 9 := m.read9 (htNsymAddr h)

/-- COEF[s][k]. -/
def Memory.coef (m : Memory) (s k : Nat) : Half := m.read16 (coefAddr s k)

/-- SMP[s][i]. -/
def Memory.smp (m : Memory) (s i : Nat) : Byte := m.read (smpAddr s i)

/-- PIX[i]. -/
def Memory.pix (m : Memory) (i : Nat) : Byte := m.read (pixAddr i)

/-- IBUF[p]. -/
def Memory.ibuf (m : Memory) (p : Nat) : Byte := m.read (ibufAddr p)

/-- OBUF[p]. -/
def Memory.obuf (m : Memory) (p : Nat) : Byte := m.read (obufAddr p)

/-- COEF[s][0..63], zig-zag order. -/
def Memory.coefBlock (m : Memory) (s : Nat) : List Half := (List.range 64).map (m.coef s)

/-- SMP[s][0..63], natural order. -/
def Memory.smpBlock (m : Memory) (s : Nat) : List Byte := (List.range 64).map (m.smp s)

/-- QT[t][0..63], zig-zag order. -/
def Memory.qtTable (m : Memory) (t : Nat) : List Half := (List.range 64).map (m.qt t)

/-- The stores COEF[s][0..] <- z. -/
def coefStores (s : Nat) (z : List Half) : List Host.Cell := storesHalves (coefAddr s 0) z

/-- The stores SMP[s][0..] <- z. -/
def smpStores (s : Nat) (z : List Byte) : List Host.Cell := storesBytes (smpAddr s 0) z

/-- The stores OBUF[p..] <- bytes. -/
def obufStores (p : Nat) (bytes : List Byte) : List Host.Cell := storesPacked (obufAddr p) bytes

/-! ## Field values -/

/-- The Huffman table index h = 4·CLASS + ID (10_state.md R51, 30_encoding.md R114). -/
def htIndex (cls : HtClass) (id : Nat) : Nat := 4 * classBit cls + id

/-- The DC table a block command names: h = DCT (30_encoding.md R113). -/
def dcTableIndex (dct : Nat) : Nat := htIndex .dc dct

/-- The AC table a block command names: h = 4 + ACT (30_encoding.md R113). -/
def acTableIndex (act : Nat) : Nat := htIndex .ac act

/-- The SLOT check (30_encoding.md R112): 0..5, else INVALID_ARGUMENT/1. -/
def checkSlot (slot : Nat) : Except Raise Unit :=
  if slot > 5 then .error (.error .invalidArgument 1#8) else .ok ()

/-- The table precondition of HDEC and HENC (42_huffman.md R231): both tables built, else MALFORMED_TABLE/5. -/
def checkTables (s : State) (dct act : Nat) : Except Raise Unit :=
  if htBit s.htValid (dcTableIndex dct) then
    if htBit s.htValid (acTableIndex act) then .ok () else .error (.error .malformedTable 5#8)
  else .error (.error .malformedTable 5#8)

/-- The quantization-table check (43_transform.md R261): no entry is 0, else MALFORMED_TABLE/6. -/
def checkQt (m : Memory) (t : Nat) : Except Raise Unit :=
  if (m.qtTable t).any (· == 0#16) then .error (.error .malformedTable 6#8) else .ok ()

/-- The sampling-factor check (30_encoding.md R116, 44_color.md R300): YH and YV of a legal combination, else
UNSUPPORTED_FORMAT/1. -/
def checkFactors (yhm1 yvm1 chm1 cvm1 : Nat) : Except Raise (Nat × Nat) :=
  match (yhm1 + 1, yvm1 + 1, chm1 + 1, cvm1 + 1) with
  | (1, 1, 1, 1) => .ok (1, 1)
  | (2, 1, 1, 1) => .ok (2, 1)
  | (2, 2, 1, 1) => .ok (2, 2)
  | _ => .error (.error .unsupportedFormat 1#8)

/-! ## MCU geometry (44_color.md R302) -/

/-- The slot of the Y block that holds the pixel (x, y). -/
def lumaSlot (yh x y : Nat) : Nat := (y / 8) * yh + x / 8

/-- The position of the pixel (x, y) in its Y block. -/
def lumaPos (x y : Nat) : Nat := (y % 8) * 8 + x % 8

/-- The PIX index of component `c` of the pixel (x, y) (10_state.md R56). -/
def pixIndex (x y c : Nat) : Nat := 3 * (16 * y + x) + c

/-- The slot of Cb. -/
def cbSlot : Nat := 4

/-- The slot of Cr. -/
def crSlot : Nat := 5

end Sys2Proof.Machine
end

