-- ==== Sys2Proof/Machine/Colour.lean ====
section
/-! DEFINITION. Colour conversion and chroma resampling: CSC_INV and CSC_FWD (44_color.md R300–R307). -/

namespace Sys2Proof.Machine

/-! ## Per-pixel equations -/

/-- Y of a pixel (R301). -/
def rgbToY (r g b : Byte) : Byte := clampByte (rndDiv (299 * r.toNat + 587 * g.toNat + 114 * b.toNat : Nat) 1000)

/-- Cb of a pixel (R301): 128 + (-299R - 587G + 886B) / 1772 over one denominator. -/
def rgbToCb (r g b : Byte) : Byte :=
  clampByte (rndDiv (128 * 1772 - 299 * (r.toNat : Int) - 587 * g.toNat + 886 * b.toNat) 1772)

/-- Cr of a pixel (R301): 128 + (701R - 587G - 114B) / 1402 over one denominator. -/
def rgbToCr (r g b : Byte) : Byte :=
  clampByte (rndDiv (128 * 1402 + 701 * (r.toNat : Int) - 587 * g.toNat - 114 * b.toNat) 1402)

/-- R of a sample triple (R307): Y + 1.402 (Cr - 128). -/
def yccToR (y _cb cr : Byte) : Byte := clampByte (rndDiv (1000 * (y.toNat : Int) + 1402 * ((cr.toNat : Int) - 128)) 1000)

/-- G of a sample triple (R307): Y - (202008 (Cb - 128) + 419198 (Cr - 128)) / 587000. -/
def yccToG (y cb cr : Byte) : Byte :=
  clampByte (rndDiv
    (587000 * (y.toNat : Int) - 202008 * ((cb.toNat : Int) - 128) - 419198 * ((cr.toNat : Int) - 128)) 587000)

/-- B of a sample triple (R307): Y + 1.772 (Cb - 128). -/
def yccToB (y cb _cr : Byte) : Byte := clampByte (rndDiv (1000 * (y.toNat : Int) + 1772 * ((cb.toNat : Int) - 128)) 1000)

/-- The pixels (x, y) of a tile of `w` columns and `h` rows, row by row. -/
def tile (w h : Nat) : List (Nat × Nat) := (List.range h).flatMap fun y => (List.range w).map fun x => (x, y)

/-! ## CSC_INV -/

/-- The stores of one pixel of CSC_INV (R303), nearest chroma sample (R306). -/
def invPixelStores (m : Memory) (yh yv x y : Nat) : List Host.Cell :=
  let yy := m.smp (lumaSlot yh x y) (lumaPos x y)
  let n := y / yv * 8 + x / yh
  let cb := m.smp cbSlot n
  let cr := m.smp crSlot n
  [(pixAddr (pixIndex x y 0), yccToR yy cb cr), (pixAddr (pixIndex x y 1), yccToG yy cb cr),
   (pixAddr (pixIndex x y 2), yccToB yy cb cr)]

/-- All stores of CSC_INV (R303). -/
def cscInvStores (m : Memory) (yh yv : Nat) : List Host.Cell :=
  (tile (8 * yh) (8 * yv)).flatMap fun p => invPixelStores m yh yv p.1 p.2

/-- The body of CSC_INV (R303). -/
def cscInvBody (yhm1 yvm1 chm1 cvm1 : Nat) (s : State) : Except Raise State :=
  match checkFactors yhm1 yvm1 chm1 cvm1 with
  | .error e => .error e
  | .ok (yh, yv) => .ok { s with mem := s.mem.writeAll (cscInvStores s.mem yh yv) }

/-- CSC_INV (R303). -/
def execCscInv (yhm1 yvm1 chm1 cvm1 : Nat) (s : State) : Host.Outcome State Fault Refusal :=
  finish .cscInv s (cscInvBody yhm1 yvm1 chm1 cvm1 s)

/-! ## CSC_FWD -/

/-- A forward equation applied to the pixel (x, y) of PIX. -/
def pixelTo (f : Byte → Byte → Byte → Byte) (m : Memory) (x y : Nat) : Byte :=
  f (m.pix (pixIndex x y 0)) (m.pix (pixIndex x y 1)) (m.pix (pixIndex x y 2))

/-- A chroma sample of CSC_FWD (R304, R305): the mean of the Hs×Vs rounded full-resolution values, rounded half up. -/
def chromaMean (f : Byte → Byte → Byte → Byte) (m : Memory) (hs vs i j : Nat) : Byte :=
  BitVec.ofNat 8
    ((((tile hs vs).map fun d => (pixelTo f m (i * hs + d.1) (j * vs + d.2)).toNat).sum + hs * vs / 2) / (hs * vs))

/-- The luma stores of CSC_FWD (R304). -/
def fwdLumaStores (m : Memory) (yh yv : Nat) : List Host.Cell :=
  (tile (8 * yh) (8 * yv)).map fun p => (smpAddr (lumaSlot yh p.1 p.2) (lumaPos p.1 p.2), pixelTo rgbToY m p.1 p.2)

/-- The chroma stores of CSC_FWD into one slot (R304). -/
def fwdChromaStores (f : Byte → Byte → Byte → Byte) (slot : Nat) (m : Memory) (yh yv : Nat) : List Host.Cell :=
  (tile 8 8).map fun p => (smpAddr slot (8 * p.2 + p.1), chromaMean f m yh yv p.1 p.2)

/-- All stores of CSC_FWD (R304). -/
def cscFwdStores (m : Memory) (yh yv : Nat) : List Host.Cell :=
  fwdLumaStores m yh yv ++ fwdChromaStores rgbToCb cbSlot m yh yv ++ fwdChromaStores rgbToCr crSlot m yh yv

/-- The body of CSC_FWD (R304). -/
def cscFwdBody (yhm1 yvm1 chm1 cvm1 : Nat) (s : State) : Except Raise State :=
  match checkFactors yhm1 yvm1 chm1 cvm1 with
  | .error e => .error e
  | .ok (yh, yv) => .ok { s with mem := s.mem.writeAll (cscFwdStores s.mem yh yv) }

/-- CSC_FWD (R304). -/
def execCscFwd (yhm1 yvm1 chm1 cvm1 : Nat) (s : State) : Host.Outcome State Fault Refusal :=
  finish .cscFwd s (cscFwdBody yhm1 yvm1 chm1 cvm1 s)

end Sys2Proof.Machine
end

