-- ==== Sys2Proof/Machine/HuffTable.lean ====
section
/-! DEFINITION. The Huffman tables: canonical code assignment (41_control_commands.md R171), the checks of HT_BUILD (R172), and the
derived code table of a built table (10_state.md R61), recomputed from the table RAM. -/

namespace Sys2Proof.Machine

/-- One code of a derived table: its length, its value, and the symbol it stands for. -/
structure Entry where
  size : Nat
  code : Nat
  sym : Byte
deriving DecidableEq, Repr

/-- The lengths and codes of 41_control_commands.md R171, in HUFFVAL order: `n` codes of length `l` from `code` up for each
count, the next free code doubled at each longer length. -/
def canonicalCodes : List Nat → Nat → Nat → List (Nat × Nat)
  | [], _, _ => []
  | n :: rest, l, code =>
    (List.range n).map (fun i => (l, code + i)) ++ canonicalCodes rest (l + 1) (2 * (code + n))

/-- Some length has more codes than its code space (41_control_commands.md R171). -/
def overSubscribed : List Nat → Nat → Nat → Bool
  | [], _, _ => false
  | n :: rest, l, code => decide (2 ^ l < code + n) || overSubscribed rest (l + 1) (2 * (code + n))

/-- Some symbol appears twice. -/
def hasDuplicate : List Byte → Bool
  | [] => false
  | x :: rest => rest.contains x || hasDuplicate rest

/-- BITS[1..16] of table `h`. -/
def htCounts (m : Memory) (h : Nat) : List Nat := (List.range 16).map (fun i => (m.htBits h (i + 1)).toNat)

/-- HUFFVAL[0..NSYM-1] of table `h`. -/
def htSymbols (m : Memory) (h : Nat) : List Byte := (List.range (m.htNsym h).toNat).map (m.htVal h)

/-- The derived table of table `h` (10_state.md R61): SIZE[j], CODE[j] and HUFFVAL[j] for j < NSYM. -/
def htTable (m : Memory) (h : Nat) : List Entry :=
  List.zipWith (fun c sym => ⟨c.1, c.2, sym⟩) (canonicalCodes (htCounts m h) 1 0) (htSymbols m h)

/-- The checks of 41_control_commands.md R172, (a) to (d) in order. -/
def checkTable (m : Memory) (h : Nat) : Except Raise Unit :=
  if (m.htNsym h).toNat = 0 ∨ (m.htNsym h).toNat > 256 then .error (.error .malformedTable 1#8)
  else if (htCounts m h).sum ≠ (m.htNsym h).toNat then .error (.error .malformedTable 2#8)
  else if overSubscribed (htCounts m h) 1 0 then .error (.error .malformedTable 3#8)
  else if hasDuplicate (htSymbols m h) then .error (.error .malformedTable 4#8)
  else .ok ()

end Sys2Proof.Machine
end

