-- ==== Sys2Proof/Machine/Bitstream.lean ====
section
/-! DEFINITION. The bitstream primitives of 42_huffman.md: the bit reader (R200–R215), symbol decoding (R216, R217), the bit
writer (R220–R222) and symbol encoding (R223–R225). Inside a command they act on private copies: a cursor for the reader, a bit
string for the writer. -/

namespace Sys2Proof.Machine

/-! ## The reader -/

/-- The reader's private cursor: RD_POS and RD_BIT (42_huffman.md R200). -/
structure Cursor where
  pos : Nat
  bit : Nat
deriving DecidableEq, Repr

/-- What the reader reads from: IBUF, RD_LEN and FIN (42_huffman.md R200). -/
structure Source where
  mem : Memory
  len : Nat
  fin : Bool
deriving DecidableEq, Repr

/-- The reader's source in a state. -/
def State.source (s : State) : Source := ⟨s.mem, s.rdLen.toNat, s.fin⟩

/-- The reader's cursor in a state. -/
def State.cursor (s : State) : Cursor := ⟨s.rdPos.toNat, s.rdBit.toNat⟩

/-- Committing the reader's cursor (42_huffman.md R200). -/
def State.withCursor (s : State) (c : Cursor) : State :=
  { s with rdPos := BitVec.ofNat 17 c.pos, rdBit := BitVec.ofNat 3 c.bit }

/-- EndOfData (42_huffman.md R212): TRUNCATED_STREAM/1 at the end of the stream, else a request for data. -/
def endOfData (src : Source) : Raise := if src.fin then .error .truncatedStream 1#8 else .needData

/-- The checks ReadBit makes before it takes a bit (42_huffman.md R210): a byte is there, and a 0xFF is followed by 0x00. -/
def checkByte (src : Source) (p : Nat) : Except Raise Unit :=
  if p ≥ src.len then .error (endOfData src)
  else if src.mem.ibuf p = 0xFF#8 then
    if p + 1 ≥ src.len then .error (endOfData src)
    else if src.mem.ibuf (p + 1) ≠ 0x00#8 then .error (.error .malformedStream 1#8)
    else .ok ()
  else .ok ()

/-- The cursor after the bit at `c` (42_huffman.md R210, R213): a finished 0xFF takes its stuffing byte with it. -/
def advance (src : Source) (c : Cursor) : Cursor :=
  if c.bit = 7 then ⟨c.pos + (if src.mem.ibuf c.pos = 0xFF#8 then 2 else 1), 0⟩ else ⟨c.pos, c.bit + 1⟩

/-- ReadBit (42_huffman.md R210, R211): the next bit, most significant first. -/
def readBit (src : Source) (c : Cursor) : Except Raise (Bool × Cursor) :=
  match checkByte src c.pos with
  | .error e => .error e
  | .ok () => .ok ((src.mem.ibuf c.pos).getLsbD (7 - c.bit), advance src c)

/-- ReadBits continued: `n` more bits after the value `v` (42_huffman.md R214). -/
def readBitsFrom (src : Source) : Nat → Nat → Cursor → Except Raise (Nat × Cursor)
  | 0, v, c => .ok (v, c)
  | n + 1, v, c =>
    match readBit src c with
    | .error e => .error e
    | .ok (b, c') => readBitsFrom src n (2 * v + b.toNat) c'

/-- ReadBits(n) (42_huffman.md R214). -/
def readBits (src : Source) (n : Nat) (c : Cursor) : Except Raise (Nat × Cursor) := readBitsFrom src n 0 c

/-- DecodeSym continued (42_huffman.md R216): up to `n` more bits after the `l`-bit code `code`. -/
def decodeSymFrom (tab : List Entry) (src : Source) : Nat → Nat → Nat → Cursor → Except Raise (Byte × Cursor)
  | 0, _, _, _ => .error (.error .invalidCode 1#8)
  | n + 1, l, code, c =>
    match readBit src c with
    | .error e => .error e
    | .ok (b, c') =>
      match tab.find? (fun e => e.size == l + 1 && e.code == 2 * code + b.toNat) with
      | some e => .ok (e.sym, c')
      | none => decodeSymFrom tab src n (l + 1) (2 * code + b.toNat) c'

/-- DecodeSym (42_huffman.md R216): at most 16 bits. -/
def decodeSym (tab : List Entry) (src : Source) (c : Cursor) : Except Raise (Byte × Cursor) :=
  decodeSymFrom tab src 16 0 0 c

/-- Extend (42_huffman.md R217): the signed value of `s` raw magnitude bits. -/
def extend (raw s : Nat) : Int :=
  if s = 0 then 0 else if raw < 2 ^ (s - 1) then (raw : Int) - (2 ^ s - 1) else raw

/-! ## The writer -/

/-- The value of a bit string, first bit most significant. -/
def bitsValue (bs : List Bool) : Nat := bs.foldl (fun v b => 2 * v + b.toNat) 0

/-- The `n` bits of `v`, most significant first: what WriteBits(v, n) appends (42_huffman.md R220). -/
def bitsOf (v : Nat) : Nat → List Bool
  | 0 => []
  | n + 1 => v.testBit n :: bitsOf v n

/-- The pending bit string (10_state.md R45): the WR_BIT low bits of WR_ACC, oldest first. -/
def State.pendingBits (s : State) : List Bool := bitsOf s.wrAcc.toNat s.wrBit.toNat

/-- The complete bytes at the front of a bit string, and the bits left (42_huffman.md R221). -/
def packBytes : List Bool → List Byte × List Bool
  | b7 :: b6 :: b5 :: b4 :: b3 :: b2 :: b1 :: b0 :: rest =>
    match packBytes rest with
    | (bytes, left) => (BitVec.ofNat 8 (bitsValue [b7, b6, b5, b4, b3, b2, b1, b0]) :: bytes, left)
  | rest => ([], rest)

/-- Byte stuffing (42_huffman.md R221): 0x00 after each 0xFF. -/
def stuff : List Byte → List Byte
  | [] => []
  | b :: rest => if b = 0xFF#8 then b :: 0x00#8 :: stuff rest else b :: stuff rest

/-- The bytes FlushOut forms from the bit string `bits`. -/
def outBytes (bits : List Bool) : List Byte := stuff (packBytes bits).1

/-- FlushOut (42_huffman.md R221, R222): the complete bytes of `bits`, stuffed, go to OBUF from WR_POS on if they all fit; the
rest stays pending. -/
def flushOut (s : State) (bits : List Bool) : Except Raise State :=
  if s.wrPos.toNat + (outBytes bits).length > s.params.obufBytes then .error .outFull
  else .ok { s with
    mem := s.mem.writeAll (obufStores s.wrPos.toNat (outBytes bits)),
    wrPos := BitVec.ofNat 17 (s.wrPos.toNat + (outBytes bits).length),
    wrBit := BitVec.ofNat 3 (packBytes bits).2.length,
    wrAcc := BitVec.ofNat 7 (bitsValue (packBytes bits).2) }

/-- Cat (42_huffman.md R223): the size category of an integer. -/
def cat (v : Int) : Nat := bitlen v.natAbs

/-- Mag (42_huffman.md R224): the raw bits, as a number, that encode `v` in `s` bits. -/
def mag (v : Int) (s : Nat) : Nat := if v > 0 then v.toNat else (v + 2 ^ s - 1).toNat

/-- EmitSym (42_huffman.md R225): the bits of the code of `sym`. -/
def emitSym (tab : List Entry) (sym : Byte) : Except Raise (List Bool) :=
  match tab.find? (fun e => e.sym == sym) with
  | some e => .ok (bitsOf e.code e.size)
  | none => .error (.error .invalidCode 2#8)

end Sys2Proof.Machine
end

