-- ==== Sys2Proof/Machine/Control.lean ====
section
/-! DEFINITION. The control, table-build and alignment commands: NOP, HT_BUILD, DC_RESET, BS_ALIGN_RD, BS_FLUSH_WR
(41_control_commands.md R170–R175). -/

namespace Sys2Proof.Machine

/-- NOP (R170). -/
def execNop (s : State) : Host.Outcome State Fault Refusal := finish .nop s (.ok s)

/-- The body of HT_BUILD (R172). -/
def htBuildBody (s : State) (h : Nat) : Except Raise State :=
  match checkTable s.mem h with
  | .error e => .error e
  | .ok () => .ok { s with htValid := setHtBit s.htValid h }

/-- HT_BUILD (R172). -/
def execHtBuild (cls : HtClass) (id : Nat) (s : State) : Host.Outcome State Fault Refusal :=
  finish .htBuild s (htBuildBody s (htIndex cls id))

/-- DC_RESET (R173). -/
def execDcReset (s : State) : Host.Outcome State Fault Refusal := finish .dcReset s (.ok { s with dcPred := DcPreds.zero })

/-- Where BS_ALIGN_RD leaves the reader (R174): past the current byte, and past the stuffing byte of a 0xFF. -/
def alignedPos (s : State) : Nat :=
  min (s.rdPos.toNat +
    (if s.rdPos.toNat < s.rdLen.toNat ∧ s.mem.ibuf s.rdPos.toNat = 0xFF#8 then 2 else 1)) s.params.ibufBytes

/-- The effect of BS_ALIGN_RD (R174). -/
def alignReader (s : State) : State := if s.rdBit ≠ 0#3 then s.withCursor ⟨alignedPos s, 0⟩ else s

/-- BS_ALIGN_RD (R174). -/
def execBsAlignRd (s : State) : Host.Outcome State Fault Refusal := finish .bsAlignRd s (.ok (alignReader s))

/-- The pending bits padded with 1-bits to a byte boundary (R175). -/
def paddedBits (s : State) : List Bool :=
  if s.wrBit ≠ 0#3 then s.pendingBits ++ bitsOf (2 ^ (8 - s.wrBit.toNat) - 1) (8 - s.wrBit.toNat) else s.pendingBits

/-- BS_FLUSH_WR (R175). -/
def execBsFlushWr (s : State) : Host.Outcome State Fault Refusal := finish .bsFlushWr s (flushOut s (paddedBits s))

end Sys2Proof.Machine
end

