-- ==== Sys2Proof/Machine/Huffman.lean ====
section
/-! DEFINITION. Huffman block coding: HDEC (42_huffman.md R230–R233) and HENC (R240). -/

namespace Sys2Proof.Machine

/-! ## HDEC -/

/-- The AC loop of HDEC (R230) from position `k` on, at most `n` symbols; each symbol moves `k` up, so 63 symbols reach the end
of the block from k = 1 (41_control_commands.md R176). -/
def decodeAc (tab : List Entry) (src : Source) : Nat → Nat → List Half → Cursor → Except Raise (List Half × Cursor)
  | 0, _, z, c => .ok (z, c)
  | n + 1, k, z, c =>
    if k > 63 then .ok (z, c)
    else
      match decodeSym tab src c with
      | .error e => .error e
      | .ok (rs, c1) =>
        let r := rs.toNat / 16
        let sz := rs.toNat % 16
        if sz = 0 then
          if r = 0 then .ok (z, c1)
          else if r = 15 then
            if k + 16 > 64 then .error (.error .malformedStream 4#8) else decodeAc tab src n (k + 16) z c1
          else .error (.error .malformedStream 3#8)
        else if sz > 10 then .error (.error .malformedStream 3#8)
        else if k + r > 63 then .error (.error .malformedStream 4#8)
        else
          match readBits src sz c1 with
          | .error e => .error e
          | .ok (raw, c2) => decodeAc tab src n (k + r + 1) (z.set (k + r) (wrap16 (extend raw sz))) c2

/-- The DC part of HDEC (R230, R232): the new DC value, predictor plus difference modulo 2^16. -/
def decodeDc (tab : List Entry) (src : Source) (pred : Half) (c : Cursor) : Except Raise (Half × Cursor) :=
  match decodeSym tab src c with
  | .error e => .error e
  | .ok (t, c1) =>
    if t.toNat > 11 then .error (.error .malformedStream 2#8)
    else
      match readBits src t.toNat c1 with
      | .error e => .error e
      | .ok (raw, c2) => .ok (wrap16 (pred.toInt + extend raw t.toNat), c2)

/-- One block (R230): the 64 values Z and the cursor after them. -/
def decodeBlock (dcTab acTab : List Entry) (src : Source) (pred : Half) (c : Cursor) :
    Except Raise (List Half × Cursor) :=
  match decodeDc dcTab src pred c with
  | .error e => .error e
  | .ok (dc, c1) => decodeAc acTab src 63 1 (dc :: List.replicate 63 0#16) c1

/-- Committing a decoded block (R230): COEF[slot], DC_PRED[comp] and the cursor. -/
def storeBlock (s : State) (slot comp : Nat) (z : List Half) (c : Cursor) : State :=
  { s.withCursor c with
    mem := s.mem.writeAll (coefStores slot z), dcPred := s.dcPred.set comp (z.getD 0 0#16) }

/-- The body of HDEC (R230): the slot check, the table precondition (R231), then the block. -/
def hdecBody (slot comp dct act : Nat) (s : State) : Except Raise State :=
  match checkSlot slot with
  | .error e => .error e
  | .ok () =>
    match checkTables s dct act with
    | .error e => .error e
    | .ok () =>
      match decodeBlock (htTable s.mem (dcTableIndex dct)) (htTable s.mem (acTableIndex act)) s.source
          (s.dcPred.get comp) s.cursor with
      | .error e => .error e
      | .ok (z, c) => .ok (storeBlock s slot comp z c)

/-- HDEC (R230). -/
def execHdec (slot comp dct act : Nat) (s : State) : Host.Outcome State Fault Refusal :=
  finish .hdec s (hdecBody slot comp dct act s)

/-! ## HENC -/

/-- `n` ZRL codes (R240). -/
def emitZrls (tab : List Entry) : Nat → Except Raise (List Bool)
  | 0 => .ok []
  | n + 1 =>
    match emitSym tab 0xF0#8 with
    | .error e => .error e
    | .ok zrl =>
      match emitZrls tab n with
      | .error e => .error e
      | .ok rest => .ok (zrl ++ rest)

/-- One nonzero AC coefficient after a run of `r` zeros (R240): a ZRL for each full sixteen, then the category check, then its
symbol and its magnitude bits. -/
def emitAc (tab : List Entry) (r : Nat) (v : Int) : Except Raise (List Bool) :=
  match emitZrls tab (r / 16) with
  | .error e => .error e
  | .ok zrls =>
    if cat v > 10 then .error (.error .invalidArgument 3#8)
    else
      match emitSym tab (BitVec.ofNat 8 (16 * (r % 16) + cat v)) with
      | .error e => .error e
      | .ok code => .ok (zrls ++ code ++ bitsOf (mag v (cat v)) (cat v))

/-- The AC coefficients from the next one on, after a run of `r` zeros (R240); a trailing run gives one EOB. -/
def encodeAc (tab : List Entry) : List Half → Nat → Except Raise (List Bool)
  | [], r => if r > 0 then emitSym tab 0x00#8 else .ok []
  | z :: rest, r =>
    if z = 0#16 then encodeAc tab rest (r + 1)
    else
      match emitAc tab r z.toInt with
      | .error e => .error e
      | .ok bits =>
        match encodeAc tab rest 0 with
        | .error e => .error e
        | .ok more => .ok (bits ++ more)

/-- The DC difference (R240), exact, without wrap. -/
def encodeDc (tab : List Entry) (diff : Int) : Except Raise (List Bool) :=
  if cat diff > 11 then .error (.error .invalidArgument 2#8)
  else
    match emitSym tab (BitVec.ofNat 8 (cat diff)) with
    | .error e => .error e
    | .ok code => .ok (code ++ bitsOf (mag diff (cat diff)) (cat diff))

/-- The bits of one block (R240). -/
def encodeBlock (dcTab acTab : List Entry) (pred : Half) (z : List Half) : Except Raise (List Bool) :=
  match encodeDc dcTab ((z.getD 0 0#16).toInt - pred.toInt) with
  | .error e => .error e
  | .ok dc =>
    match encodeAc acTab (z.drop 1) 0 with
    | .error e => .error e
    | .ok ac => .ok (dc ++ ac)

/-- The body of HENC (R240): the slot check, the table precondition (R231), the block's bits after the pending ones, FlushOut,
the new predictor. -/
def hencBody (slot comp dct act : Nat) (s : State) : Except Raise State :=
  match checkSlot slot with
  | .error e => .error e
  | .ok () =>
    match checkTables s dct act with
    | .error e => .error e
    | .ok () =>
      match encodeBlock (htTable s.mem (dcTableIndex dct)) (htTable s.mem (acTableIndex act)) (s.dcPred.get comp)
          (s.mem.coefBlock slot) with
      | .error e => .error e
      | .ok bits =>
        match flushOut s (s.pendingBits ++ bits) with
        | .error e => .error e
        | .ok t => .ok { t with dcPred := t.dcPred.set comp (s.mem.coef slot 0) }

/-- HENC (R240). -/
def execHenc (slot comp dct act : Nat) (s : State) : Host.Outcome State Fault Refusal :=
  finish .henc s (hencBody slot comp dct act s)

end Sys2Proof.Machine
end

