-- ==== Sys2Proof/Machine/Transform.lean ====
section
/-! DEFINITION. The block transform commands IDCT and FDCT (43_transform.md R260–R268). The transforms are separable: eight 1-D
passes along rows, then eight along columns (R262), on exact sums of cosines (log 8). -/

namespace Sys2Proof.Machine

/-! ## Exact transforms -/

/-- The pass along rows of the inverse transform: entry 8v + x is Σ_u D[8v+u] · 2C(u)cos((2x+1)uπ/16). -/
def idctRows (d : List Int) : List CosSum :=
  (List.range 64).map fun n =>
    (List.range 8).foldl (fun a u => a.addTerm (d.getD (8 * (n / 8) + u) 0) (angle (n % 8) u)) CosSum.zero

/-- The pass along columns: entry 8y + x is 16 · IDCT_ref(D)[8y+x] (R262). -/
def idctColumns (rows : List CosSum) : List CosSum :=
  (List.range 64).map fun n =>
    (List.range 8).foldl (fun a v => a.addScaled (rows.getD (8 * v + n % 8) CosSum.zero) (angle (n / 8) v)) CosSum.zero

/-- 16 · IDCT_ref(D), natural order (R262). -/
def idct16 (d : List Int) : List CosSum := idctColumns (idctRows d)

/-- The pass along rows of the forward transform: entry 8y + u is Σ_x g[8y+x] · 2C(u)cos((2x+1)uπ/16). -/
def fdctRows (g : List Int) : List CosSum :=
  (List.range 64).map fun n =>
    (List.range 8).foldl (fun a x => a.addTerm (g.getD (8 * (n / 8) + x) 0) (angle x (n % 8))) CosSum.zero

/-- The pass along columns: entry 8v + u is 16 · FDCT_ref(g)[8v+u] (R262). -/
def fdctColumns (rows : List CosSum) : List CosSum :=
  (List.range 64).map fun n =>
    (List.range 8).foldl (fun a y => a.addScaled (rows.getD (8 * y + n % 8) CosSum.zero) (angle y (n / 8))) CosSum.zero

/-- 16 · FDCT_ref(g), natural order (R262). -/
def fdct16 (g : List Int) : List CosSum := fdctColumns (fdctRows g)

/-! ## IDCT -/

/-- Dequantization and inverse zig-zag (R263, R265): D[ZZ[k]] = COEF[s][k] · QT[q][k], exact. -/
def dequantize (m : Memory) (slot q : Nat) : List Int :=
  (List.range 64).map fun n => (m.coef slot (izz n)).toInt * ((m.qt q (izz n)).toNat : Int)

/-- The samples under EXACT (R263): clamp(rnd(f) + 128, 0, 255). -/
def idctExact (d : List Int) : List Byte := (idct16 d).map fun f => clampByte (f.toQuad.rndDiv 16 + 128)

/-- The samples IDCT writes: exact (R262) or by the supplied function (R268, log 7). -/
def idctSamples (t : TransformModel) (d : List Int) : List Byte :=
  match t with
  | .exact => idctExact d
  | .supplied => (List.range 64).map (Config.idctImpl d)

/-- The body of IDCT (R263). -/
def idctBody (slot q : Nat) (s : State) : Except Raise State :=
  match checkSlot slot with
  | .error e => .error e
  | .ok () =>
    match checkQt s.mem q with
    | .error e => .error e
    | .ok () =>
      .ok { s with mem := s.mem.writeAll (smpStores slot (idctSamples s.params.transform (dequantize s.mem slot q))) }

/-- IDCT (R263). -/
def execIdct (slot qt : Nat) (s : State) : Host.Outcome State Fault Refusal := finish .idct s (idctBody slot qt s)

/-! ## FDCT -/

/-- The level shift (R264): g[i] = SMP[s][i] - 128. -/
def levelShift (m : Memory) (slot : Nat) : List Int := (m.smpBlock slot).map fun b => (b.toNat : Int) - 128

/-- Zig-zag and quantization, the same in every transform model (R264, R266, R268): rnd(F[ZZ[k]] / QT[q][k]) at each zig-zag
position `k`, one rounding; `quotient n d` is rnd(F[n] / d). -/
def quantize (quotient : Nat → Nat → Int) (q : List Half) : List Half :=
  (List.range 64).map fun k => wrap16 (quotient (zz k) (q.getD k 0#16).toNat)

/-- rnd(F[n] / d) of the exact transform (R262); `f` is 16 · F. -/
def exactQuotient (f : List CosSum) (n d : Nat) : Int := (f.getD n CosSum.zero).toQuad.rndDiv (16 * d)

/-- rnd(F[n] / d) of the supplied transform (R268, log 7). -/
def suppliedQuotient (g : List Int) (q : List Half) (n d : Nat) : Int :=
  rndDiv (Config.fdctTransform g q n).num ((Config.fdctTransform g q n).den * d)

/-- The coefficients under EXACT (R264, R266), zig-zag order. -/
def fdctExact (g : List Int) (q : List Half) : List Half := quantize (exactQuotient (fdct16 g)) q

/-- FDCT_impl (R268): from the samples, level-shifted, and a table to 64 s16 values, zig-zag order. -/
def fdctSupplied (g : List Int) (q : List Half) : List Half := quantize (suppliedQuotient g q) q

/-- The coefficients FDCT writes: by the exact transform (R262) or the supplied one (R268, log 7). -/
def fdctCoefs (t : TransformModel) (g : List Int) (q : List Half) : List Half :=
  match t with
  | .exact => fdctExact g q
  | .supplied => fdctSupplied g q

/-- The body of FDCT (R264). -/
def fdctBody (slot q : Nat) (s : State) : Except Raise State :=
  match checkSlot slot with
  | .error e => .error e
  | .ok () =>
    match checkQt s.mem q with
    | .error e => .error e
    | .ok () =>
      .ok { s with
        mem := s.mem.writeAll
          (coefStores slot (fdctCoefs s.params.transform (levelShift s.mem slot) (s.mem.qtTable q))) }

/-- FDCT (R264). -/
def execFdct (slot qt : Nat) (s : State) : Host.Outcome State Fault Refusal := finish .fdct s (fdctBody slot qt s)

end Sys2Proof.Machine
end

