-- ==== Sys2Proof/Machine/Dispatch.lean ====
section
/-! DEFINITION. One arm per command: the engine step of a decoded command (60_exceptions.md R351). -/

namespace Sys2Proof.Machine

def exec (i : Instr) (s : State) : Host.Outcome State Fault Refusal :=
  match i with
  | .nop => Sys2Proof.Machine.execNop s
  | .htBuild cls id => Sys2Proof.Machine.execHtBuild cls id s
  | .dcReset => Sys2Proof.Machine.execDcReset s
  | .bsAlignRd => Sys2Proof.Machine.execBsAlignRd s
  | .bsFlushWr => Sys2Proof.Machine.execBsFlushWr s
  | .hdec slot comp dct act => Sys2Proof.Machine.execHdec slot comp dct act s
  | .henc slot comp dct act => Sys2Proof.Machine.execHenc slot comp dct act s
  | .idct slot qt => Sys2Proof.Machine.execIdct slot qt s
  | .fdct slot qt => Sys2Proof.Machine.execFdct slot qt s
  | .cscInv yhm1 yvm1 chm1 cvm1 => Sys2Proof.Machine.execCscInv yhm1 yvm1 chm1 cvm1 s
  | .cscFwd yhm1 yvm1 chm1 cvm1 => Sys2Proof.Machine.execCscFwd yhm1 yvm1 chm1 cvm1 s

end Sys2Proof.Machine
end

