-- ==== Sys2Proof/Machine/HostAccess.lean ====
section
/-! DEFINITION. Host accesses to the register window (20_memory.md R80–R87, 40_host_access.md R141–R149): the address map, the
value of a read, the effect of a write, and the bus errors. -/

namespace Sys2Proof.Machine

/-- What an aligned window offset is (20_memory.md R83, 10_state.md R32). -/
inductive Loc where
  | id | config | ctrl | cmd | status | errcode | htValid
  | rdPos | rdBit | rdLen | wrPos | wrBit | wrAcc
  | dcPred (c : Nat)
  | qt
  | htByte (h : Nat)
  | htNsym (h : Nat)
  | coef | smp | pix | ibuf | obuf
  | reserved
deriving DecidableEq, Repr

/-- The registers (10_state.md R32). -/
def locateRegister (off : Nat) : Loc :=
  match off with
  | 0x00 => .id
  | 0x04 => .config
  | 0x08 => .ctrl
  | 0x0C => .cmd
  | 0x10 => .status
  | 0x14 => .errcode
  | 0x18 => .htValid
  | 0x20 => .rdPos
  | 0x24 => .rdBit
  | 0x28 => .rdLen
  | 0x30 => .wrPos
  | 0x34 => .wrBit
  | 0x38 => .wrAcc
  | 0x40 => .dcPred 0
  | 0x44 => .dcPred 1
  | 0x48 => .dcPred 2
  | 0x4C => .dcPred 3
  | _ => .reserved

/-- A word of the Huffman regions, `o` its offset from 0x2000 (10_state.md R51): words 0..271 hold bytes, word 272 NSYM. -/
def locateHt (o : Nat) : Loc :=
  if o % 0x800 / 4 < 272 then .htByte (o / 0x800)
  else if o % 0x800 / 4 = 272 then .htNsym (o / 0x800)
  else .reserved

/-- The address map of 20_memory.md R83, for an aligned offset. -/
def locate (p : Params) (off : Nat) : Loc :=
  if off < 0x1000 then locateRegister off
  else if off < 0x1400 then .qt
  else if off < 0x2000 then .reserved
  else if off < 0x6000 then locateHt (off - 0x2000)
  else if off < 0x6600 then .coef
  else if off < 0x6800 then .reserved
  else if off < 0x6E00 then .smp
  else if off < 0x7000 then .reserved
  else if off < 0x7C00 then .pix
  else if off < 0x10000 then .reserved
  else if off < 0x10000 + p.ibufBytes then .ibuf
  else if off < 0x20000 then .reserved
  else if off < 0x20000 + p.obufBytes then .obuf
  else .reserved

/-- Protected state for a host read (40_host_access.md R143, 10_state.md R32): HT_VALID, the cursors, the predictors and every
memory. -/
def Loc.protectedRead : Loc → Bool
  | .htValid | .rdPos | .rdBit | .rdLen | .wrPos | .wrBit | .wrAcc | .dcPred _ => true
  | .qt | .htByte _ | .htNsym _ | .coef | .smp | .pix | .ibuf | .obuf => true
  | .id | .config | .ctrl | .cmd | .status | .errcode | .reserved => false

/-- The value of the register or memory word at offset `off` (10_state.md R33–R58); reserved offsets and CMD read 0
(20_memory.md R84, 40_host_access.md R144). -/
def wordAt (s : State) (off : Nat) : Loc → Word
  | .id => idWord
  | .config => configWord s.params
  | .ctrl => ctrlWord s.ctrl
  | .cmd => 0#32
  | .status => statusWord s.busy s.status
  | .errcode => s.errcode
  | .htValid => s.htValid.setWidth 32
  | .rdPos => s.rdPos.setWidth 32
  | .rdBit => s.rdBit.setWidth 32
  | .rdLen => s.rdLen.setWidth 32
  | .wrPos => s.wrPos.setWidth 32
  | .wrBit => s.wrBit.setWidth 32
  | .wrAcc => s.wrAcc.setWidth 32
  | .dcPred c => (s.dcPred.get c).signExtend 32
  | .qt => (s.mem.read16 off).setWidth 32
  | .htByte _ => (s.mem.read off).setWidth 32
  | .htNsym _ => (s.mem.read9 off).setWidth 32
  | .coef => (s.mem.read16 off).signExtend 32
  | .smp => (s.mem.read off).setWidth 32
  | .pix => (s.mem.read off).setWidth 32
  | .ibuf => s.mem.read32 off
  | .obuf => s.mem.read32 off
  | .reserved => 0#32

/-- MemRead of the word at offset `off` (40_host_access.md R141): the datum returned, and the state with it. A protected read
while BUSY returns a fresh unspecified value (R143, log 3). -/
def hostRead (s : State) (off : Nat) : State :=
  if (locate s.params off).protectedRead && s.busy then
    { s with responses := Config.busyRead s.draws :: s.responses, draws := s.draws + 1 }
  else
    { s with responses := wordAt s off (locate s.params off) :: s.responses }

/-- Storing `v` in the protected register or memory word at offset `off` while idle (10_state.md R40–R58). -/
def storeAt (s : State) (off : Nat) (v : Word) : Loc → State
  | .rdPos => { s with rdPos := clampPos v s.params.ibufBytes }
  | .rdBit => { s with rdBit := v.extractLsb' 0 3 }
  | .rdLen => { s with rdLen := clampPos v s.params.ibufBytes }
  | .wrPos => { s with wrPos := clampPos v s.params.obufBytes }
  | .wrBit => { s with wrBit := v.extractLsb' 0 3 }
  | .wrAcc => { s with wrAcc := v.extractLsb' 0 7 }
  | .dcPred c => { s with dcPred := s.dcPred.set c (v.extractLsb' 0 16) }
  | .qt => { s with mem := s.mem.writeAll (stores16 off (v.extractLsb' 0 16)) }
  | .htByte h => { s with mem := s.mem.write off (v.extractLsb' 0 8), htValid := clearHtBit s.htValid h }
  | .htNsym h =>
    { s with mem := s.mem.writeAll (stores9 off (v.extractLsb' 0 9)), htValid := clearHtBit s.htValid h }
  | .coef => { s with mem := s.mem.writeAll (stores16 off (v.extractLsb' 0 16)) }
  | .smp => { s with mem := s.mem.write off (v.extractLsb' 0 8) }
  | .pix => { s with mem := s.mem.write off (v.extractLsb' 0 8) }
  | .ibuf => { s with mem := s.mem.writeAll (stores32 off v) }
  | .obuf => { s with mem := s.mem.writeAll (stores32 off v) }
  | .id | .config | .ctrl | .cmd | .status | .errcode | .htValid | .reserved => s

/-- A host write to protected state (40_host_access.md R142, R143): dropped with ACC_DROPPED while BUSY, else stored. -/
def writeProtected (s : State) (off : Nat) (v : Word) (l : Loc) : State :=
  if s.busy then { s with status := { s.status with accDropped := true } } else storeAt s off v l

/-- MemWrite of `v` to the word at offset `off` (40_host_access.md R142). -/
def hostWrite (s : State) (off : Nat) (v : Word) : State :=
  match locate s.params off with
  | .reserved => s
  | .ctrl => writeCtrl s v
  | .cmd => offerCommand s v
  | .status => { s with status := s.status.writeOneToClear v }
  | .id | .config | .errcode => s
  | .htValid => s
  | l => writeProtected s off v l

/-- The window accepts an access (20_memory.md R85, 40_host_access.md R149): four bytes, aligned, inside the window. -/
def accepted (p : Params) (addr bytes : Nat) : Bool :=
  bytes == 4 && addr % 4 == 0 && (p.base ≤ addr && addr ≤ p.base + 0x2FFFF)

/-- STATUS.BUSY as WAIT polls it leaves the host waiting: the poll is a read of STATUS, without side effect
(00_scope.md R15, 20_memory.md R87). -/
def keepWaiting (s : State) : Bool := s.busy

/-- One host step (40_host_access.md R140(a)): the oldest pending input takes effect. A bus access the window does not accept
faults, and the run stops there. With nothing pending the host does nothing (log 10). -/
def hostStep (s : State) : Host.Outcome State Fault Refusal :=
  match s.inputs with
  | [] => .next s
  | .read addr bytes :: rest =>
    if accepted s.params addr bytes then .next (hostRead { s with inputs := rest } (addr - s.params.base))
    else .fault (.busError addr bytes)
  | .write addr bytes v :: rest =>
    if accepted s.params addr bytes then .next (hostWrite { s with inputs := rest } (addr - s.params.base) v)
    else .fault (.busError addr bytes)
  | .wait :: rest => .next (if keepWaiting s then s else { s with inputs := rest })
  | .powerOnReset :: rest => .next (powerOn { s with inputs := rest })

end Sys2Proof.Machine
end

