-- ==== Sys2Proof/Machine/Fetch.lean ====
section
/-! DEFINITION. How a step finds what to run: whose turn it is (40_host_access.md R140), and the latched command word the engine
decodes (10_state.md R60, 60_exceptions.md R351). The block fetches no instructions (10_state.md R31). -/

namespace Sys2Proof.Machine

/-- Whose turn it is (R140, log 4): the schedule's first entry; when the schedule is used up, the engine if it is busy, else
the host. -/
def turnOf (s : State) : Agent :=
  match s.schedule with
  | a :: _ => a
  | [] => if s.busy then .engine else .host

/-- The state once the turn is taken. -/
def takeTurn (s : State) : State := { s with schedule := s.schedule.tail }

/-- The error of a word that is no command (30_encoding.md R119). -/
def rejectDetail : Reject → Byte
  | .undefinedOp => 1#8
  | .reservedBit => 2#8

/-- The engine step of a word that is no command (30_encoding.md R119, 60_exceptions.md R352): ILLEGAL_COMMAND, OP being
CW[7:0]. -/
def illegalCommand (cw : Word) (r : Reject) (s : State) : State :=
  complete (opField cw) s (.error (.error .illegalCommand (rejectDetail r)))

/-- A command word of `nbits` bits, the bits above 0. -/
def tableWord (nbits w : Nat) : Word := BitVec.ofNat 32 (w % 2 ^ nbits)

/-- The state in which the engine has accepted the word `cw` and moves next (log 9). -/
def placeCommand (s : State) (cw : Word) : State := { accept s cw with schedule := .engine :: s.schedule }

end Sys2Proof.Machine
end

