-- ==== Sys2Proof/Machine/Step.lean ====
section
/-! DEFINITION. One step of the block (40_host_access.md R140): a host step or an engine step. -/

namespace Sys2Proof.Machine

/-- The engine step (60_exceptions.md R351): decode the latched word and run it; a word that is no command ends in
ILLEGAL_COMMAND. An idle engine has no step (log 10). -/
def engineStep (s : State) : Host.Outcome State Fault Refusal :=
  match s.latch with
  | none => .next s
  | some l =>
    match decode l.cw with
    | .ok i => exec i s
    | .error r => .next (illegalCommand l.cw r s)

/-- One step: the agent whose turn it is moves (40_host_access.md R140, log 4). -/
def step (s : State) : Host.Outcome State Fault Refusal :=
  match turnOf s with
  | .engine => engineStep (takeTurn s)
  | .host => hostStep (takeTurn s)

/-- `s` with the command word `w` accepted and the engine to move next: step (s.withFetchWord nbits w) runs exactly it
(log 9). -/
def State.withFetchWord (s : State) (nbits w : Nat) : State := placeCommand s (tableWord nbits w)

end Sys2Proof.Machine
end

