-- ==== Sys2Proof/Machine/HostSoftware.lean ====
section
/-! DEFINITION. Host software beside the block (48_host_software.md, 30_encoding.md R122, 00_scope.md R15): the host program
notation and its macros as pending inputs, and the quantization table generator. Nothing here is hardware, and no step of the
machine uses it (log 18). -/

namespace Sys2Proof.Machine

/-! ## Notation (00_scope.md R15) -/

/-- `RD off`. -/
def rd (p : Params) (off : Nat) : Input := .read (p.base + off) 4

/-- `WR off, v`. -/
def wr (p : Params) (off : Nat) (v : Word) : Input := .write (p.base + off) 4 v

/-- `CMD op fields`. -/
def cmd (p : Params) (i : Instr) : Input := wr p 0x000C (encode i)

/-! ## Macros (30_encoding.md R122) -/

/-- `BLKDEC s, c, dc, ac, q`. -/
def blkDec (p : Params) (s c dc ac q : Nat) : List Input :=
  [cmd p (.hdec s c dc ac), .wait, cmd p (.idct s q), .wait]

/-- `BLKENC s, c, dc, ac, q`. -/
def blkEnc (p : Params) (s c dc ac q : Nat) : List Input :=
  [cmd p (.fdct s q), .wait, cmd p (.henc s c dc ac), .wait]

/-- Writes of consecutive words from offset `off` on. -/
def wrWords (p : Params) : Nat → List Word → List Input
  | _, [] => []
  | off, v :: rest => wr p off v :: wrWords p (off + 4) rest

/-- `HTLOAD h, bits[16], vals[n]`. -/
def htLoad (p : Params) (h : Nat) (bits vals : List Byte) : List Input :=
  wrWords p (htBitsAddr h 1) (bits.map (·.setWidth 32)) ++ wrWords p (htValAddr h 0) (vals.map (·.setWidth 32)) ++
  [wr p (htNsymAddr h) (BitVec.ofNat 32 vals.length),
   cmd p (.htBuild (classOfBit (h / 4)) (h % 4)), .wait]

/-! ## Quantization table generator (48_host_software.md R331–R334) -/

/-- scale(q) (R331). -/
def qualityScale (q : Nat) : Nat := if q < 50 then 5000 / q else 200 - 2 * q

/-- A table entry from the base entry `b` (R332). -/
def qualityEntry (q b : Nat) : Nat := min (max ((b * qualityScale q + 50) / 100) 1) 255

/-- The luminance base table, natural order (R334). -/
def lumaBase : List Nat :=
  [16, 11, 10, 16,  24,  40,  51,  61, 12, 12, 14, 19,  26,  58,  60,  55] ++
  [14, 13, 16, 24,  40,  57,  69,  56, 14, 17, 22, 29,  51,  87,  80,  62] ++
  [18, 22, 37, 56,  68, 109, 103,  77, 24, 35, 55, 64,  81, 104, 113,  92] ++
  [49, 64, 78, 87, 103, 121, 120, 101, 72, 92, 95, 98, 112, 100, 103,  99]

/-- The chrominance base table, natural order (R334). -/
def chromaBase : List Nat :=
  [17, 18, 24, 47, 99, 99, 99, 99, 18, 21, 26, 66, 99, 99, 99, 99] ++
  [24, 26, 56, 99, 99, 99, 99, 99, 47, 66, 99, 99, 99, 99, 99, 99] ++
  List.replicate 32 99

/-- The table of quality `q` in zig-zag order (R334); none where the generator fails with InvalidArgumentError (R333). -/
def generateTable (base : List Nat) (q : Nat) : Option (List Half) :=
  if q = 0 ∨ q > 100 then none
  else some ((List.range 64).map fun k => BitVec.ofNat 16 (qualityEntry q (base.getD (zz k) 0)))

end Sys2Proof.Machine
end

