-- ==== Sys2Proof/Safety.lean ====
section
/-! DEFINITION. What counts as a good state of the block, in the terms claims use: the invariant every step keeps, the states a
run reaches, and what it means that a command left the data alone. -/

namespace Sys2Proof.Machine

/-- The cursors lie inside their buffers (10_state.md R40, R42, R43). -/
def State.cursorsInside (s : State) : Bool :=
  s.rdPos.toNat ≤ s.params.ibufBytes && s.rdLen.toNat ≤ s.params.ibufBytes && s.wrPos.toNat ≤ s.params.obufBytes

/-- Every table HT_VALID calls built passes the checks of HT_BUILD now (10_state.md R39, R61; 20_memory.md R95). -/
def State.tablesCoherent (s : State) : Prop :=
  ∀ h < 8, htBit s.htValid h = true → checkTable s.mem h = .ok ()

/-- While a command runs no completion flag is set: acceptance needs ERR = 0 and clears the other three (40_host_access.md R146,
60_exceptions.md R371). -/
def State.flagsQuiet (s : State) : Bool :=
  !s.busy || (!s.status.done && !s.status.err && !s.status.needData && !s.status.outFull)

/-- Bits [31:24] of ERRCODE are 0 (10_state.md R38). -/
def State.errcodeReserved (s : State) : Bool := s.errcode.extractLsb' 24 8 == 0#8

/-- The invariant of the block. -/
structure State.Inv (s : State) : Prop where
  legal : s.params.legal = true
  memory : s.mem.wf = true
  cursors : s.cursorsInside = true
  tables : s.tablesCoherent
  flags : s.flagsQuiet = true
  errcode : s.errcodeReserved = true

/-- The states a run reaches from `s`. -/
inductive ReachableFrom (s : State) : State → Prop where
  | start : ReachableFrom s s
  | more {t u : State} : ReachableFrom s t → step t = .next u → ReachableFrom s u

/-- A step that faults, the only way a run stops (20_memory.md R85). -/
def faults (s : State) : Prop := ∃ r, step s = .fault r

/-! ## References in the reals -/

/-- rnd of a real (00_scope.md R12): to the nearest integer, ties away from zero. -/
noncomputable def rndReal (v : ℝ) : ℤ := if 0 ≤ v then ⌊v + 1 / 2⌋ else -⌊-v + 1 / 2⌋

/-- clamp(v, 0, 255) (00_scope.md R11). -/
def clamp255 (v : ℤ) : ℤ := min (max v 0) 255

/-- C(0) = 1/√2, C(w) = 1 for w = 1..7 (43_transform.md R262). -/
noncomputable def dctC (w : Nat) : ℝ := if w = 0 then 1 / √2 else 1

/-- IDCT_ref(D)[8y+x] (43_transform.md R262). -/
noncomputable def idctRef (d : Nat → ℤ) (x y : Nat) : ℝ :=
  1 / 4 * ∑ u ∈ Finset.range 8, ∑ v ∈ Finset.range 8,
    dctC u * dctC v * d (8 * v + u) * Real.cos ((2 * x + 1) * u * Real.pi / 16) *
      Real.cos ((2 * y + 1) * v * Real.pi / 16)

/-- FDCT_ref(g)[8v+u] (43_transform.md R262). -/
noncomputable def fdctRef (g : Nat → ℤ) (u v : Nat) : ℝ :=
  1 / 4 * dctC u * dctC v * ∑ x ∈ Finset.range 8, ∑ y ∈ Finset.range 8,
    g (8 * y + x) * Real.cos ((2 * x + 1) * u * Real.pi / 16) * Real.cos ((2 * y + 1) * v * Real.pi / 16)

/-! ## The reader's stream -/

/-- The next `n` bits of the entropy-coded stream at the cursor, one ReadBit each (42_huffman.md R210), and the cursor after
them. -/
def takeBits (src : Source) : Nat → Cursor → Except Raise (List Bool × Cursor)
  | 0, c => .ok ([], c)
  | n + 1, c =>
    match readBit src c with
    | .error e => .error e
    | .ok (b, c1) =>
      match takeBits src n c1 with
      | .error e => .error e
      | .ok (bs, c2) => .ok (b :: bs, c2)

end Sys2Proof.Machine
end

