-- ==== Sys2Proof/Certificates/Slice0/Obligations.lean ====
section
/-! DEFINITION. The statements about the model, from the numbered rules of spec/. -/

namespace Sys2Proof.Claims

open Sys2Proof.Machine

/-! ## Words used by the statements -/

/-- `s` after a command that only completed: BUSY 0, DONE 1 (60_exceptions.md R351). -/
def doneState (s : State) : State := { s with latch := none, status := { s.status with done := true } }

/-- `s` after a command with opcode `op` that raised the error of code `e`, detail `d` (60_exceptions.md R352). -/
def errorState (s : State) (op e d : Byte) : State :=
  { s with latch := none, errcode := 0#8 ++ op ++ d ++ e, status := { s.status with err := true } }

/-- `s` after a command that asked for data (60_exceptions.md R354). -/
def needDataState (s : State) : State := { s with latch := none, status := { s.status with needData := true } }

/-- `s` after a command whose output did not fit (60_exceptions.md R355). -/
def outFullState (s : State) : State := { s with latch := none, status := { s.status with outFull := true } }

/-- `s` with the turn taken: only the schedule moves on. -/
def afterTurn (s : State) : State := { s with schedule := s.schedule.tail }

/-- Opcode and reserved bits of every command of 30_encoding.md R118 and R111. -/
def opcodeRows : List (Nat × Word) :=
  [(0x00, 0xFFFFFF00#32), (0x01, 0xFFFFCE00#32), (0x02, 0xFFFFFF00#32), (0x08, 0xFFFFFF00#32), (0x09, 0xFFFFFF00#32),
   (0x10, 0xFFCCC800#32), (0x11, 0xFFCCC800#32), (0x20, 0xFFFCF800#32), (0x21, 0xFFFCF800#32), (0x30, 0xFFFF0000#32),
   (0x31, 0xFFFF0000#32)]

/-- CODE and DETAIL of the errors each command may raise once decoded (60_exceptions.md R350). -/
def listedErrors : Op → List (Byte × Byte)
  | .nop | .dcReset | .bsAlignRd | .bsFlushWr => []
  | .htBuild => [(2#8, 1#8), (2#8, 2#8), (2#8, 3#8), (2#8, 4#8)]
  | .hdec => [(1#8, 1#8), (2#8, 5#8), (3#8, 1#8), (3#8, 2#8), (3#8, 3#8), (3#8, 4#8), (4#8, 1#8), (6#8, 1#8)]
  | .henc => [(2#8, 5#8), (4#8, 2#8), (6#8, 1#8), (6#8, 2#8), (6#8, 3#8)]
  | .idct | .fdct => [(2#8, 6#8), (6#8, 1#8)]
  | .cscInv | .cscFwd => [(5#8, 1#8)]

/-- `bits` are the next bits of the stream of `s`, and `c` is the cursor after them (42_huffman.md R210, R211). -/
def NextBits (s : State) (bits : List Bool) (c : Cursor) : Prop := takeBits s.source bits.length s.cursor = .ok (bits, c)

/-- No code of `tab` is a beginning of `bits`. -/
def NoCode (tab : List Entry) (bits : List Bool) : Prop :=
  ∀ e ∈ tab, e.size ≤ bits.length → bits.take e.size ≠ bitsOf e.code e.size

/-- The reader of an HDEC in `s` needs the bit at `c` and cannot have it; the command then ends in `t` (42_huffman.md R210, R212,
R215). The byte, or the one that must follow a 0xFF, lies at or past RD_LEN: TRUNCATED_STREAM/1, or NEED_DATA while FIN = 0. The byte
is a marker's 0xFF: MALFORMED_STREAM/1. -/
def ReaderStops (s : State) (c : Cursor) (t : State) : Prop :=
  ((s.rdLen.toNat ≤ c.pos ∨ (s.mem.ibuf c.pos = 0xFF#8 ∧ s.rdLen.toNat ≤ c.pos + 1)) ∧
    t = if s.fin then errorState s 0x10#8 1#8 1#8 else needDataState s) ∨
  (c.pos + 1 < s.rdLen.toNat ∧ s.mem.ibuf c.pos = 0xFF#8 ∧ s.mem.ibuf (c.pos + 1) ≠ 0x00#8 ∧
    t = errorState s 0x10#8 3#8 1#8)

/-- How an HDEC with the outcome `out` ends when the bits `front` come next and the symbol after them, of table `tab`, cannot be
read: a reader stop before a code is complete is the outcome; sixteen bits without a code raise INVALID_CODE/1 (42_huffman.md
R216). -/
def SymbolStops (s : State) (tab : List Entry) (front : List Bool) (out : Host.Outcome State Fault Refusal) : Prop :=
  ∀ bits c, NextBits s (front ++ bits) c → NoCode tab bits →
    (bits.length < 16 → ∀ t, ReaderStops s c t → out = .next t) ∧
    (bits.length = 16 → out = .next (errorState s 0x10#8 4#8 1#8))

/-- The same for `n` magnitude bits after `front`: a reader stop before the last of them is the outcome (42_huffman.md R214). -/
def MagnitudeStops (s : State) (n : Nat) (front : List Bool) (out : Host.Outcome State Fault Refusal) : Prop :=
  ∀ raw c, raw.length < n → NextBits s (front ++ raw) c → ∀ t, ReaderStops s c t → out = .next t

/-- Table `tab` has a code for the symbol `x` (42_huffman.md R225). -/
def HasCode (tab : List Entry) (x : Byte) : Prop := ∃ e ∈ tab, e.sym = x

/-- The bits of the code of `x` in `tab`; a table that passed HT_BUILD's checks has at most one (41_control_commands.md R172). -/
def codeOf (tab : List Entry) (x : Byte) : List Bool :=
  match tab.find? fun e => e.sym == x with
  | some e => bitsOf e.code e.size
  | none => []

/-- The signed value of `size` magnitude bits of value `raw` (42_huffman.md R217). -/
def signedValue (raw size : Nat) : ℤ :=
  if size = 0 then 0 else if raw < 2 ^ (size - 1) then (raw : ℤ) - (2 ^ size - 1) else raw

/-- The bits of a symbol and the magnitude bits after it, whose number is the symbol's low four bits, most significant first
(42_huffman.md R214, R220, R233). -/
def symbolBits (tab : List Entry) (p : Byte × Nat) : List Bool := codeOf tab p.1 ++ bitsOf p.2 (p.1.toNat % 16)

/-- The coefficients one AC symbol RS = 16·r + s with magnitude bits of value `p.2` stands for: ZRL is sixteen zeros, any other is r
zeros and the signed value (42_huffman.md R233). -/
def acValues (p : Byte × Nat) : List Half :=
  if p.1 = 0xF0#8 then List.replicate 16 0#16
  else List.replicate (p.1.toNat / 16) 0#16 ++ [BitVec.ofInt 16 (signedValue p.2 (p.1.toNat % 16))]

/-- `p` is a ZRL, or an AC symbol of size 1 to 10 with that many magnitude bits, and its symbol has a code. -/
def AcItem (tab : List Entry) (p : Byte × Nat) : Prop :=
  HasCode tab p.1 ∧ (p = (0xF0#8, 0) ∨ (1 ≤ p.1.toNat % 16 ∧ p.1.toNat % 16 ≤ 10 ∧ p.2 < 2 ^ (p.1.toNat % 16)))

/-- The DC symbol `t`, its magnitude bits `raw` and the AC items `items` are sent as `bits`. -/
def SentAs (dcTab acTab : List Entry) (t : Byte) (raw : Nat) (items : List (Byte × Nat)) (bits : List Bool) : Prop :=
  HasCode dcTab t ∧ t.toNat ≤ 11 ∧ raw < 2 ^ t.toNat ∧ (∀ p ∈ items, AcItem acTab p) ∧
  bits = symbolBits dcTab (t, raw) ++ items.flatMap (symbolBits acTab)

/-- `bits` are a front of a coded block that stands for the coefficients `z`: the DC value is the predictor plus the sent difference
modulo 2^16 (42_huffman.md R230, R232). -/
def CodedFront (dcTab acTab : List Entry) (pred : Half) (z : List Half) (bits : List Bool) : Prop :=
  ∃ t raw items, SentAs dcTab acTab t raw items bits ∧
    z = (pred + BitVec.ofInt 16 (signedValue raw t.toNat)) :: items.flatMap acValues

/-- `bits` are what the encoder must send for the front `z` of a block, which is the DC value alone or ends in a nonzero value: the
DC difference is exact, and a ZRL stands only before a nonzero coefficient (42_huffman.md R240). -/
def EncodedFront (dcTab acTab : List Entry) (pred : Half) (z : List Half) (bits : List Bool) : Prop :=
  ∃ t raw items dc, SentAs dcTab acTab t raw items bits ∧ signedValue raw t.toNat = (dc : Half).toInt - pred.toInt ∧
    items.getLast?.map Prod.fst ≠ some 0xF0#8 ∧ z = dc :: items.flatMap acValues

/-- `s` after an HDEC that decoded the block `z` and left the reader at `c` (42_huffman.md R230). -/
def hdecDone (s : State) (slot comp : Nat) (z : List Half) (c : Cursor) : State :=
  doneState { s with
    mem := s.mem.writeAll (coefStores slot z), dcPred := s.dcPred.set comp (z.getD 0 0#16),
    rdPos := BitVec.ofNat 17 c.pos, rdBit := BitVec.ofNat 3 c.bit }

/-- The luma factors of the three legal formats (30_encoding.md R116): 4:4:4, 4:2:2, 4:2:0. -/
def legalLuma : List (Nat × Nat) := [(1, 1), (2, 1), (2, 2)]

/-- The reserved aligned offsets of the window (20_memory.md R83, R84; 10_state.md R32, R51). -/
def reservedOffset (p : Params) (off : Nat) : Prop :=
  off % 4 = 0 ∧
  (off = 0x1C ∨ off = 0x2C ∨ off = 0x3C ∨ (0x50 ≤ off ∧ off < 0x1000) ∨ (0x1400 ≤ off ∧ off < 0x2000) ∨
   (0x2000 ≤ off ∧ off < 0x6000 ∧ 273 ≤ (off - 0x2000) % 0x800 / 4) ∨ (0x6600 ≤ off ∧ off < 0x6800) ∨
   (0x6E00 ≤ off ∧ off < 0x7000) ∨ (0x7C00 ≤ off ∧ off < 0x10000) ∨
   (0x10000 + 2 ^ p.ibufLog2 ≤ off ∧ off < 0x20000) ∨ (0x20000 + 2 ^ p.obufLog2 ≤ off ∧ off < 0x30000))

/-- A read of the word at `off` returns `w` and changes nothing else. -/
def Returns (s : State) (off : Nat) (w : Word) : Prop :=
  hostStep { s with inputs := [rd s.params off] } = .next { s with inputs := [], responses := w :: s.responses }

/-- An idle host write of `v` to the word at `off` changes the `n` bytes from `off` on and nothing else but HT_VALID, which
becomes `valid`; the memory then meets `holds`, and a read of the same word returns `new`. -/
def StoresAndReads (s : State) (off : Nat) (v : Word) (n : Nat) (valid : BitVec 8) (holds : Memory → Prop) (new : Word) : Prop :=
  ∃ m, hostStep { s with inputs := [wr s.params off v] } = .next { s with inputs := [], mem := m, htValid := valid } ∧
    holds m ∧ (∀ a, ¬(off ≤ a ∧ a < off + n) → m.read a = s.mem.read a) ∧
    Returns { s with mem := m, htValid := valid } off new

end Sys2Proof.Claims

open Sys2Proof Sys2Proof.Machine Sys2Proof.Claims

/-! ## Encoding (30_encoding.md) -/

/-- Decoding the encoding of a well-formed command gives it back (R111, R118, R121). -/
def Obligations.DecodeOfEncodedCommand : Prop := ∀ i : Instr, WellFormed i → decode (encode i) = .ok i

/-- A word that decodes is the encoding of a well-formed command: no bit of it is dropped (R111, R119, R120). -/
def Obligations.EncodeOfDecodedWord : Prop := ∀ (w : Word) (i : Instr), decode w = .ok i → WellFormed i ∧ encode i = w

/-- Words written out from the spec's encodings decode to their commands (R111, R121; 95_test_vectors.md). -/
def Obligations.ListedWordsDecode : Prop :=
  decode 0x00000000#32 = .ok .nop ∧ decode 0x00001001#32 = .ok (.htBuild .dc 1) ∧
  decode 0x00000101#32 = .ok (.htBuild .ac 0) ∧ decode 0x00000002#32 = .ok .dcReset ∧
  decode 0x00000008#32 = .ok .bsAlignRd ∧ decode 0x00000009#32 = .ok .bsFlushWr ∧
  decode 0x00330010#32 = .ok (.hdec 0 0 3 3) ∧ decode 0x00002511#32 = .ok (.henc 5 2 0 0) ∧
  decode 0x00000620#32 = .ok (.idct 6 0) ∧ decode 0x00010421#32 = .ok (.fdct 4 1) ∧
  decode 0x00000530#32 = .ok (.cscInv 1 1 0 0) ∧ decode 0x00001031#32 = .ok (.cscFwd 0 0 1 0)

/-- An accepted word whose OP is undefined, or with a reserved bit set, ends in ILLEGAL_COMMAND/1 or /2 and changes nothing else
(R119). -/
def Obligations.IllegalWordsRaiseIllegalCommand : Prop :=
  ∀ (s : State) (cw : Word) (fin : Bool), turnOf s = .engine → s.latch = some ⟨cw, fin⟩ →
    ((∀ r ∈ opcodeRows, (cw.extractLsb' 0 8).toNat ≠ r.1) →
      step s = .next (errorState (afterTurn s) (cw.extractLsb' 0 8) 7#8 1#8)) ∧
    (∀ r ∈ opcodeRows, (cw.extractLsb' 0 8).toNat = r.1 → cw &&& r.2 ≠ 0#32 →
      step s = .next (errorState (afterTurn s) (cw.extractLsb' 0 8) 7#8 2#8))

/-! ## The step (40_host_access.md R140, 60_exceptions.md R351) -/

/-- What a step does. On the engine's turn it is `exec` of the command the latched word decodes to (R140(b), R351); on the host's turn
it is the host step of the oldest input (R140(a)). Whose turn it is, is the schedule's first entry, and a used-up schedule gives the
turn to a busy engine, else to the host (DESIGN CHOICE, log 4); the turn of an idle engine does nothing (DESIGN CHOICE, log 10). Last
clause: a word placed by withFetchWord is what the next step runs. Placing a word is the model's own harness, not a rule of the spec
(DESIGN CHOICE, log 9: it latches the word whatever BUSY and ERR are), and so is giving the engine the next turn (log 4). -/
def Obligations.StepRunsLatchedCommand : Prop :=
  (∀ (s : State) (l : Latch) (i : Instr), turnOf s = .engine → s.latch = some l → decode l.cw = .ok i →
    step s = exec i (afterTurn s)) ∧
  (∀ s : State, turnOf s = .host → step s = hostStep (afterTurn s)) ∧
  (∀ s : State, turnOf s = .engine → s.latch = none → step s = .next (afterTurn s)) ∧
  (∀ (s : State) (a : Agent) (rest : List Agent), s.schedule = a :: rest → turnOf s = a) ∧
  (∀ s : State, s.schedule = [] → (turnOf s = .engine ↔ s.busy = true)) ∧
  (∀ (s : State) (w : Nat) (i : Instr), decode (BitVec.ofNat 32 w) = .ok i →
    step (s.withFetchWord 32 w) =
      exec i { s with
        latch := some ⟨BitVec.ofNat 32 w, s.ctrl.inFinal⟩,
        status := { s.status with done := false, needData := false, outFull := false } })

/-- Every command ends in one engine step, with BUSY cleared: ok, which sets DONE and leaves ERRCODE; or an error, a request for
data or a full output, each of which changes nothing but its flag, and ERRCODE for the error (R351, R352, R354, R355, R356). -/
def Obligations.CommandEndsInOneOutcome : Prop :=
  ∀ (i : Instr) (s : State), ∃ t, exec i s = .next t ∧ t.busy = false ∧
    ((t.status = { s.status with done := true } ∧ t.errcode = s.errcode) ∨
     (∃ e d, t = errorState s (opOf i).code e d) ∨ t = needDataState s ∨ t = outFullState s)

/-- NEED_DATA arises only in HDEC with FIN = 0, changes nothing else, and the next command is accepted (R354). -/
def Obligations.NeedDataOnlyFromHdec : Prop :=
  ∀ (i : Instr) (s t : State), s.status.needData = false → exec i s = .next t → t.status.needData = true →
    (∃ slot comp dct act, i = .hdec slot comp dct act) ∧ s.fin = false ∧ t = needDataState s ∧
    (s.status.err = false → ∀ cw, offerCommand t cw =
      { t with latch := some ⟨cw, t.ctrl.inFinal⟩, status := { t.status with done := false, needData := false, outFull := false } })

/-- OUT_FULL arises only in HENC and BS_FLUSH_WR, when the bytes do not fit in OBUF, and changes nothing else (R355). -/
def Obligations.OutFullOnlyFromWriters : Prop :=
  ∀ (i : Instr) (s t : State), s.status.outFull = false → exec i s = .next t → t.status.outFull = true →
    t = outFullState s ∧
    ((i = .bsFlushWr ∧ s.params.obufBytes < s.wrPos.toNat + (outBytes (paddedBits s)).length) ∨
     (∃ slot comp dct act bits, i = .henc slot comp dct act ∧
      encodeBlock (htTable s.mem dct) (htTable s.mem (4 + act)) (s.dcPred.get comp) (s.mem.coefBlock slot) = .ok bits ∧
      s.params.obufBytes < s.wrPos.toNat + (outBytes (s.pendingBits ++ bits)).length))

/-- A decoded command raises only errors its row of the table lists, with OP its opcode, and nothing else changes (R350, R352). -/
def Obligations.OnlyListedErrorsAreRaised : Prop :=
  ∀ (i : Instr) (s t : State), s.status.err = false → exec i s = .next t → t.status.err = true →
    ∃ p ∈ listedErrors (opOf i), t = errorState s (opOf i).code p.1 p.2

/-- What no command changes: the parameters, CTRL, RD_LEN, the dropped flags, the QT and HT memories and IBUF (10_state.md R42,
R57; 70_reset_and_hazards.md R394). -/
def Obligations.EngineLeavesInputsAlone : Prop :=
  ∀ (i : Instr) (s t : State), exec i s = .next t →
    t.params = s.params ∧ t.ctrl = s.ctrl ∧ t.rdLen = s.rdLen ∧ t.status.cmdDropped = s.status.cmdDropped ∧
    t.status.accDropped = s.status.accDropped ∧ t.inputs = s.inputs ∧ t.schedule = s.schedule ∧
    t.responses = s.responses ∧ t.draws = s.draws ∧
    ∀ a, (a < 0x6000 ∨ (0x10000 ≤ a ∧ a < 0x20000)) → t.mem.read a = s.mem.read a

/-- The engine writes OBUF only at offsets from WR_POS on (10_state.md R58). -/
def Obligations.WrittenOutputIsNeverRewritten : Prop :=
  ∀ (i : Instr) (s t : State), exec i s = .next t → ∀ p < s.wrPos.toNat, t.mem.obuf p = s.mem.obuf p

/-- A running command does not see later changes of CTRL: changing CTRL before its engine step changes CTRL alone after it
(10_state.md R60). -/
def Obligations.RunningCommandIgnoresCtrl : Prop :=
  ∀ (i : Instr) (s : State) (c : Ctrl), ∃ t, exec i s = .next t ∧ exec i { s with ctrl := c } = .next { t with ctrl := c }

/-- A busy block is idle again, or its run has stopped on a bus error, within one step more than the schedule is long
(70_reset_and_hazards.md R402; the schedule is the model's choice, log 4). -/
def Obligations.BusyBlockCompletes : Prop :=
  ∀ s : State, s.busy = true → ∃ k ≤ s.schedule.length + 1,
    (∃ t, core.run k s = .next t ∧ t.busy = false) ∨ (∃ r, core.run k s = .fault r)

/-! ## Field and resource checks (60_exceptions.md R353) -/

/-- SLOT 6 or 7 raises INVALID_ARGUMENT/1 in the four block commands, whatever else holds (30_encoding.md R112). -/
def Obligations.BadSlotRaisesInvalidArgument : Prop :=
  ∀ (s : State) (slot a b c : Nat), slot = 6 ∨ slot = 7 →
    exec (.hdec slot a b c) s = .next (errorState s 0x10#8 6#8 1#8) ∧
    exec (.henc slot a b c) s = .next (errorState s 0x11#8 6#8 1#8) ∧
    exec (.idct slot a) s = .next (errorState s 0x20#8 6#8 1#8) ∧
    exec (.fdct slot a) s = .next (errorState s 0x21#8 6#8 1#8)

/-- Sampling factors other than 4:4:4, 4:2:2 and 4:2:0 raise UNSUPPORTED_FORMAT/1 and nothing else happens (44_color.md R300). -/
def Obligations.BadFactorsRaiseUnsupportedFormat : Prop :=
  ∀ (s : State) (a b c d : Nat), ¬((a + 1, b + 1) ∈ legalLuma ∧ c + 1 = 1 ∧ d + 1 = 1) →
    exec (.cscInv a b c d) s = .next (errorState s 0x30#8 5#8 1#8) ∧
    exec (.cscFwd a b c d) s = .next (errorState s 0x31#8 5#8 1#8)

/-- A Huffman command whose DC or AC table is not built raises MALFORMED_TABLE/5 before any bit is read, after the SLOT check
(42_huffman.md R231). -/
def Obligations.UnbuiltTableRaisesMalformedTable : Prop :=
  ∀ (s : State) (slot comp dct act : Nat), s.htValid.getLsbD dct = false ∨ s.htValid.getLsbD (4 + act) = false →
    (slot ≤ 5 →
      exec (.hdec slot comp dct act) s = .next (errorState s 0x10#8 2#8 5#8) ∧
      exec (.henc slot comp dct act) s = .next (errorState s 0x11#8 2#8 5#8)) ∧
    (5 < slot →
      exec (.hdec slot comp dct act) s = .next (errorState s 0x10#8 6#8 1#8) ∧
      exec (.henc slot comp dct act) s = .next (errorState s 0x11#8 6#8 1#8))

/-- A zero entry anywhere in the named quantization table raises MALFORMED_TABLE/6, after the SLOT check (43_transform.md
R261). -/
def Obligations.ZeroQuantizerRaisesMalformedTable : Prop :=
  ∀ (s : State) (slot q : Nat), (∃ k < 64, s.mem.qt q k = 0#16) →
    (slot ≤ 5 →
      exec (.idct slot q) s = .next (errorState s 0x20#8 2#8 6#8) ∧
      exec (.fdct slot q) s = .next (errorState s 0x21#8 2#8 6#8)) ∧
    (5 < slot →
      exec (.idct slot q) s = .next (errorState s 0x20#8 6#8 1#8) ∧
      exec (.fdct slot q) s = .next (errorState s 0x21#8 6#8 1#8))

/-! ## Control commands (41_control_commands.md) -/

/-- NOP completes with no effect on data (R170). -/
def Obligations.NopOnlyCompletes : Prop := ∀ s : State, exec .nop s = .next (doneState s)

/-- DC_RESET sets the four predictors to 0 and completes (R173). -/
def Obligations.DcResetClearsPredictors : Prop :=
  ∀ s : State, exec .dcReset s = .next (doneState { s with dcPred := ⟨0#16, 0#16, 0#16, 0#16⟩ })

/-- HT_BUILD makes its checks in order and sets HT_VALID bit h, and only it, when all pass (R172). After the counts of lengths
1..l the next code is Σ BITS[i]·2^(l-i), i = 1..l. -/
def Obligations.HtBuildChecksThenValidates : Prop :=
  ∀ (s : State) (cls : HtClass) (id : Nat),
    let h := 4 * (if cls = .ac then 1 else 0) + id
    let n := (s.mem.htNsym h).toNat
    let sum := ∑ l ∈ Finset.Icc 1 16, (s.mem.htBits h l).toNat
    let tooMany := ∃ l ∈ Finset.Icc 1 16, 2 ^ l < ∑ i ∈ Finset.Icc 1 l, (s.mem.htBits h i).toNat * 2 ^ (l - i)
    let dup := ∃ i j, i < j ∧ j < n ∧ s.mem.htVal h i = s.mem.htVal h j
    ((n = 0 ∨ 256 < n) → exec (.htBuild cls id) s = .next (errorState s 0x01#8 2#8 1#8)) ∧
    (¬(n = 0 ∨ 256 < n) → sum ≠ n → exec (.htBuild cls id) s = .next (errorState s 0x01#8 2#8 2#8)) ∧
    (¬(n = 0 ∨ 256 < n) → sum = n → tooMany → exec (.htBuild cls id) s = .next (errorState s 0x01#8 2#8 3#8)) ∧
    (¬(n = 0 ∨ 256 < n) → sum = n → ¬tooMany → dup → exec (.htBuild cls id) s = .next (errorState s 0x01#8 2#8 4#8)) ∧
    (¬(n = 0 ∨ 256 < n) → sum = n → ¬tooMany → ¬dup →
      exec (.htBuild cls id) s = .next (doneState { s with htValid := s.htValid ||| 1#8 <<< h }))

/-- The codes of a table that passes HT_BUILD's checks are the canonical ones: the (i+1)-th code of length l is symbol number
BITS[1] + … + BITS[l-1] + i, and its value is the sum of BITS[m]·2^(l-m) over m < l, plus i. They are prefix-free, one for each of its
NSYM symbols, of 1 to 16 bits (R171). -/
def Obligations.BuiltCodesArePrefixFree : Prop :=
  ∀ (m : Memory) (h : Nat), checkTable m h = .ok () →
    let count (l : Nat) := (m.htBits h l).toNat
    (∀ l ∈ Finset.Icc 1 16, ∀ i < count l,
      let j := ∑ n ∈ Finset.Ico 1 l, count n + i
      (htTable m h)[j]? = some ⟨l, ∑ n ∈ Finset.Ico 1 l, count n * 2 ^ (l - n) + i, m.htVal h j⟩) ∧
    (htTable m h).length = (m.htNsym h).toNat ∧
    (∀ j (hj : j < (htTable m h).length), (htTable m h)[j].sym = m.htVal h j ∧
      1 ≤ (htTable m h)[j].size ∧ (htTable m h)[j].size ≤ 16 ∧ (htTable m h)[j].code < 2 ^ (htTable m h)[j].size) ∧
    (∀ i j (hi : i < (htTable m h).length) (hj : j < (htTable m h).length), i ≠ j →
      (htTable m h)[i].size ≤ (htTable m h)[j].size →
      (htTable m h)[j].code / 2 ^ ((htTable m h)[j].size - (htTable m h)[i].size) ≠ (htTable m h)[i].code)

/-- BS_ALIGN_RD moves a reader inside a byte past it, and past the stuffing byte of a 0xFF; a reader at a byte boundary stays
(R174). -/
def Obligations.AlignMovesToNextByte : Prop :=
  ∀ s : State, s.params.ibufLog2 ≤ 16 →
    (s.rdBit = 0#3 → exec .bsAlignRd s = .next (doneState s)) ∧
    (s.rdBit ≠ 0#3 → ∃ t, exec .bsAlignRd s = .next (doneState { s with rdPos := t, rdBit := 0#3 }) ∧
      t.toNat = min (s.rdPos.toNat +
        (if s.rdPos.toNat < s.rdLen.toNat ∧ s.mem.ibuf s.rdPos.toNat = 0xFF#8 then 2 else 1)) (2 ^ s.params.ibufLog2))

/-- BS_FLUSH_WR writes the pending bits followed by 1-bits as one byte, with a stuffing 0x00 after 0xFF, and leaves nothing
pending; it writes nothing when nothing is pending, and ends with OUT_FULL when the bytes do not fit (R175). -/
def Obligations.FlushPadsWithOnes : Prop :=
  ∀ s : State, s.params.obufLog2 ≤ 16 →
    let n := s.wrBit.toNat
    let b : Byte := BitVec.ofNat 8 (s.wrAcc.toNat % 2 ^ n * 2 ^ (8 - n) + (2 ^ (8 - n) - 1))
    let bytes : List Byte := if n = 0 then [] else if b = 0xFF#8 then [b, 0x00#8] else [b]
    (s.wrPos.toNat + bytes.length ≤ s.params.obufBytes →
      ∃ m, exec .bsFlushWr s = .next (doneState
          { s with mem := m, wrPos := BitVec.ofNat 17 (s.wrPos.toNat + bytes.length), wrBit := 0#3, wrAcc := 0#7 }) ∧
        (∀ j (hj : j < bytes.length), m.read (obufAddr (s.wrPos.toNat + j)) = bytes[j]) ∧
        (∀ a, (∀ j < bytes.length, a ≠ obufAddr (s.wrPos.toNat + j)) → m.read a = s.mem.read a)) ∧
    (s.params.obufBytes < s.wrPos.toNat + bytes.length → exec .bsFlushWr s = .next (outFullState s))

/-! ## Bitstream (42_huffman.md) -/

/-- ReadBit: most significant bit first; a byte at or past RD_LEN, or a 0xFF whose next byte is, is the end of the data; a 0xFF
not followed by 0x00 is MALFORMED_STREAM/1; a finished 0xFF takes its stuffing byte along (R210, R211, R212, R213). -/
def Obligations.ReadBitFollowsStuffing : Prop :=
  ∀ (src : Source) (p b : Nat), b ≤ 7 →
    let atEnd : Raise := if src.fin then .error .truncatedStream 1#8 else .needData
    let bit := (src.mem.ibuf p).getLsbD (7 - b)
    (src.len ≤ p → readBit src ⟨p, b⟩ = .error atEnd) ∧
    (p < src.len → src.mem.ibuf p ≠ 0xFF#8 →
      readBit src ⟨p, b⟩ = .ok (bit, if b = 7 then ⟨p + 1, 0⟩ else ⟨p, b + 1⟩)) ∧
    (p < src.len → src.mem.ibuf p = 0xFF#8 → src.len ≤ p + 1 → readBit src ⟨p, b⟩ = .error atEnd) ∧
    (p + 1 < src.len → src.mem.ibuf p = 0xFF#8 → src.mem.ibuf (p + 1) ≠ 0x00#8 →
      readBit src ⟨p, b⟩ = .error (.error .malformedStream 1#8)) ∧
    (p + 1 < src.len → src.mem.ibuf p = 0xFF#8 → src.mem.ibuf (p + 1) = 0x00#8 →
      readBit src ⟨p, b⟩ = .ok (bit, if b = 7 then ⟨p + 2, 0⟩ else ⟨p, b + 1⟩))

/-- Cat is the bit length of the magnitude (R223). -/
def Obligations.CatIsMagnitudeBitLength : Prop :=
  cat 0 = 0 ∧ ∀ v : Int, v ≠ 0 → 2 ^ (cat v - 1) ≤ v.natAbs ∧ v.natAbs < 2 ^ cat v

/-- Mag gives the raw bits, and Extend takes them back (R224). -/
def Obligations.ExtendInvertsMag : Prop :=
  ∀ v : Int, v ≠ 0 →
    (mag v (cat v) : Int) = (if 0 < v then v else v + 2 ^ cat v - 1) ∧ mag v (cat v) < 2 ^ cat v ∧
    extend (mag v (cat v)) (cat v) = v

/-- What the writer forms. `n` bits of `v` are appended most significant first; the pending string is the low WR_BIT bits of WR_ACC,
oldest highest (R220). Of a bit string, each eight bits from the front make one byte, first bit most significant, and what is left
stays pending, held as its value; the bytes put out are those bytes in order, with 0x00 after each 0xFF and nothing else, so that the
output holds no marker (R221). -/
def Obligations.OutputHoldsNoMarker : Prop :=
  (∀ v n : Nat, (bitsOf v n).length = n ∧ ∀ i < n, (bitsOf v n)[i]? = some (v.testBit (n - 1 - i))) ∧
  (∀ s : State, s.pendingBits.length = s.wrBit.toNat ∧
    ∀ i < s.wrBit.toNat, s.pendingBits[i]? = some (s.wrAcc.getLsbD (s.wrBit.toNat - 1 - i))) ∧
  ∀ bits : List Bool,
    let bytes := (packBytes bits).1
    bytes.length = bits.length / 8 ∧
    (∀ j (hj : j < bytes.length), ∀ i < 8, bits[8 * j + i]? = some (bytes[j].getLsbD (7 - i))) ∧
    (packBytes bits).2 = bits.drop (8 * (bits.length / 8)) ∧
    bitsValue bits = ∑ i ∈ Finset.range bits.length, (if bits[i]? = some true then 2 ^ (bits.length - 1 - i) else 0) ∧
    outBytes bits = bytes.flatMap (fun b => if b = 0xFF#8 then [b, 0x00#8] else [b]) ∧
    ∀ j, (outBytes bits)[j]? = some 0xFF#8 → (outBytes bits)[j + 1]? = some 0x00#8

/-- DecodeSym on a table that passed HT_BUILD: if a code's bits come next, its symbol and the cursor after them; if no code is a
prefix of the next 16 bits, INVALID_CODE/1; if the reader stops before a code is complete, what the reader raised (R216). -/
def Obligations.DecodeSymMatchesOneCode : Prop :=
  ∀ (m : Memory) (h : Nat) (src : Source) (c c' : Cursor) (bits : List Bool), checkTable m h = .ok () →
    (∀ e ∈ htTable m h, takeBits src e.size c = .ok (bitsOf e.code e.size, c') →
      decodeSym (htTable m h) src c = .ok (e.sym, c')) ∧
    (takeBits src 16 c = .ok (bits, c') → (∀ e ∈ htTable m h, bits.take e.size ≠ bitsOf e.code e.size) →
      decodeSym (htTable m h) src c = .error (.error .invalidCode 1#8)) ∧
    (∀ n < 16, ∀ r, takeBits src n c = .ok (bits, c') →
      (∀ e ∈ htTable m h, e.size ≤ n → bits.take e.size ≠ bitsOf e.code e.size) → readBit src c' = .error r →
      decodeSym (htTable m h) src c = .error r)

/-! ## HDEC and HENC (42_huffman.md R230, R240) -/

/-- HDEC decodes what the encoder's rule encodes: if the bits of a block `z` under the two built tables are the next bits of the
stream, HDEC completes with COEF[SLOT] = z, DC_PRED[COMP] = z[0] and the cursor after those bits, and changes nothing else
(R230, R241). -/
def Obligations.HdecDecodesEncodedBlock : Prop :=
  ∀ (s : State) (slot comp dct act : Nat) (z : List Half) (bits : List Bool) (c : Cursor),
    slot ≤ 5 → comp ≤ 3 → dct ≤ 3 → act ≤ 3 → z.length = 64 →
    s.htValid.getLsbD dct = true → s.htValid.getLsbD (4 + act) = true → s.tablesCoherent →
    encodeBlock (htTable s.mem dct) (htTable s.mem (4 + act)) (s.dcPred.get comp) z = .ok bits →
    takeBits s.source bits.length s.cursor = .ok (bits, c) →
    ∃ m, exec (.hdec slot comp dct act) s = .next (doneState
        { s with
          mem := m, dcPred := s.dcPred.set comp (z.getD 0 0#16),
          rdPos := BitVec.ofNat 17 c.pos, rdBit := BitVec.ofNat 3 c.bit }) ∧
      (∀ k < 64, m.coef slot k = z.getD k 0#16) ∧
      (∀ a, (∀ k < 64, a ≠ coefAddr slot k ∧ a ≠ coefAddr slot k + 1) → m.read a = s.mem.read a)

/-- How HDEC ends, with its slot legal and its tables built (R230, R231, R232, R233, R352, R354). What the block decoder gives is
committed; what it raises is the outcome. Read from the stream: a DC symbol above 11 raises MALFORMED_STREAM/2; and after the bits of
any front of k coefficients, an AC symbol of size 0 and run 1..14, or of size above 10, raises /3, one that reaches past position 63
raises /4, and EOB ends the block with zeros; a front of 64 coefficients is the block. A reader stop inside any symbol or its
magnitude bits is the outcome (TRUNCATED_STREAM/1, NEED_DATA, or MALFORMED_STREAM/1 at a marker), and 16 bits without a code raise
INVALID_CODE/1. -/
def Obligations.HdecCommitsDecodedBlock : Prop :=
  ∀ (s : State) (slot comp dct act : Nat), slot ≤ 5 → s.htValid.getLsbD dct = true → s.htValid.getLsbD (4 + act) = true →
    let dcTab := htTable s.mem dct
    let acTab := htTable s.mem (4 + act)
    let pred := s.dcPred.get comp
    let hdec := exec (.hdec slot comp dct act) s
    (∀ z c, decodeBlock dcTab acTab s.source pred s.cursor = .ok (z, c) → hdec = .next (hdecDone s slot comp z c)) ∧
    (∀ e d, decodeBlock dcTab acTab s.source pred s.cursor = .error (.error e d) →
      hdec = .next (errorState s 0x10#8 e.code d)) ∧
    (decodeBlock dcTab acTab s.source pred s.cursor = .error .needData → hdec = .next (needDataState s)) ∧
    (s.tablesCoherent → comp ≤ 3 → dct ≤ 3 → act ≤ 3 →
      SymbolStops s dcTab [] hdec ∧
      (∀ t, HasCode dcTab t →
        (∀ c, NextBits s (codeOf dcTab t) c → 11 < t.toNat → hdec = .next (errorState s 0x10#8 3#8 2#8)) ∧
        (t.toNat ≤ 11 → MagnitudeStops s t.toNat (codeOf dcTab t) hdec)) ∧
      (∀ z front, CodedFront dcTab acTab pred z front →
        let k := z.length
        (k = 64 → ∀ c, NextBits s front c → hdec = .next (hdecDone s slot comp z c)) ∧
        (k ≤ 63 →
          SymbolStops s acTab front hdec ∧
          ∀ rs, HasCode acTab rs →
            let run := rs.toNat / 16
            let size := rs.toNat % 16
            (∀ c, NextBits s (front ++ codeOf acTab rs) c →
              ((size = 0 ∧ 1 ≤ run ∧ run ≤ 14) ∨ 10 < size → hdec = .next (errorState s 0x10#8 3#8 3#8)) ∧
              ((size = 0 ∧ run = 15 ∧ 48 < k) ∨ (1 ≤ size ∧ size ≤ 10 ∧ 63 < k + run) →
                hdec = .next (errorState s 0x10#8 3#8 4#8)) ∧
              (size = 0 ∧ run = 0 → hdec = .next (hdecDone s slot comp (z ++ List.replicate (64 - k) 0#16) c))) ∧
            (size ≤ 10 → k + run ≤ 63 → MagnitudeStops s size (front ++ codeOf acTab rs) hdec))))

/-- The frame of HDEC: it may change the low two bytes of COEF[SLOT]'s words, DC_PRED[COMP], RD_POS, RD_BIT, and by its outcome
the latch, STATUS and ERRCODE; nothing else (R230, 70_reset_and_hazards.md R394). -/
def Obligations.HdecFrame : Prop :=
  ∀ (s t : State) (slot comp dct act : Nat), comp ≤ 3 → exec (.hdec slot comp dct act) s = .next t →
    t = { s with
      latch := none, status := t.status, errcode := t.errcode, mem := t.mem, dcPred := t.dcPred, rdPos := t.rdPos,
      rdBit := t.rdBit } ∧
    (∀ c ≤ 3, c ≠ comp → t.dcPred.get c = s.dcPred.get c) ∧
    (∀ a, (∀ k < 64, a ≠ coefAddr slot k ∧ a ≠ coefAddr slot k + 1) → t.mem.read a = s.mem.read a)

/-- How HENC ends, with its slot legal and its tables built (R240, R221, R222, R225, R352). A block that encodes and fits: the complete
bytes of the pending bits and the block's bits are written, stuffed, the rest stays pending, DC_PRED[COMP] is the block's DC. A
block that encodes and does not fit ends with OUT_FULL. The block's bits are the DC symbol and magnitude, the AC symbols and
magnitudes with a ZRL for each full sixteen zeros before a nonzero coefficient, and one EOB if zeros follow the last. What the encoder
raises is the error: INVALID_ARGUMENT/2 for a DC difference of category above 11, else INVALID_CODE/2 when that category has no code;
and when everything up to coefficient `i` encodes, zeros follow it and `k` is the next nonzero one, INVALID_CODE/2 for a ZRL that is
needed and has no code, else INVALID_ARGUMENT/3 for a category above 10, else INVALID_CODE/2 for a symbol without a code; and
INVALID_CODE/2 for an EOB that is needed and has none. -/
def Obligations.HencWritesEncodedBlock : Prop :=
  ∀ (s : State) (slot comp dct act : Nat), slot ≤ 5 → s.htValid.getLsbD dct = true → s.htValid.getLsbD (4 + act) = true →
    let dcTab := htTable s.mem dct
    let acTab := htTable s.mem (4 + act)
    let pred := s.dcPred.get comp
    let z := s.mem.coefBlock slot
    let henc := exec (.henc slot comp dct act) s
    let missing (tab : List Entry) (x : Nat) := ¬HasCode tab (BitVec.ofNat 8 x)
    let diff := (s.mem.coef slot 0).toInt - pred.toInt
    (∀ bits, encodeBlock dcTab acTab pred z = .ok bits →
      let out := outBytes (s.pendingBits ++ bits)
      let left := (packBytes (s.pendingBits ++ bits)).2
      (s.wrPos.toNat + out.length ≤ s.params.obufBytes →
        ∃ m, henc = .next (doneState
            { s with
              mem := m, dcPred := s.dcPred.set comp (s.mem.coef slot 0),
              wrPos := BitVec.ofNat 17 (s.wrPos.toNat + out.length), wrBit := BitVec.ofNat 3 left.length,
              wrAcc := BitVec.ofNat 7 (bitsValue left) }) ∧
          left.length ≤ 7 ∧
          (∀ j (hj : j < out.length), m.read (obufAddr (s.wrPos.toNat + j)) = out[j]) ∧
          (∀ a, (∀ j < out.length, a ≠ obufAddr (s.wrPos.toNat + j)) → m.read a = s.mem.read a)) ∧
      (s.params.obufBytes < s.wrPos.toNat + out.length → henc = .next (outFullState s))) ∧
    (∀ e d, encodeBlock dcTab acTab pred z = .error (.error e d) → henc = .next (errorState s 0x11#8 e.code d)) ∧
    (11 < cat diff → henc = .next (errorState s 0x11#8 6#8 2#8)) ∧
    (cat diff ≤ 11 → missing dcTab (cat diff) → henc = .next (errorState s 0x11#8 4#8 2#8)) ∧
    (∀ i bits, i ≤ 63 → EncodedFront dcTab acTab pred (z.take (i + 1)) bits →
      (i = 63 → encodeBlock dcTab acTab pred z = .ok bits) ∧
      (i < 63 → (∀ j, i < j → j < 64 → s.mem.coef slot j = 0#16) →
        (HasCode acTab 0x00#8 → encodeBlock dcTab acTab pred z = .ok (bits ++ codeOf acTab 0x00#8)) ∧
        (missing acTab 0x00 → henc = .next (errorState s 0x11#8 4#8 2#8))) ∧
      (∀ k, i < k → k < 64 → (∀ j, i < j → j < k → s.mem.coef slot j = 0#16) → s.mem.coef slot k ≠ 0#16 →
        let run := k - 1 - i
        let size := cat (s.mem.coef slot k).toInt
        (16 ≤ run → missing acTab 0xF0 → henc = .next (errorState s 0x11#8 4#8 2#8)) ∧
        ((16 ≤ run → ¬missing acTab 0xF0) →
          (10 < size → henc = .next (errorState s 0x11#8 6#8 3#8)) ∧
          (size ≤ 10 → missing acTab (16 * (run % 16) + size) → henc = .next (errorState s 0x11#8 4#8 2#8)))))

/-- The frame of HENC when it does not complete ok, or does: COEF and every byte outside the output written are unchanged, and so
is every register but WR_POS, WR_BIT, WR_ACC and DC_PRED[COMP] (R240, 70_reset_and_hazards.md R394). -/
def Obligations.HencFrame : Prop :=
  ∀ (s t : State) (slot comp dct act : Nat), comp ≤ 3 → exec (.henc slot comp dct act) s = .next t →
    t = { s with
      latch := none, status := t.status, errcode := t.errcode, mem := t.mem, dcPred := t.dcPred, wrPos := t.wrPos,
      wrBit := t.wrBit, wrAcc := t.wrAcc } ∧
    (∀ c ≤ 3, c ≠ comp → t.dcPred.get c = s.dcPred.get c) ∧
    (∀ a, (∀ bits, encodeBlock (htTable s.mem dct) (htTable s.mem (4 + act)) (s.dcPred.get comp)
          (s.mem.coefBlock slot) = .ok bits →
        ∀ j < (outBytes (s.pendingBits ++ bits)).length, a ≠ obufAddr (s.wrPos.toNat + j)) →
      t.mem.read a = s.mem.read a)

/-- One HENC forms at most 209 bytes, 418 with stuffing (70_reset_and_hazards.md R404). -/
def Obligations.HencOutputIsBounded : Prop :=
  ∀ (s : State) (slot comp dct act : Nat) (bits : List Bool),
    encodeBlock (htTable s.mem dct) (htTable s.mem (4 + act)) (s.dcPred.get comp) (s.mem.coefBlock slot) = .ok bits →
    (packBytes (s.pendingBits ++ bits)).1.length ≤ 209 ∧ (outBytes (s.pendingBits ++ bits)).length ≤ 418

/-! ## IDCT and FDCT (43_transform.md) -/

/-- Under EXACT, IDCT writes the correctly rounded exact inverse DCT of the dequantized block, shifted by 128 and clamped, and
changes nothing else (R262, R263). -/
def Obligations.IdctIsRoundedExactTransform : Prop :=
  ∀ (s : State) (slot q : Nat) (d : Nat → ℤ), slot ≤ 5 → q ≤ 3 → s.params.transform = .exact →
    (∀ k < 64, s.mem.qt q k ≠ 0#16) →
    (∀ k < 64, d (zz k) = (s.mem.coef slot k).toInt * ((s.mem.qt q k).toNat : ℤ)) →
    ∃ m, exec (.idct slot q) s = .next (doneState { s with mem := m }) ∧
      (∀ x < 8, ∀ y < 8, ((m.smp slot (8 * y + x)).toNat : ℤ) = clamp255 (rndReal (idctRef d x y) + 128)) ∧
      (∀ a, (∀ i < 64, a ≠ smpAddr slot i) → m.read a = s.mem.read a)

/-- Under EXACT, FDCT writes the exact forward DCT of the level-shifted samples divided by the table entry and rounded once, and
changes nothing else (R262, R264, R266). -/
def Obligations.FdctIsRoundedExactTransform : Prop :=
  ∀ (s : State) (slot q : Nat), slot ≤ 5 → q ≤ 3 → s.params.transform = .exact →
    (∀ k < 64, s.mem.qt q k ≠ 0#16) →
    ∃ m, exec (.fdct slot q) s = .next (doneState { s with mem := m }) ∧
      (∀ k < 64, (m.coef slot k).toInt =
        rndReal (fdctRef (fun i => ((s.mem.smp slot i).toNat : ℤ) - 128) (zz k % 8) (zz k / 8) / (s.mem.qt q k).toNat)) ∧
      (∀ a, (∀ k < 64, a ≠ coefAddr slot k ∧ a ≠ coefAddr slot k + 1) → m.read a = s.mem.read a)

/-- With a supplied transform, IDCT writes what the supplied function gives, and FDCT the supplied transform's output divided by the
table entry and rounded once as under EXACT, after the same checks; nothing else changes (R268). The functions are free values; that
FDCT's is read as a transform output before the division is the model's reading (DEDUCED, log 7). -/
def Obligations.SuppliedTransformIsUsed : Prop :=
  ∀ (s : State) (slot q : Nat), slot ≤ 5 → q ≤ 3 → s.params.transform = .supplied →
    (∀ k < 64, s.mem.qt q k ≠ 0#16) →
    (∃ m, exec (.idct slot q) s = .next (doneState { s with mem := m }) ∧
      (∀ i < 64, m.smp slot i = Config.idctImpl (dequantize s.mem slot q) i) ∧
      (∀ a, (∀ i < 64, a ≠ smpAddr slot i) → m.read a = s.mem.read a)) ∧
    (∃ m, exec (.fdct slot q) s = .next (doneState { s with mem := m }) ∧
      (∀ k < 64, m.coef slot k =
        wrap16 (rndReal ((Config.fdctTransform (levelShift s.mem slot) (s.mem.qtTable q) (zz k) : ℝ) / (s.mem.qt q k).toNat))) ∧
      (∀ a, (∀ k < 64, a ≠ coefAddr slot k ∧ a ≠ coefAddr slot k + 1) → m.read a = s.mem.read a))

/-- Under EXACT, IDCT of a block with only a DC coefficient gives the constant sample clamp(rnd(D[0]/8) + 128, 0, 255), and FDCT
of a constant block gives rnd(8(c - 128)/QT[q][0]) and 63 zeros (R263 corner case (c), R264 corner case (c), R267). -/
def Obligations.ConstantBlocksTransformExactly : Prop :=
  (∀ (s : State) (slot q : Nat), slot ≤ 5 → q ≤ 3 → s.params.transform = .exact → (∀ k < 64, s.mem.qt q k ≠ 0#16) →
    (∀ k, 1 ≤ k → k < 64 → s.mem.coef slot k = 0#16) →
    ∃ m, exec (.idct slot q) s = .next (doneState { s with mem := m }) ∧
      ∀ i < 64, ((m.smp slot i).toNat : ℤ) =
        clamp255 (rndDiv ((s.mem.coef slot 0).toInt * ((s.mem.qt q 0).toNat : ℤ)) 8 + 128)) ∧
  (∀ (s : State) (slot q : Nat) (c : Byte), slot ≤ 5 → q ≤ 3 → s.params.transform = .exact →
    (∀ k < 64, s.mem.qt q k ≠ 0#16) → (∀ i < 64, s.mem.smp slot i = c) →
    ∃ m, exec (.fdct slot q) s = .next (doneState { s with mem := m }) ∧
      (m.coef slot 0).toInt = rndDiv (8 * ((c.toNat : ℤ) - 128)) (s.mem.qt q 0).toNat ∧
      ∀ k, 1 ≤ k → k < 64 → m.coef slot k = 0#16)

/-- Under EXACT with a table of ones, FDCT completes, and IDCT completes from every state that holds the coefficients FDCT wrote,
the same table and the same parameters, whatever its samples are, and gives every sample back within 3 (R270). -/
def Obligations.TransformRoundTripWithinThree : Prop :=
  ∀ (s : State) (slot q : Nat), slot ≤ 5 → q ≤ 3 → s.params.transform = .exact → (∀ k < 64, s.mem.qt q k = 1#16) →
    ∃ m, exec (.fdct slot q) s = .next (doneState { s with mem := m }) ∧
      ∀ u : State, u.params = s.params → (∀ k < 64, u.mem.qt q k = m.qt q k) → (∀ k < 64, u.mem.coef slot k = m.coef slot k) →
        ∃ m', exec (.idct slot q) u = .next (doneState { u with mem := m' }) ∧
          ∀ i < 64, |((m'.smp slot i).toNat : ℤ) - ((s.mem.smp slot i).toNat : ℤ)| ≤ 3

/-! ## CSC_INV and CSC_FWD (44_color.md) -/

/-- CSC_INV writes to each pixel of the MCU the rounded and clamped inverse of its luma sample and its nearest chroma samples, and
changes nothing else (R302, R303, R306, R307). -/
def Obligations.CscInvConvertsMcu : Prop :=
  ∀ (s : State) (yh yv : Nat), (yh, yv) ∈ legalLuma →
    ∃ m, exec (.cscInv (yh - 1) (yv - 1) 0 0) s = .next (doneState { s with mem := m }) ∧
      (∀ x < 8 * yh, ∀ y < 8 * yv,
        let l : ℝ := (s.mem.smp ((y / 8) * yh + x / 8) (y % 8 * 8 + x % 8)).toNat
        let cb : ℝ := (s.mem.smp 4 (y / yv * 8 + x / yh)).toNat
        let cr : ℝ := (s.mem.smp 5 (y / yv * 8 + x / yh)).toNat
        ((m.pix (3 * (16 * y + x))).toNat : ℤ) = clamp255 (rndReal (l + 1.402 * (cr - 128))) ∧
        ((m.pix (3 * (16 * y + x) + 1)).toNat : ℤ) =
          clamp255 (rndReal (l - (202008 * (cb - 128) + 419198 * (cr - 128)) / 587000)) ∧
        ((m.pix (3 * (16 * y + x) + 2)).toNat : ℤ) = clamp255 (rndReal (l + 1.772 * (cb - 128)))) ∧
      (∀ a, (∀ x < 8 * yh, ∀ y < 8 * yv, ∀ c < 3, a ≠ pixAddr (3 * (16 * y + x) + c)) → m.read a = s.mem.read a)

/-- CSC_FWD writes the rounded luma of each pixel to its Y block and the mean of each group's rounded chroma, halves up, to slots 4
and 5, and changes nothing else (R301, R302, R304, R305). -/
def Obligations.CscFwdConvertsMcu : Prop :=
  ∀ (s : State) (yh yv : Nat), (yh, yv) ∈ legalLuma →
    let r (x y : Nat) : ℝ := (s.mem.pix (3 * (16 * y + x))).toNat
    let g (x y : Nat) : ℝ := (s.mem.pix (3 * (16 * y + x) + 1)).toNat
    let b (x y : Nat) : ℝ := (s.mem.pix (3 * (16 * y + x) + 2)).toNat
    let lf (x y : Nat) : ℤ := clamp255 (rndReal ((299 * r x y + 587 * g x y + 114 * b x y) / 1000))
    let cbf (x y : Nat) : ℤ := clamp255 (rndReal (128 + (-299 * r x y - 587 * g x y + 886 * b x y) / 1772))
    let crf (x y : Nat) : ℤ := clamp255 (rndReal (128 + (701 * r x y - 587 * g x y - 114 * b x y) / 1402))
    let mean (f : Nat → Nat → ℤ) (i j : Nat) : ℤ :=
      (∑ dy ∈ Finset.range yv, ∑ dx ∈ Finset.range yh, f (i * yh + dx) (j * yv + dy) + (yh * yv / 2 : ℕ)) / (yh * yv : ℕ)
    ∃ m, exec (.cscFwd (yh - 1) (yv - 1) 0 0) s = .next (doneState { s with mem := m }) ∧
      (∀ x < 8 * yh, ∀ y < 8 * yv, ((m.smp ((y / 8) * yh + x / 8) (y % 8 * 8 + x % 8)).toNat : ℤ) = lf x y) ∧
      (∀ i < 8, ∀ j < 8, ((m.smp 4 (8 * j + i)).toNat : ℤ) = mean cbf i j ∧ ((m.smp 5 (8 * j + i)).toNat : ℤ) = mean crf i j) ∧
      (∀ a, (∀ k < 64, (∀ n < yh * yv, a ≠ smpAddr n k) ∧ a ≠ smpAddr 4 k ∧ a ≠ smpAddr 5 k) →
        m.read a = s.mem.read a)

/-! ## Host accesses (40_host_access.md, 20_memory.md) -/

/-- A host access that is not four bytes, not aligned or not inside the window faults; any other has a next state (R141, R142, R149).
R149 speaks of a bad access that the platform still routes to the block; that every access among the inputs counts as routed, and so
faults here, is the model's reading (DEDUCED, log 15). -/
def Obligations.BadAccessFaults : Prop :=
  ∀ (s : State) (addr bytes : Nat) (v : Word) (rest : List Input), turnOf s = .host →
    let bad := bytes ≠ 4 ∨ addr % 4 ≠ 0 ∨ addr < s.params.base ∨ s.params.base + 0x2FFFF < addr
    (s.inputs = .read addr bytes :: rest ∨ s.inputs = .write addr bytes v :: rest) →
    (bad → step s = .fault (.busError addr bytes)) ∧ (¬bad → ∃ t, step s = .next t)

/-- A host read changes nothing of the block: only the pending inputs, the datum returned and the count of unspecified values
move (20_memory.md R87). -/
def Obligations.ReadHasNoSideEffect : Prop :=
  ∀ (s t : State) (addr bytes : Nat) (rest : List Input), s.inputs = .read addr bytes :: rest → hostStep s = .next t →
    ∃ v n, t = { s with inputs := rest, responses := v :: s.responses, draws := n }

/-- Reads exact at any time, BUSY or not: ID, CONFIG, CTRL, CMD, STATUS, ERRCODE (40_host_access.md R141, R144; 10_state.md R33,
R34, R35, R37, R38). -/
def Obligations.OpenRegistersReadExactly : Prop :=
  ∀ s : State, s.params.legal = true →
    let b (f : Bool) (k : Nat) : Nat := if f then 2 ^ k else 0
    Returns s 0x00 0x4A524531#32 ∧
    Returns s 0x04 (BitVec.ofNat 32
      (s.params.ibufLog2 + s.params.obufLog2 * 2 ^ 8 + b (s.params.transform == .exact) 16)) ∧
    Returns s 0x08 (BitVec.ofNat 32 (b s.ctrl.irqEn 1 + b s.ctrl.inFinal 2)) ∧
    Returns s 0x0C 0#32 ∧
    Returns s 0x10 (BitVec.ofNat 32 (b s.latch.isSome 0 + b s.status.done 1 + b s.status.err 2 + b s.status.needData 3 +
      b s.status.outFull 4 + b s.status.cmdDropped 5 + b s.status.accDropped 6)) ∧
    Returns s 0x14 s.errcode

/-- While BUSY, a write to protected state is dropped and sets ACC_DROPPED, and a read of it returns an unspecified value
(R143): the protected words are the cursors, the predictors, HT_VALID for reads, and the used words of the memories. The value is
the free value `Config.busyRead` (log 3); nothing here rests on what it is. -/
def Obligations.BusyBlockProtectsItsState : Prop :=
  ∀ (s : State) (off : Nat) (v : Word), s.busy = true → s.params.legal = true → off % 4 = 0 → off < 0x30000 →
    ¬reservedOffset s.params off →
    (off ∈ [0x20, 0x24, 0x28, 0x30, 0x34, 0x38, 0x40, 0x44, 0x48, 0x4C] ∨ 0x1000 ≤ off →
      hostStep { s with inputs := [wr s.params off v] } =
        .next { s with inputs := [], status := { s.status with accDropped := true } }) ∧
    (off ∈ [0x18, 0x20, 0x24, 0x28, 0x30, 0x34, 0x38, 0x40, 0x44, 0x48, 0x4C] ∨ 0x1000 ≤ off →
      hostStep { s with inputs := [rd s.params off] } =
        .next { s with inputs := [], responses := Config.busyRead s.draws :: s.responses, draws := s.draws + 1 })

/-- An idle host write to a used memory word stores its low bits in the element the engine reads there, IBUF and OBUF bytes in
little-endian order; it changes no other byte, and reads back as stored: zero-extended, but COEF sign-extended and IBUF and OBUF whole;
a write to Huffman table h clears HT_VALID bit h alone. An idle read of any such word returns the element as it stands, whoever wrote
it (10_state.md R50, R51, R54–R58; 20_memory.md R81). -/
def Obligations.HostMemoryWriteReadsBack : Prop :=
  ∀ (s : State) (v : Word), s.busy = false → s.params.legal = true →
    let b := v.extractLsb' 0 8
    let w := v.extractLsb' 0 16
    let unbuilt (h : Nat) := s.htValid &&& ~~~(1#8 <<< h)
    let ht (h o : Nat) := 0x2000 + 0x800 * h + 4 * o
    (∀ t < 4, ∀ k < 64, let off := 0x1000 + 4 * (64 * t + k)
      StoresAndReads s off v 2 s.htValid (fun m => m.qt t k = w) (w.setWidth 32) ∧
      Returns s off ((s.mem.qt t k).setWidth 32)) ∧
    (∀ h < 8, ∀ i < 16,
      StoresAndReads s (ht h i) v 1 (unbuilt h) (fun m => m.htBits h (i + 1) = b) (b.setWidth 32) ∧
      Returns s (ht h i) ((s.mem.htBits h (i + 1)).setWidth 32)) ∧
    (∀ h < 8, ∀ j < 256,
      StoresAndReads s (ht h (16 + j)) v 1 (unbuilt h) (fun m => m.htVal h j = b) (b.setWidth 32) ∧
      Returns s (ht h (16 + j)) ((s.mem.htVal h j).setWidth 32)) ∧
    (∀ h < 8,
      StoresAndReads s (ht h 272) v 2 (unbuilt h) (fun m => m.htNsym h = v.extractLsb' 0 9)
        ((v.extractLsb' 0 9).setWidth 32) ∧
      Returns s (ht h 272) ((s.mem.htNsym h).setWidth 32)) ∧
    (∀ n < 6, ∀ k < 64, let off := 0x6000 + 4 * (64 * n + k)
      StoresAndReads s off v 2 s.htValid (fun m => m.coef n k = w) (w.signExtend 32) ∧
      Returns s off ((s.mem.coef n k).signExtend 32)) ∧
    (∀ n < 6, ∀ i < 64, let off := 0x6800 + 4 * (64 * n + i)
      StoresAndReads s off v 1 s.htValid (fun m => m.smp n i = b) (b.setWidth 32) ∧
      Returns s off ((s.mem.smp n i).setWidth 32)) ∧
    (∀ i < 768, let off := 0x7000 + 4 * i
      StoresAndReads s off v 1 s.htValid (fun m => m.pix i = b) (b.setWidth 32) ∧
      Returns s off ((s.mem.pix i).setWidth 32)) ∧
    (∀ p, 4 * p < s.params.ibufBytes →
      StoresAndReads s (0x10000 + 4 * p) v 4 s.htValid (fun m => ∀ j < 4, m.ibuf (4 * p + j) = v.extractLsb' (8 * j) 8) v ∧
      Returns s (0x10000 + 4 * p)
        (s.mem.ibuf (4 * p + 3) ++ s.mem.ibuf (4 * p + 2) ++ s.mem.ibuf (4 * p + 1) ++ s.mem.ibuf (4 * p))) ∧
    (∀ p, 4 * p < s.params.obufBytes →
      StoresAndReads s (0x20000 + 4 * p) v 4 s.htValid (fun m => ∀ j < 4, m.obuf (4 * p + j) = v.extractLsb' (8 * j) 8) v ∧
      Returns s (0x20000 + 4 * p)
        (s.mem.obuf (4 * p + 3) ++ s.mem.obuf (4 * p + 2) ++ s.mem.obuf (4 * p + 1) ++ s.mem.obuf (4 * p)))

/-- Idle host writes to the cursor and predictor registers: positions and lengths clamp to their buffer, bit counts and WR_ACC take
low bits, predictors 16 bits. Idle reads return the values held, and HT_VALID, zero-extended, but the predictors sign-extended
(10_state.md R39–R46). -/
def Obligations.CursorRegistersStoreAsStated : Prop :=
  ∀ (s : State) (v : Word), s.busy = false → s.params.legal = true →
    let stored (off : Nat) (t : State) := hostStep { s with inputs := [wr s.params off v] } = .next { t with inputs := [] }
    stored 0x20 { s with rdPos := BitVec.ofNat 17 (min (v.toNat % 2 ^ 17) s.params.ibufBytes) } ∧
    stored 0x24 { s with rdBit := BitVec.ofNat 3 (v.toNat % 2 ^ 3) } ∧
    stored 0x28 { s with rdLen := BitVec.ofNat 17 (min (v.toNat % 2 ^ 17) s.params.ibufBytes) } ∧
    stored 0x30 { s with wrPos := BitVec.ofNat 17 (min (v.toNat % 2 ^ 17) s.params.obufBytes) } ∧
    stored 0x34 { s with wrBit := BitVec.ofNat 3 (v.toNat % 2 ^ 3) } ∧
    stored 0x38 { s with wrAcc := BitVec.ofNat 7 (v.toNat % 2 ^ 7) } ∧
    (∀ c < 4, stored (0x40 + 4 * c) { s with dcPred := s.dcPred.set c (BitVec.ofNat 16 (v.toNat % 2 ^ 16)) }) ∧
    Returns s 0x18 (BitVec.ofNat 32 s.htValid.toNat) ∧ Returns s 0x20 (BitVec.ofNat 32 s.rdPos.toNat) ∧
    Returns s 0x24 (BitVec.ofNat 32 s.rdBit.toNat) ∧ Returns s 0x28 (BitVec.ofNat 32 s.rdLen.toNat) ∧
    Returns s 0x30 (BitVec.ofNat 32 s.wrPos.toNat) ∧ Returns s 0x34 (BitVec.ofNat 32 s.wrBit.toNat) ∧
    Returns s 0x38 (BitVec.ofNat 32 s.wrAcc.toNat) ∧
    (∀ c < 4, Returns s (0x40 + 4 * c) (BitVec.ofInt 32 (s.dcPred.get c).toInt))

/-- Reserved offsets read 0 and ignore writes, without side effect (20_memory.md R84). -/
def Obligations.ReservedOffsetsReadZero : Prop :=
  ∀ (s : State) (off : Nat) (v : Word), s.params.legal = true → reservedOffset s.params off →
    Returns s off 0#32 ∧
    hostStep { s with inputs := [wr s.params off v] } = .next { s with inputs := [] }

/-- Writes to ID, CONFIG, ERRCODE and HT_VALID have no effect and set no flag, whether BUSY or not (R145). -/
def Obligations.ReadOnlyRegistersIgnoreWrites : Prop :=
  ∀ (s : State) (v : Word), ∀ off ∈ [0x00, 0x04, 0x14, 0x18], s.params.legal = true →
    hostStep { s with inputs := [wr s.params off v] } = .next { s with inputs := [] }

/-- A CMD write while BUSY or ERR is dropped and sets CMD_DROPPED; any other is accepted: the word and IN_FINAL are latched, DONE,
NEED_DATA and OUT_FULL cleared, BUSY set (R146). -/
def Obligations.CommandIssue : Prop :=
  ∀ (s : State) (cw : Word), s.params.legal = true →
    (s.busy = true ∨ s.status.err = true →
      hostStep { s with inputs := [wr s.params 0x0C cw] } =
        .next { s with inputs := [], status := { s.status with cmdDropped := true } }) ∧
    (s.busy = false → s.status.err = false →
      hostStep { s with inputs := [wr s.params 0x0C cw] } =
        .next { s with
          inputs := [], latch := some ⟨cw, s.ctrl.inFinal⟩,
          status := { s.status with done := false, needData := false, outFull := false } })

/-- A STATUS write clears each of the flags 1 to 6 whose bit is 1, leaves the other bits of STATUS, BUSY included, and changes
nothing else, while BUSY too (R147). -/
def Obligations.StatusWriteOneClears : Prop :=
  ∀ (s : State) (v : Word), s.params.legal = true →
    ∃ f, hostStep { s with inputs := [wr s.params 0x10 v] } = .next { s with inputs := [], status := f } ∧
      ∀ k, (statusWord s.busy f).getLsbD k =
        ((statusWord s.busy s.status).getLsbD k && !(decide (1 ≤ k ∧ k ≤ 6) && v.getLsbD k))

/-- A CTRL write stores bits 1 and 2; with bit 0 set it soft-resets first: registers, HT_VALID and predictors are cleared and a
running command is cancelled, while the memories are kept (R148, 70_reset_and_hazards.md R391, R392). -/
def Obligations.CtrlWriteAndSoftReset : Prop :=
  ∀ (s : State) (v : Word), s.params.legal = true →
    let c : Ctrl := ⟨v.getLsbD 1, v.getLsbD 2⟩
    (v.getLsbD 0 = false →
      hostStep { s with inputs := [wr s.params 0x08 v] } = .next { s with inputs := [], ctrl := c }) ∧
    (v.getLsbD 0 = true →
      hostStep { s with inputs := [wr s.params 0x08 v] } =
        .next { s with
          inputs := [], ctrl := c, status := ⟨false, false, false, false, false, false⟩, latch := none, errcode := 0#32,
          htValid := 0#8, rdPos := 0#17, rdBit := 0#3, rdLen := 0#17, wrPos := 0#17, wrBit := 0#3, wrAcc := 0#7,
          dcPred := ⟨0#16, 0#16, 0#16, 0#16⟩ })

/-! ## Errors, interrupt, reset (60_exceptions.md, 70_reset_and_hazards.md) -/

/-- ERRCODE changes only on an engine step that raises an error, or on a host step that resets the block: the platform's reset
input, or a write to CTRL with bit 0 set (10_state.md R38, R35; 70_reset_and_hazards.md R390, R391). The reset input among the
inputs is the model's (DESIGN CHOICE, log 11). -/
def Obligations.ErrcodeKeepsItsValue : Prop :=
  ∀ s t : State, step s = .next t → t.errcode ≠ s.errcode →
    (turnOf s = .engine ∧ s.busy = true ∧ t.status.err = true ∧ ∃ op e d, t = errorState (afterTurn s) op e d) ∨
    (turnOf s = .host ∧ t.errcode = 0#32 ∧ t.status = ⟨false, false, false, false, false, false⟩ ∧ t.busy = false ∧
      ((∃ rest, s.inputs = .powerOnReset :: rest) ∨
       ∃ v rest, s.inputs = .write (s.params.base + 0x08) 4 v :: rest ∧ v.getLsbD 0 = true))

/-- HT_VALID bit h is set only by an HT_BUILD of table h whose checks pass (10_state.md R39). -/
def Obligations.OnlyHtBuildValidates : Prop :=
  ∀ (s t : State) (h : Nat), step s = .next t → s.htValid.getLsbD h = false → t.htValid.getLsbD h = true →
    turnOf s = .engine ∧ ∃ l cls id, s.latch = some l ∧ decode l.cw = .ok (.htBuild cls id) ∧
      h = 4 * (if cls = .ac then 1 else 0) + id ∧ checkTable s.mem h = .ok ()

/-- The IRQ line is IRQ_EN and any of the completion flags, bits 1 to 4 of STATUS; the dropped flags do not drive it (R360). -/
def Obligations.IrqIsEnabledCompletionFlag : Prop :=
  ∀ s : State,
    (s.irq = true ↔ s.ctrl.irqEn = true ∧ ∃ k, 1 ≤ k ∧ k ≤ 4 ∧ (statusWord s.busy s.status).getLsbD k = true) ∧
    ∀ f : Status, f.done = s.status.done → f.err = s.status.err → f.needData = s.status.needData →
      f.outFull = s.status.outFull → ({ s with status := f } : State).irq = s.irq

/-- After power-on reset each register reads its tabled value (70_reset_and_hazards.md R390; the parameters are the defaults of
00_scope.md R8). -/
def Obligations.ResetRegistersRead : Prop :=
  (∀ p ∈ ([(0x00, 0x4A524531#32), (0x04, 0x00010F0F#32), (0x08, 0#32), (0x0C, 0#32), (0x10, 0#32), (0x14, 0#32), (0x18, 0#32),
      (0x20, 0#32), (0x24, 0#32), (0x28, 0#32), (0x30, 0#32), (0x34, 0#32), (0x38, 0#32), (0x40, 0#32), (0x44, 0#32),
      (0x48, 0#32), (0x4C, 0#32)] : List (Nat × Word)),
    hostStep { State.reset with inputs := [rd State.reset.params p.1] } =
      .next { State.reset with responses := [p.2] }) ∧
  State.reset.busy = false ∧ State.reset.irq = false

/-- The platform's reset input brings every register to its reset value, leaves the engine idle, and draws the memories anew
(70_reset_and_hazards.md R390; the input and the count of power cycles are the model's, logs 1 and 11). -/
def Obligations.PowerOnResetClearsRegisters : Prop :=
  ∀ (s : State) (rest : List Input), s.inputs = .powerOnReset :: rest →
    ∃ t, hostStep s = .next t ∧
      t = { State.reset with
        params := s.params, mem := t.mem, inputs := rest, schedule := s.schedule, responses := s.responses,
        draws := s.draws } ∧
      ∀ a, t.mem.read a = Config.powerOnByte (s.mem.epoch + 1) a

/-- Reset meets the invariant. -/
def Obligations.ResetMeetsInvariant : Prop := State.reset.Inv

/-- Every step keeps the invariant: legal parameters, canonical memory, cursors inside their buffers, every table HT_VALID calls
built still passing its checks, no completion flag while busy, ERRCODE's reserved byte 0 (10_state.md R38–R43; 20_memory.md R95;
60_exceptions.md R371). -/
def Obligations.StepKeepsInvariant : Prop := ∀ s t : State, s.Inv → step s = .next t → t.Inv

/-! ## Host software (48_host_software.md) -/

/-- Higher quality never gives a larger quantizer entry (R335). -/
def Obligations.QualityIsMonotone : Prop :=
  ∀ q1 q2 b : Nat, 1 ≤ q1 → q1 < q2 → q2 ≤ 100 → qualityEntry q2 b ≤ qualityEntry q1 b
end

