-- ==== Sys2Proof/Laws/Arith.lean ====
section
/-! SUPPORT. The exact arithmetic of the transforms means what it says: each sum of cosines has its value in the reals, and its
sign, floor and rounding are those of that value. -/

namespace Sys2Proof.Machine

/-! ## The three square roots -/

/-- √2 = 2cos(4π/16). -/
noncomputable def rootS : ℝ := √2

/-- √(2+√2) = 2cos(2π/16). -/
noncomputable def rootT : ℝ := √(2 + √2)

/-- √(2+√(2+√2)) = 2cos(π/16). -/
noncomputable def rootW : ℝ := √(2 + √(2 + √2))

theorem rootS_sq : rootS * rootS = 2 := Real.mul_self_sqrt (by norm_num)
theorem rootT_sq : rootT * rootT = 2 + rootS := Real.mul_self_sqrt (by positivity)
theorem rootW_sq : rootW * rootW = 2 + rootT := Real.mul_self_sqrt (by positivity)
theorem rootS_pos : 0 < rootS := Real.sqrt_pos.mpr (by norm_num)
theorem rootT_pos : 0 < rootT := Real.sqrt_pos.mpr (by positivity)
theorem rootW_pos : 0 < rootW := Real.sqrt_pos.mpr (by positivity)
theorem rootS_lt : rootS < 2 := by nlinarith [rootS_sq, rootS_pos]
theorem rootT_lt : rootT < 2 := by nlinarith [rootT_sq, rootT_pos, rootS_lt]
theorem rootW_lt : rootW < 2 := by nlinarith [rootW_sq, rootW_pos, rootT_lt]

/-! ## Values -/

noncomputable def Quad1.value (x : Quad1) : ℝ := x.a + x.b * rootS
noncomputable def Quad2.value (x : Quad2) : ℝ := x.a.value + x.b.value * rootT
noncomputable def Quad3.value (x : Quad3) : ℝ := x.a.value + x.b.value * rootW

/-- The value of a sum of cosines: Σ cⱼ · 2cos(jπ/16). -/
noncomputable def CosSum.value (x : CosSum) : ℝ :=
  2 * (x.c0 * Real.cos (0 * Real.pi / 16) + x.c1 * Real.cos (1 * Real.pi / 16) + x.c2 * Real.cos (2 * Real.pi / 16) +
    x.c3 * Real.cos (3 * Real.pi / 16) + x.c4 * Real.cos (4 * Real.pi / 16) + x.c5 * Real.cos (5 * Real.pi / 16) +
    x.c6 * Real.cos (6 * Real.pi / 16) + x.c7 * Real.cos (7 * Real.pi / 16))

theorem Quad1.value_sub (x y : Quad1) : (x.sub y).value = x.value - y.value := by
  simp only [Quad1.value, Quad1.sub]; push_cast; ring
theorem Quad1.value_add (x y : Quad1) : (x.add y).value = x.value + y.value := by
  simp only [Quad1.value, Quad1.add]; push_cast; ring
theorem Quad1.value_mul (x y : Quad1) : (x.mul y).value = x.value * y.value := by
  simp only [Quad1.value, Quad1.mul]; push_cast
  linear_combination -(x.b * y.b : ℝ) * rootS_sq
theorem Quad1.value_root : Quad1.root.value = rootT * rootT := by
  simp [Quad1.value, Quad1.root, rootT_sq]
theorem Quad2.value_sub (x y : Quad2) : (x.sub y).value = x.value - y.value := by
  simp only [Quad2.value, Quad2.sub, Quad1.value_sub]; ring
theorem Quad2.value_mul (x y : Quad2) : (x.mul y).value = x.value * y.value := by
  simp only [Quad2.value, Quad2.mul, Quad1.value_add, Quad1.value_mul, Quad1.value_root]; ring
theorem Quad2.value_root : Quad2.root.value = rootW * rootW := by
  simp [Quad2.value, Quad2.root, Quad1.value, rootW_sq]

/-! ## Signs -/

/-- The integer `n` is the sign of the real `v`. -/
def SignOf (n : Int) (v : ℝ) : Prop := (n = 1 ∧ 0 < v) ∨ (n = 0 ∧ v = 0) ∨ (n = -1 ∧ v < 0)

theorem signOf_int (n : Int) : SignOf n.sign n := by
  rcases lt_trichotomy n 0 with h | rfl | h
  · exact .inr (.inr ⟨Int.sign_eq_neg_one_of_neg h, by exact_mod_cast h⟩)
  · exact .inr (.inl ⟨rfl, by simp⟩)
  · exact .inl ⟨Int.sign_eq_one_of_pos h, by exact_mod_cast h⟩

/-- The sign of p + q·r from those of p, q and p² - q²·r². -/
theorem signOf_root {sp sq sd : Int} {p q r : ℝ} (hr : 0 < r) (hp : SignOf sp p) (hq : SignOf sq q)
    (hd : SignOf sd (p * p - q * q * (r * r))) : SignOf (signOfRoot sp sq sd) (p + q * r) := by
  have key : p * p - q * q * (r * r) = (p + q * r) * (p - q * r) := by ring
  rw [key] at hd
  rcases hq with ⟨rfl, hq⟩ | ⟨rfl, rfl⟩ | ⟨rfl, hq⟩
  · have hqr : 0 < q * r := mul_pos hq hr
    rcases hp with ⟨rfl, hp⟩ | ⟨rfl, rfl⟩ | ⟨rfl, hp⟩
    · exact .inl ⟨by simp [signOfRoot], by linarith⟩
    · exact .inl ⟨by simp [signOfRoot], by linarith⟩
    · have hneg : p - q * r < 0 := by linarith
      rcases hd with ⟨rfl, hd⟩ | ⟨rfl, hd⟩ | ⟨rfl, hd⟩
      · exact .inr (.inr ⟨by simp [signOfRoot], by nlinarith⟩)
      · exact .inr (.inl ⟨by simp [signOfRoot], by
          rcases mul_eq_zero.mp hd with h | h
          · exact h
          · linarith⟩)
      · exact .inl ⟨by simp [signOfRoot], by nlinarith⟩
  · simpa [signOfRoot] using hp
  · have hqr : q * r < 0 := mul_neg_of_neg_of_pos hq hr
    rcases hp with ⟨rfl, hp⟩ | ⟨rfl, rfl⟩ | ⟨rfl, hp⟩
    · have hpos : 0 < p - q * r := by linarith
      rcases hd with ⟨rfl, hd⟩ | ⟨rfl, hd⟩ | ⟨rfl, hd⟩
      · exact .inl ⟨by simp [signOfRoot], by nlinarith⟩
      · exact .inr (.inl ⟨by simp [signOfRoot], by
          rcases mul_eq_zero.mp hd with h | h
          · exact h
          · linarith⟩)
      · exact .inr (.inr ⟨by simp [signOfRoot], by nlinarith⟩)
    · exact .inr (.inr ⟨by simp [signOfRoot], by linarith⟩)
    · exact .inr (.inr ⟨by simp [signOfRoot], by linarith⟩)

theorem Quad1.sign_spec (x : Quad1) : SignOf x.sign x.value := by
  refine signOf_root rootS_pos (signOf_int _) (signOf_int _) ?_
  have := signOf_int (x.a * x.a - 2 * (x.b * x.b))
  rw [rootS_sq]; push_cast at this; convert this using 1; ring

theorem Quad2.sign_spec (x : Quad2) : SignOf x.sign x.value := by
  refine signOf_root rootT_pos (Quad1.sign_spec _) (Quad1.sign_spec _) ?_
  have := Quad1.sign_spec ((x.a.mul x.a).sub ((x.b.mul x.b).mul Quad1.root))
  rwa [Quad1.value_sub, Quad1.value_mul, Quad1.value_mul, Quad1.value_mul, Quad1.value_root] at this

/-- The sign of an exact number is the sign of its value. -/
theorem Quad3.sign_spec (x : Quad3) : SignOf x.sign x.value := by
  refine signOf_root rootW_pos (Quad2.sign_spec _) (Quad2.sign_spec _) ?_
  have := Quad2.sign_spec ((x.a.mul x.a).sub ((x.b.mul x.b).mul Quad2.root))
  rwa [Quad2.value_sub, Quad2.value_mul, Quad2.value_mul, Quad2.value_mul, Quad2.value_root] at this

theorem Quad3.sign_nonneg (x : Quad3) : 0 ≤ x.sign ↔ 0 ≤ x.value := by
  rcases x.sign_spec with ⟨h, hv⟩ | ⟨h, hv⟩ | ⟨h, hv⟩ <;> rw [h] <;> constructor <;> intro hh <;> linarith

theorem Quad3.value_affine (x : Quad3) (m n : Int) : (x.affine m n).value = m * x.value + n := by
  simp only [Quad3.value, Quad2.value, Quad1.value, Quad3.affine]; push_cast; ring

/-! ## Floor and rounding -/

theorem Quad3.value_le_bound (x : Quad3) : x.value ≤ x.bound := by
  have h (n : Int) (r c : ℝ) (hr : 0 ≤ r) (hc : r ≤ c) : (n : ℝ) * r ≤ c * (n.natAbs : ℝ) := by
    have hn : (n : ℝ) ≤ n.natAbs := by rw [Nat.cast_natAbs]; exact_mod_cast le_abs_self n
    have h0 : (0 : ℝ) ≤ n.natAbs := by positivity
    nlinarith
  have hs := rootS_pos; have ht := rootT_pos; have hw := rootW_pos
  have hs' := rootS_lt; have ht' := rootT_lt; have hw' := rootW_lt
  have hst : rootS * rootT ≤ 4 := by nlinarith
  have hsw : rootS * rootW ≤ 4 := by nlinarith
  have htw : rootT * rootW ≤ 4 := by nlinarith
  have hstw : rootS * rootT * rootW ≤ 8 := by nlinarith [mul_pos hs ht]
  have e1 := h x.a.a.a 1 1 (by norm_num) le_rfl
  have e2 := h x.a.a.b rootS 2 hs.le hs'.le
  have e3 := h x.a.b.a rootT 2 ht.le ht'.le
  have e4 := h x.a.b.b (rootS * rootT) 4 (by positivity) hst
  have e5 := h x.b.a.a rootW 2 hw.le hw'.le
  have e6 := h x.b.a.b (rootS * rootW) 4 (by positivity) hsw
  have e7 := h x.b.b.a (rootT * rootW) 4 (by positivity) htw
  have e8 := h x.b.b.b (rootS * rootT * rootW) 8 (by positivity) hstw
  simp only [Quad3.value, Quad2.value, Quad1.value, Quad3.bound]
  push_cast
  linarith

/-- The search keeps what it has found, and finds the floor if it lies below its reach. -/
theorem Quad3.searchFloor_spec (x : Quad3) (d : Nat) (n acc : Nat) (h1 : (acc * d : ℝ) ≤ x.value)
    (h2 : x.value < (acc + 2 ^ n) * d) :
    ((x.searchFloor d n acc : ℝ) * d ≤ x.value) ∧ x.value < (x.searchFloor d n acc + 1) * d := by
  induction n generalizing acc with
  | zero => exact ⟨h1, by simpa [Quad3.searchFloor] using h2⟩
  | succ n ih =>
    rw [Quad3.searchFloor]
    split
    · rename_i hs
      rw [Quad3.sign_nonneg, Quad3.value_affine] at hs
      push_cast at hs
      exact ih _ (by push_cast; linarith) (by push_cast; rw [pow_succ] at h2; linarith)
    · rename_i hs
      rw [Quad3.sign_nonneg, Quad3.value_affine] at hs
      push_cast at hs
      exact ih _ h1 (by linarith)

theorem lt_two_pow_bitlen (n : Nat) : n < 2 ^ bitlen n := by
  unfold bitlen
  split
  · simp_all
  · exact Nat.lt_log2_self

theorem Quad3.floorDiv_spec (x : Quad3) (d : Nat) (hd : 0 < d) (h : 0 ≤ x.value) :
    (x.floorDiv d : Int) = ⌊x.value / d⌋ := by
  have hd' : (0 : ℝ) < d := by exact_mod_cast hd
  have hb : x.value < (((0 : Nat) : ℝ) + 2 ^ bitlen (x.bound / d)) * d := by
    have h1 : x.bound < 2 ^ bitlen (x.bound / d) * d := by
      have := lt_two_pow_bitlen (x.bound / d)
      rw [Nat.div_lt_iff_lt_mul hd] at this
      exact this
    have h2 : (x.bound : ℝ) < 2 ^ bitlen (x.bound / d) * d := by exact_mod_cast h1
    have := x.value_le_bound
    push_cast; linarith
  obtain ⟨l, u⟩ := x.searchFloor_spec d (bitlen (x.bound / d)) 0 (by simpa using h) hb
  symm
  rw [Int.floor_eq_iff]
  constructor
  · rw [le_div_iff₀ hd']; exact_mod_cast l
  · rw [div_lt_iff₀ hd']; exact_mod_cast u

/-- The exact rounding is rnd of the value. -/
theorem Quad3.rndDiv_spec (x : Quad3) (d : Nat) (hd : 0 < d) : x.rndDiv d = rndReal (x.value / d) := by
  have hd' : (0 : ℝ) < d := by exact_mod_cast hd
  unfold Quad3.rndDiv rndReal
  have hs : 0 ≤ x.sign ↔ 0 ≤ x.value / d := by
    rw [Quad3.sign_nonneg]
    constructor
    · intro h; positivity
    · intro h; by_contra hn; push Not at hn; exact absurd (div_neg_of_neg_of_pos hn hd') (not_lt.mpr h)
  by_cases h : 0 ≤ x.sign
  · have hv : 0 ≤ x.value := x.sign_nonneg.mp h
    rw [if_pos h, if_pos (hs.mp h), Quad3.floorDiv_spec _ _ (by omega) (by rw [Quad3.value_affine]; push_cast; nlinarith)]
    rw [Quad3.value_affine]; congr 1; push_cast; field_simp
  · have hv : x.value < 0 := by by_contra hn; exact h (x.sign_nonneg.mpr (not_lt.mp hn))
    rw [if_neg h, if_neg (fun h' => h (hs.mpr h')),
      Quad3.floorDiv_spec _ _ (by omega) (by rw [Quad3.value_affine]; push_cast; nlinarith)]
    rw [Quad3.value_affine]; congr 2; push_cast; field_simp

end Sys2Proof.Machine
end

