-- ==== Sys2Proof/Laws/Cosines.lean ====
section
/-! SUPPORT. The exact transforms are the real ones of 43_transform.md R262: adding a term adds its cosine, the two passes are the
double sum, and the rounding of the result is rnd of that sum. -/

namespace Sys2Proof.Machine

/-- 2·cos(kπ/16). -/
noncomputable def cos2 (k : ℤ) : ℝ := 2 * Real.cos (k * Real.pi / 16)

theorem cos2_neg (k : ℤ) : cos2 (-k) = cos2 k := by
  unfold cos2; rw [← Real.cos_neg]; congr 2; push_cast; ring

theorem cos2_period (k : ℤ) (q : ℤ) : cos2 (k + 32 * q) = cos2 k := by
  unfold cos2; rw [← Real.cos_add_int_mul_two_pi (k * Real.pi / 16) q]; congr 2; push_cast; ring

theorem cos2_half (k : ℤ) : cos2 (16 - k) = -cos2 k := by
  unfold cos2
  rw [show ((16 - k : ℤ) : ℝ) * Real.pi / 16 = Real.pi - k * Real.pi / 16 by push_cast; ring, Real.cos_pi_sub]; ring

theorem cos2_eight : cos2 8 = 0 := by
  unfold cos2; rw [show ((8 : ℤ) : ℝ) * Real.pi / 16 = Real.pi / 2 by push_cast; ring, Real.cos_pi_div_two]; ring

/-- 2cos α · 2cos β = 2cos(α+β) + 2cos(α-β). -/
theorem cos2_mul (j k : ℤ) : cos2 j * cos2 k = cos2 (j + k) + cos2 (j - k) := by
  unfold cos2
  rw [show ((j + k : ℤ) : ℝ) * Real.pi / 16 = j * Real.pi / 16 + k * Real.pi / 16 by push_cast; ring,
    show ((j - k : ℤ) : ℝ) * Real.pi / 16 = j * Real.pi / 16 - k * Real.pi / 16 by push_cast; ring,
    Real.cos_add, Real.cos_sub]; ring

theorem CosSum.value_eq (x : CosSum) : x.value =
    x.c0 * cos2 0 + x.c1 * cos2 1 + x.c2 * cos2 2 + x.c3 * cos2 3 + x.c4 * cos2 4 + x.c5 * cos2 5 + x.c6 * cos2 6 +
      x.c7 * cos2 7 := by
  simp only [CosSum.value, cos2]; push_cast; ring

theorem cos2_mod (k : ℕ) : cos2 k = cos2 ((k % 32 : ℕ) : ℤ) := by
  conv_lhs => rw [show (k : ℤ) = ((k % 32 : ℕ) : ℤ) + 32 * ((k / 32 : ℕ) : ℤ) by omega]
  exact cos2_period _ _

/-- Adding a term adds its cosine. -/
theorem CosSum.value_addTerm (a : CosSum) (n : Int) (k : Nat) : (a.addTerm n k).value = a.value + n * cos2 k := by
  have hr : k % 32 < 32 := Nat.mod_lt _ (by norm_num)
  have h16 (j : ℤ) : cos2 (32 - j) = cos2 j := by
    rw [← cos2_neg, show -(32 - j) = j + 32 * (-1) by ring, cos2_period]
  have hm (j : ℤ) : cos2 (16 + j) = -cos2 j := by
    rw [show (16 + j) = 16 - (-j) by ring, cos2_half, cos2_neg]
  rw [cos2_mod k, CosSum.value_eq, CosSum.value_eq]
  unfold CosSum.addTerm
  generalize k % 32 = r at hr
  have e8 := cos2_eight
  have a9 := cos2_half 7; have a10 := cos2_half 6; have a11 := cos2_half 5; have a12 := cos2_half 4
  have a13 := cos2_half 3; have a14 := cos2_half 2; have a15 := cos2_half 1; have a16 := cos2_half 0
  have b17 := hm 1; have b18 := hm 2; have b19 := hm 3; have b20 := hm 4; have b21 := hm 5; have b22 := hm 6
  have b23 := hm 7; have b24 := hm 8
  have c25 := h16 7; have c26 := h16 6; have c27 := h16 5; have c28 := h16 4; have c29 := h16 3; have c30 := h16 2
  have c31 := h16 1
  norm_num at a9 a10 a11 a12 a13 a14 a15 a16 b17 b18 b19 b20 b21 b22 b23 b24 c25 c26 c27 c28 c29 c30 c31
  interval_cases r <;> push_cast <;>
    (try simp only [e8, a9, a10, a11, a12, a13, a14, a15, a16, b17, b18, b19, b20, b21, b22, b23, b24, c25, c26, c27,
      c28, c29, c30, c31]) <;> ring

theorem CosSum.value_zero : CosSum.zero.value = 0 := by simp [CosSum.value_eq, CosSum.zero]

theorem CosSum.value_addProduct (a : CosSum) (n : Int) (j k : Nat) :
    (a.addProduct n j k).value = a.value + n * (cos2 j * cos2 k) := by
  rw [CosSum.addProduct, CosSum.value_addTerm, CosSum.value_addTerm, cos2_mul]
  have : cos2 ((j + (32 - k % 32) : ℕ) : ℤ) = cos2 ((j : ℤ) - k) := by
    rw [← cos2_period ((j : ℤ) - k) (k / 32 + 1)]; congr 1; omega
  rw [this]; push_cast; ring

/-- Multiplying a sum by a cosine. -/
theorem CosSum.value_addScaled (a b : CosSum) (k : Nat) : (a.addScaled b k).value = a.value + b.value * cos2 k := by
  simp only [CosSum.addScaled, CosSum.value_addProduct]
  rw [CosSum.value_eq b]; push_cast; ring

theorem CosSum.value_foldl {α : Type} (f : α → Int) (g : α → Nat) (l : List α) (a : CosSum) :
    (l.foldl (fun a x => a.addTerm (f x) (g x)) a).value = a.value + (l.map fun x => (f x : ℝ) * cos2 (g x)).sum := by
  induction l generalizing a with
  | nil => simp
  | cons x rest ih => simp only [List.foldl_cons, List.map_cons, List.sum_cons]; rw [ih, CosSum.value_addTerm]; ring

theorem CosSum.value_foldl_scaled {α : Type} (f : α → CosSum) (g : α → Nat) (l : List α) (a : CosSum) :
    (l.foldl (fun a x => a.addScaled (f x) (g x)) a).value = a.value + (l.map fun x => (f x).value * cos2 (g x)).sum := by
  induction l generalizing a with
  | nil => simp
  | cons x rest ih => simp only [List.foldl_cons, List.map_cons, List.sum_cons]; rw [ih, CosSum.value_addScaled]; ring

/-! ## The field -/

theorem cos2_four : cos2 4 = rootS := by
  unfold cos2 rootS
  rw [show ((4 : ℤ) : ℝ) * Real.pi / 16 = Real.pi / 4 by push_cast; ring, Real.cos_pi_div_four]; ring

theorem cos2_two : cos2 2 = rootT := by
  unfold cos2 rootT
  rw [show ((2 : ℤ) : ℝ) * Real.pi / 16 = Real.pi / 8 by push_cast; ring, Real.cos_pi_div_eight]; ring

theorem cos2_one : cos2 1 = rootW := by
  unfold cos2 rootW
  rw [show ((1 : ℤ) : ℝ) * Real.pi / 16 = Real.pi / 16 by push_cast; ring, Real.cos_pi_div_sixteen]; ring

theorem cos2_zero : cos2 0 = 2 := by simp [cos2]

/-- The change to square roots keeps the value. -/
theorem CosSum.value_toQuad (x : CosSum) : x.toQuad.value = x.value := by
  have h3 : cos2 3 = rootW * (rootT - 1) := by
    have := cos2_mul 2 1; norm_num at this; rw [cos2_two, cos2_one] at this; linarith
  have h5 : cos2 5 = rootW * (rootS - rootT + 1) := by
    have := cos2_mul 4 1; norm_num at this; rw [cos2_four, cos2_one, h3] at this; linarith
  have h6 : cos2 6 = rootT * (rootS - 1) := by
    have := cos2_mul 4 2; norm_num at this; rw [cos2_four, cos2_two] at this; linarith
  have h7 : cos2 7 = rootW * (rootT * rootS - rootS - 1) := by
    have := cos2_mul 6 1; norm_num at this; rw [h6, cos2_one, h5] at this; linarith
  rw [CosSum.value_eq, cos2_zero, cos2_one, cos2_two, h3, cos2_four, h5, h6, h7]
  simp only [CosSum.toQuad, Quad3.value, Quad2.value, Quad1.value]; push_cast; ring

/-- The basis of the DCT: `cos2 (angle x u)` is 2·C(u)·cos((2x+1)uπ/16), with C(0) = 1/√2 (43_transform.md R262). -/
theorem cos2_angle (x u : Nat) : cos2 (angle x u) =
    2 * (if u = 0 then 1 / √2 else 1) * Real.cos ((2 * x + 1) * u * Real.pi / 16) := by
  unfold angle
  split
  · rename_i h; subst h
    rw [show ((4 : ℕ) : ℤ) = 4 from rfl, cos2_four, rootS]
    have : (√2 : ℝ) * √2 = 2 := Real.mul_self_sqrt (by norm_num)
    simp only [Nat.cast_zero, mul_zero, zero_mul, zero_div, Real.cos_zero, mul_one]
    field_simp; linarith
  · unfold cos2; push_cast; ring_nf

end Sys2Proof.Machine
end

