-- ==== Sys2Proof/Laws/Memory.lean ====
section
/-! SUPPORT. The laws of memory: read after write, stores elsewhere, and the canonical form every operation keeps. -/

namespace Sys2Proof.Machine

theorem lookupCell_insertCell (l : List Host.Cell) (a : Nat) (b : Byte) (x : Nat) :
    lookupCell (insertCell l a b) x = if x = a then some b else lookupCell l x := by
  induction l with
  | nil => simp [insertCell, lookupCell, eq_comm]
  | cons hd rest ih =>
    obtain ⟨k, c⟩ := hd
    simp only [insertCell]
    split
    · simp [lookupCell, eq_comm]
    · split
      · rename_i hk
        subst hk
        by_cases h : x = a
        · simp [lookupCell, h]
        · simp [lookupCell, h, Ne.symm h]
      · simp only [lookupCell, ih]
        split_ifs <;> simp_all

/-- Inserting keeps the addresses strictly rising. -/
theorem risingFrom_insertCell (l : List Host.Cell) (lo a : Nat) (b : Byte) (h : risingFrom lo l = true) (ha : lo ≤ a) :
    risingFrom lo (insertCell l a b) = true := by
  induction l generalizing lo with
  | nil => simp [insertCell, risingFrom, ha]
  | cons hd rest ih =>
    obtain ⟨k, c⟩ := hd
    simp only [risingFrom, Bool.and_eq_true, decide_eq_true_eq] at h
    simp only [insertCell]
    split_ifs with h1 h2
    · simp [risingFrom, ha, h.2]; omega
    · subst h2; simp [risingFrom, ha, h.2]
    · simp only [risingFrom, Bool.and_eq_true, decide_eq_true_eq]
      exact ⟨h.1, ih (k + 1) h.2 (by omega)⟩

namespace Memory

@[simp] theorem write_epoch (m : Memory) (a : Nat) (b : Byte) : (m.write a b).epoch = m.epoch := rfl

/-- Reading after a write: the written byte there, the old byte elsewhere. -/
theorem read_write (m : Memory) (a : Nat) (b : Byte) (x : Nat) :
    (m.write a b).read x = if x = a then b else m.read x := by
  simp only [Memory.read, Memory.write, lookupCell_insertCell]
  split_ifs <;> rfl

@[simp] theorem read_write_same (m : Memory) (a : Nat) (b : Byte) : (m.write a b).read a = b := by simp [read_write]

theorem read_write_other (m : Memory) (a : Nat) (b : Byte) {x : Nat} (h : x ≠ a) :
    (m.write a b).read x = m.read x := by simp [read_write, h]

theorem wf_write (m : Memory) (a : Nat) (b : Byte) (h : m.wf = true) : (m.write a b).wf = true :=
  risingFrom_insertCell m.cells 0 a b h (Nat.zero_le a)

@[simp] theorem writeAll_nil (m : Memory) : m.writeAll [] = m := rfl

@[simp] theorem writeAll_cons (m : Memory) (a : Nat) (b : Byte) (l : List Host.Cell) :
    m.writeAll ((a, b) :: l) = (m.write a b).writeAll l := rfl

theorem writeAll_append (m : Memory) (l l' : List Host.Cell) :
    m.writeAll (l ++ l') = (m.writeAll l).writeAll l' := by
  induction l generalizing m with
  | nil => rfl
  | cons hd rest ih => exact ih _

@[simp] theorem writeAll_epoch (m : Memory) (l : List Host.Cell) : (m.writeAll l).epoch = m.epoch := by
  induction l generalizing m with
  | nil => rfl
  | cons hd rest ih => exact ih (m.write hd.1 hd.2)

/-- Every list of stores keeps the canonical form. -/
theorem wf_writeAll (m : Memory) (l : List Host.Cell) (h : m.wf = true) : (m.writeAll l).wf = true := by
  induction l generalizing m with
  | nil => exact h
  | cons hd rest ih => exact ih _ (wf_write m hd.1 hd.2 h)

/-- A byte no store names reads as before. -/
theorem read_writeAll_other (m : Memory) (l : List Host.Cell) (x : Nat) (h : ∀ c ∈ l, c.1 ≠ x) :
    (m.writeAll l).read x = m.read x := by
  induction l generalizing m with
  | nil => rfl
  | cons hd rest ih =>
    have hx : x ≠ hd.1 := fun e => h hd (by simp) e.symm
    rw [show m.writeAll (hd :: rest) = (m.write hd.1 hd.2).writeAll rest from rfl,
      ih _ fun c hc => h c (by simp [hc]), read_write_other _ _ _ hx]

/-- A byte stored by distinct stores reads as stored. -/
theorem read_writeAll_mem (m : Memory) (l : List Host.Cell) (x : Nat) (b : Byte)
    (hd : (l.map Prod.fst).Nodup) (h : (x, b) ∈ l) : (m.writeAll l).read x = b := by
  induction l generalizing m with
  | nil => simp at h
  | cons c rest ih =>
    simp only [List.map_cons, List.nodup_cons] at hd
    rw [show m.writeAll (c :: rest) = (m.write c.1 c.2).writeAll rest from rfl]
    rcases List.mem_cons.mp h with rfl | h'
    · rw [read_writeAll_other _ _ _ (fun c' hc' e => hd.1 (List.mem_map.mpr ⟨c', hc', e⟩)), read_write_same]
    · exact ih _ hd.2 h'

end Memory

/-! ## Where the stores of a block lie -/

theorem mem_storesBytes {a : Nat} {l : List Byte} {c : Host.Cell} (h : c ∈ storesBytes a l) :
    ∃ i < l.length, c.1 = a + 4 * i := by
  induction l generalizing a with
  | nil => simp [storesBytes] at h
  | cons v rest ih =>
    rcases List.mem_cons.mp h with rfl | h
    · exact ⟨0, by simp, by simp⟩
    · obtain ⟨i, hi, e⟩ := ih h
      exact ⟨i + 1, by simpa using hi, by omega⟩

theorem mem_storesHalves {a : Nat} {l : List Half} {c : Host.Cell} (h : c ∈ storesHalves a l) :
    ∃ i < l.length, c.1 = a + 4 * i ∨ c.1 = a + 4 * i + 1 := by
  induction l generalizing a with
  | nil => simp [storesHalves] at h
  | cons v rest ih =>
    simp only [storesHalves, stores16, List.mem_append, List.mem_cons, List.not_mem_nil, or_false] at h
    rcases h with (rfl | rfl) | h
    · exact ⟨0, by simp, by simp⟩
    · exact ⟨0, by simp, by simp⟩
    · obtain ⟨i, hi, e⟩ := ih h
      exact ⟨i + 1, by simpa using hi, by omega⟩

theorem mem_storesPacked {a : Nat} {l : List Byte} {c : Host.Cell} (h : c ∈ storesPacked a l) :
    ∃ i < l.length, c.1 = a + i := by
  induction l generalizing a with
  | nil => simp [storesPacked] at h
  | cons v rest ih =>
    rcases List.mem_cons.mp h with rfl | h
    · exact ⟨0, by simp, by simp⟩
    · obtain ⟨i, hi, e⟩ := ih h
      exact ⟨i + 1, by simpa using hi, by omega⟩

/-- Reset memory is in canonical form. -/
theorem wf_empty (e : Nat) : (Memory.mk [] e).wf = true := rfl

end Sys2Proof.Machine
end

