-- ==== Sys2Proof/Laws/State.lean ====
section
/-! SUPPORT. What each named update of State does to each field: one lemma per field, so that no later proof unfolds a record
update. -/

namespace Sys2Proof.Machine

/-! ## withCursor -/

@[simp] theorem withCursor_params (s : State) (c : Cursor) :
    (s.withCursor c).params = s.params := rfl
@[simp] theorem withCursor_ctrl (s : State) (c : Cursor) :
    (s.withCursor c).ctrl = s.ctrl := rfl
@[simp] theorem withCursor_status (s : State) (c : Cursor) :
    (s.withCursor c).status = s.status := rfl
@[simp] theorem withCursor_latch (s : State) (c : Cursor) :
    (s.withCursor c).latch = s.latch := rfl
@[simp] theorem withCursor_errcode (s : State) (c : Cursor) :
    (s.withCursor c).errcode = s.errcode := rfl
@[simp] theorem withCursor_htValid (s : State) (c : Cursor) :
    (s.withCursor c).htValid = s.htValid := rfl
@[simp] theorem withCursor_rdPos (s : State) (c : Cursor) :
    (s.withCursor c).rdPos = BitVec.ofNat 17 c.pos := rfl
@[simp] theorem withCursor_rdBit (s : State) (c : Cursor) :
    (s.withCursor c).rdBit = BitVec.ofNat 3 c.bit := rfl
@[simp] theorem withCursor_rdLen (s : State) (c : Cursor) :
    (s.withCursor c).rdLen = s.rdLen := rfl
@[simp] theorem withCursor_wrPos (s : State) (c : Cursor) :
    (s.withCursor c).wrPos = s.wrPos := rfl
@[simp] theorem withCursor_wrBit (s : State) (c : Cursor) :
    (s.withCursor c).wrBit = s.wrBit := rfl
@[simp] theorem withCursor_wrAcc (s : State) (c : Cursor) :
    (s.withCursor c).wrAcc = s.wrAcc := rfl
@[simp] theorem withCursor_dcPred (s : State) (c : Cursor) :
    (s.withCursor c).dcPred = s.dcPred := rfl
@[simp] theorem withCursor_mem (s : State) (c : Cursor) :
    (s.withCursor c).mem = s.mem := rfl
@[simp] theorem withCursor_inputs (s : State) (c : Cursor) :
    (s.withCursor c).inputs = s.inputs := rfl
@[simp] theorem withCursor_schedule (s : State) (c : Cursor) :
    (s.withCursor c).schedule = s.schedule := rfl
@[simp] theorem withCursor_responses (s : State) (c : Cursor) :
    (s.withCursor c).responses = s.responses := rfl
@[simp] theorem withCursor_draws (s : State) (c : Cursor) :
    (s.withCursor c).draws = s.draws := rfl

/-! ## accept -/

@[simp] theorem accept_params (s : State) (cw : Word) :
    (accept s cw).params = s.params := rfl
@[simp] theorem accept_ctrl (s : State) (cw : Word) :
    (accept s cw).ctrl = s.ctrl := rfl
@[simp] theorem accept_status (s : State) (cw : Word) :
    (accept s cw).status = s.status.onAccept := rfl
@[simp] theorem accept_latch (s : State) (cw : Word) :
    (accept s cw).latch = some ⟨cw, s.ctrl.inFinal⟩ := rfl
@[simp] theorem accept_errcode (s : State) (cw : Word) :
    (accept s cw).errcode = s.errcode := rfl
@[simp] theorem accept_htValid (s : State) (cw : Word) :
    (accept s cw).htValid = s.htValid := rfl
@[simp] theorem accept_rdPos (s : State) (cw : Word) :
    (accept s cw).rdPos = s.rdPos := rfl
@[simp] theorem accept_rdBit (s : State) (cw : Word) :
    (accept s cw).rdBit = s.rdBit := rfl
@[simp] theorem accept_rdLen (s : State) (cw : Word) :
    (accept s cw).rdLen = s.rdLen := rfl
@[simp] theorem accept_wrPos (s : State) (cw : Word) :
    (accept s cw).wrPos = s.wrPos := rfl
@[simp] theorem accept_wrBit (s : State) (cw : Word) :
    (accept s cw).wrBit = s.wrBit := rfl
@[simp] theorem accept_wrAcc (s : State) (cw : Word) :
    (accept s cw).wrAcc = s.wrAcc := rfl
@[simp] theorem accept_dcPred (s : State) (cw : Word) :
    (accept s cw).dcPred = s.dcPred := rfl
@[simp] theorem accept_mem (s : State) (cw : Word) :
    (accept s cw).mem = s.mem := rfl
@[simp] theorem accept_inputs (s : State) (cw : Word) :
    (accept s cw).inputs = s.inputs := rfl
@[simp] theorem accept_schedule (s : State) (cw : Word) :
    (accept s cw).schedule = s.schedule := rfl
@[simp] theorem accept_responses (s : State) (cw : Word) :
    (accept s cw).responses = s.responses := rfl
@[simp] theorem accept_draws (s : State) (cw : Word) :
    (accept s cw).draws = s.draws := rfl

/-! ## takeTurn -/

@[simp] theorem takeTurn_params (s : State) :
    (takeTurn s).params = s.params := rfl
@[simp] theorem takeTurn_ctrl (s : State) :
    (takeTurn s).ctrl = s.ctrl := rfl
@[simp] theorem takeTurn_status (s : State) :
    (takeTurn s).status = s.status := rfl
@[simp] theorem takeTurn_latch (s : State) :
    (takeTurn s).latch = s.latch := rfl
@[simp] theorem takeTurn_errcode (s : State) :
    (takeTurn s).errcode = s.errcode := rfl
@[simp] theorem takeTurn_htValid (s : State) :
    (takeTurn s).htValid = s.htValid := rfl
@[simp] theorem takeTurn_rdPos (s : State) :
    (takeTurn s).rdPos = s.rdPos := rfl
@[simp] theorem takeTurn_rdBit (s : State) :
    (takeTurn s).rdBit = s.rdBit := rfl
@[simp] theorem takeTurn_rdLen (s : State) :
    (takeTurn s).rdLen = s.rdLen := rfl
@[simp] theorem takeTurn_wrPos (s : State) :
    (takeTurn s).wrPos = s.wrPos := rfl
@[simp] theorem takeTurn_wrBit (s : State) :
    (takeTurn s).wrBit = s.wrBit := rfl
@[simp] theorem takeTurn_wrAcc (s : State) :
    (takeTurn s).wrAcc = s.wrAcc := rfl
@[simp] theorem takeTurn_dcPred (s : State) :
    (takeTurn s).dcPred = s.dcPred := rfl
@[simp] theorem takeTurn_mem (s : State) :
    (takeTurn s).mem = s.mem := rfl
@[simp] theorem takeTurn_inputs (s : State) :
    (takeTurn s).inputs = s.inputs := rfl
@[simp] theorem takeTurn_schedule (s : State) :
    (takeTurn s).schedule = s.schedule.tail := rfl
@[simp] theorem takeTurn_responses (s : State) :
    (takeTurn s).responses = s.responses := rfl
@[simp] theorem takeTurn_draws (s : State) :
    (takeTurn s).draws = s.draws := rfl

/-! ## placeCommand -/

@[simp] theorem placeCommand_params (s : State) (cw : Word) :
    (placeCommand s cw).params = s.params := rfl
@[simp] theorem placeCommand_ctrl (s : State) (cw : Word) :
    (placeCommand s cw).ctrl = s.ctrl := rfl
@[simp] theorem placeCommand_status (s : State) (cw : Word) :
    (placeCommand s cw).status = s.status.onAccept := rfl
@[simp] theorem placeCommand_latch (s : State) (cw : Word) :
    (placeCommand s cw).latch = some ⟨cw, s.ctrl.inFinal⟩ := rfl
@[simp] theorem placeCommand_errcode (s : State) (cw : Word) :
    (placeCommand s cw).errcode = s.errcode := rfl
@[simp] theorem placeCommand_htValid (s : State) (cw : Word) :
    (placeCommand s cw).htValid = s.htValid := rfl
@[simp] theorem placeCommand_rdPos (s : State) (cw : Word) :
    (placeCommand s cw).rdPos = s.rdPos := rfl
@[simp] theorem placeCommand_rdBit (s : State) (cw : Word) :
    (placeCommand s cw).rdBit = s.rdBit := rfl
@[simp] theorem placeCommand_rdLen (s : State) (cw : Word) :
    (placeCommand s cw).rdLen = s.rdLen := rfl
@[simp] theorem placeCommand_wrPos (s : State) (cw : Word) :
    (placeCommand s cw).wrPos = s.wrPos := rfl
@[simp] theorem placeCommand_wrBit (s : State) (cw : Word) :
    (placeCommand s cw).wrBit = s.wrBit := rfl
@[simp] theorem placeCommand_wrAcc (s : State) (cw : Word) :
    (placeCommand s cw).wrAcc = s.wrAcc := rfl
@[simp] theorem placeCommand_dcPred (s : State) (cw : Word) :
    (placeCommand s cw).dcPred = s.dcPred := rfl
@[simp] theorem placeCommand_mem (s : State) (cw : Word) :
    (placeCommand s cw).mem = s.mem := rfl
@[simp] theorem placeCommand_inputs (s : State) (cw : Word) :
    (placeCommand s cw).inputs = s.inputs := rfl
@[simp] theorem placeCommand_schedule (s : State) (cw : Word) :
    (placeCommand s cw).schedule = .engine :: s.schedule := rfl
@[simp] theorem placeCommand_responses (s : State) (cw : Word) :
    (placeCommand s cw).responses = s.responses := rfl
@[simp] theorem placeCommand_draws (s : State) (cw : Word) :
    (placeCommand s cw).draws = s.draws := rfl

/-! ## clearRegisters -/

@[simp] theorem clearRegisters_params (s : State) :
    (clearRegisters s).params = s.params := rfl
@[simp] theorem clearRegisters_ctrl (s : State) :
    (clearRegisters s).ctrl = s.ctrl := rfl
@[simp] theorem clearRegisters_status (s : State) :
    (clearRegisters s).status = Status.clear := rfl
@[simp] theorem clearRegisters_latch (s : State) :
    (clearRegisters s).latch = none := rfl
@[simp] theorem clearRegisters_errcode (s : State) :
    (clearRegisters s).errcode = 0#32 := rfl
@[simp] theorem clearRegisters_htValid (s : State) :
    (clearRegisters s).htValid = 0#8 := rfl
@[simp] theorem clearRegisters_rdPos (s : State) :
    (clearRegisters s).rdPos = 0#17 := rfl
@[simp] theorem clearRegisters_rdBit (s : State) :
    (clearRegisters s).rdBit = 0#3 := rfl
@[simp] theorem clearRegisters_rdLen (s : State) :
    (clearRegisters s).rdLen = 0#17 := rfl
@[simp] theorem clearRegisters_wrPos (s : State) :
    (clearRegisters s).wrPos = 0#17 := rfl
@[simp] theorem clearRegisters_wrBit (s : State) :
    (clearRegisters s).wrBit = 0#3 := rfl
@[simp] theorem clearRegisters_wrAcc (s : State) :
    (clearRegisters s).wrAcc = 0#7 := rfl
@[simp] theorem clearRegisters_dcPred (s : State) :
    (clearRegisters s).dcPred = DcPreds.zero := rfl
@[simp] theorem clearRegisters_mem (s : State) :
    (clearRegisters s).mem = s.mem := rfl
@[simp] theorem clearRegisters_inputs (s : State) :
    (clearRegisters s).inputs = s.inputs := rfl
@[simp] theorem clearRegisters_schedule (s : State) :
    (clearRegisters s).schedule = s.schedule := rfl
@[simp] theorem clearRegisters_responses (s : State) :
    (clearRegisters s).responses = s.responses := rfl
@[simp] theorem clearRegisters_draws (s : State) :
    (clearRegisters s).draws = s.draws := rfl

/-! ## softReset -/

@[simp] theorem softReset_params (s : State) :
    (softReset s).params = s.params := rfl
@[simp] theorem softReset_ctrl (s : State) :
    (softReset s).ctrl = ⟨false, false⟩ := rfl
@[simp] theorem softReset_status (s : State) :
    (softReset s).status = Status.clear := rfl
@[simp] theorem softReset_latch (s : State) :
    (softReset s).latch = none := rfl
@[simp] theorem softReset_errcode (s : State) :
    (softReset s).errcode = 0#32 := rfl
@[simp] theorem softReset_htValid (s : State) :
    (softReset s).htValid = 0#8 := rfl
@[simp] theorem softReset_rdPos (s : State) :
    (softReset s).rdPos = 0#17 := rfl
@[simp] theorem softReset_rdBit (s : State) :
    (softReset s).rdBit = 0#3 := rfl
@[simp] theorem softReset_rdLen (s : State) :
    (softReset s).rdLen = 0#17 := rfl
@[simp] theorem softReset_wrPos (s : State) :
    (softReset s).wrPos = 0#17 := rfl
@[simp] theorem softReset_wrBit (s : State) :
    (softReset s).wrBit = 0#3 := rfl
@[simp] theorem softReset_wrAcc (s : State) :
    (softReset s).wrAcc = 0#7 := rfl
@[simp] theorem softReset_dcPred (s : State) :
    (softReset s).dcPred = DcPreds.zero := rfl
@[simp] theorem softReset_mem (s : State) :
    (softReset s).mem = s.mem := rfl
@[simp] theorem softReset_inputs (s : State) :
    (softReset s).inputs = s.inputs := rfl
@[simp] theorem softReset_schedule (s : State) :
    (softReset s).schedule = s.schedule := rfl
@[simp] theorem softReset_responses (s : State) :
    (softReset s).responses = s.responses := rfl
@[simp] theorem softReset_draws (s : State) :
    (softReset s).draws = s.draws := rfl

/-! ## powerOn -/

@[simp] theorem powerOn_params (s : State) :
    (powerOn s).params = s.params := rfl
@[simp] theorem powerOn_ctrl (s : State) :
    (powerOn s).ctrl = ⟨false, false⟩ := rfl
@[simp] theorem powerOn_status (s : State) :
    (powerOn s).status = Status.clear := rfl
@[simp] theorem powerOn_latch (s : State) :
    (powerOn s).latch = none := rfl
@[simp] theorem powerOn_errcode (s : State) :
    (powerOn s).errcode = 0#32 := rfl
@[simp] theorem powerOn_htValid (s : State) :
    (powerOn s).htValid = 0#8 := rfl
@[simp] theorem powerOn_rdPos (s : State) :
    (powerOn s).rdPos = 0#17 := rfl
@[simp] theorem powerOn_rdBit (s : State) :
    (powerOn s).rdBit = 0#3 := rfl
@[simp] theorem powerOn_rdLen (s : State) :
    (powerOn s).rdLen = 0#17 := rfl
@[simp] theorem powerOn_wrPos (s : State) :
    (powerOn s).wrPos = 0#17 := rfl
@[simp] theorem powerOn_wrBit (s : State) :
    (powerOn s).wrBit = 0#3 := rfl
@[simp] theorem powerOn_wrAcc (s : State) :
    (powerOn s).wrAcc = 0#7 := rfl
@[simp] theorem powerOn_dcPred (s : State) :
    (powerOn s).dcPred = DcPreds.zero := rfl
@[simp] theorem powerOn_mem (s : State) :
    (powerOn s).mem = ⟨[], s.mem.epoch + 1⟩ := rfl
@[simp] theorem powerOn_inputs (s : State) :
    (powerOn s).inputs = s.inputs := rfl
@[simp] theorem powerOn_schedule (s : State) :
    (powerOn s).schedule = s.schedule := rfl
@[simp] theorem powerOn_responses (s : State) :
    (powerOn s).responses = s.responses := rfl
@[simp] theorem powerOn_draws (s : State) :
    (powerOn s).draws = s.draws := rfl

/-! ## storeBlock -/

@[simp] theorem storeBlock_params (s : State) (slot comp : Nat) (z : List Half) (c : Cursor) :
    (storeBlock s slot comp z c).params = s.params := rfl
@[simp] theorem storeBlock_ctrl (s : State) (slot comp : Nat) (z : List Half) (c : Cursor) :
    (storeBlock s slot comp z c).ctrl = s.ctrl := rfl
@[simp] theorem storeBlock_status (s : State) (slot comp : Nat) (z : List Half) (c : Cursor) :
    (storeBlock s slot comp z c).status = s.status := rfl
@[simp] theorem storeBlock_latch (s : State) (slot comp : Nat) (z : List Half) (c : Cursor) :
    (storeBlock s slot comp z c).latch = s.latch := rfl
@[simp] theorem storeBlock_errcode (s : State) (slot comp : Nat) (z : List Half) (c : Cursor) :
    (storeBlock s slot comp z c).errcode = s.errcode := rfl
@[simp] theorem storeBlock_htValid (s : State) (slot comp : Nat) (z : List Half) (c : Cursor) :
    (storeBlock s slot comp z c).htValid = s.htValid := rfl
@[simp] theorem storeBlock_rdPos (s : State) (slot comp : Nat) (z : List Half) (c : Cursor) :
    (storeBlock s slot comp z c).rdPos = BitVec.ofNat 17 c.pos := rfl
@[simp] theorem storeBlock_rdBit (s : State) (slot comp : Nat) (z : List Half) (c : Cursor) :
    (storeBlock s slot comp z c).rdBit = BitVec.ofNat 3 c.bit := rfl
@[simp] theorem storeBlock_rdLen (s : State) (slot comp : Nat) (z : List Half) (c : Cursor) :
    (storeBlock s slot comp z c).rdLen = s.rdLen := rfl
@[simp] theorem storeBlock_wrPos (s : State) (slot comp : Nat) (z : List Half) (c : Cursor) :
    (storeBlock s slot comp z c).wrPos = s.wrPos := rfl
@[simp] theorem storeBlock_wrBit (s : State) (slot comp : Nat) (z : List Half) (c : Cursor) :
    (storeBlock s slot comp z c).wrBit = s.wrBit := rfl
@[simp] theorem storeBlock_wrAcc (s : State) (slot comp : Nat) (z : List Half) (c : Cursor) :
    (storeBlock s slot comp z c).wrAcc = s.wrAcc := rfl
@[simp] theorem storeBlock_dcPred (s : State) (slot comp : Nat) (z : List Half) (c : Cursor) :
    (storeBlock s slot comp z c).dcPred = s.dcPred.set comp (z.getD 0 0#16) := rfl
@[simp] theorem storeBlock_mem (s : State) (slot comp : Nat) (z : List Half) (c : Cursor) :
    (storeBlock s slot comp z c).mem = s.mem.writeAll (coefStores slot z) := rfl
@[simp] theorem storeBlock_inputs (s : State) (slot comp : Nat) (z : List Half) (c : Cursor) :
    (storeBlock s slot comp z c).inputs = s.inputs := rfl
@[simp] theorem storeBlock_schedule (s : State) (slot comp : Nat) (z : List Half) (c : Cursor) :
    (storeBlock s slot comp z c).schedule = s.schedule := rfl
@[simp] theorem storeBlock_responses (s : State) (slot comp : Nat) (z : List Half) (c : Cursor) :
    (storeBlock s slot comp z c).responses = s.responses := rfl
@[simp] theorem storeBlock_draws (s : State) (slot comp : Nat) (z : List Half) (c : Cursor) :
    (storeBlock s slot comp z c).draws = s.draws := rfl

/-! ## Outcomes as commits: the three endings that keep the data -/

@[simp] theorem complete_ok (op : Byte) (s t : State) :
    complete op s (.ok t) = { t with latch := none, status := { t.status with done := true } } := rfl

@[simp] theorem complete_error (op : Byte) (s : State) (e : ErrorCode) (d : Byte) :
    complete op s (.error (.error e d)) =
      { s with latch := none, errcode := errWord op e d, status := { s.status with err := true } } := rfl

@[simp] theorem complete_needData (op : Byte) (s : State) :
    complete op s (.error .needData) = { s with latch := none, status := { s.status with needData := true } } := rfl

@[simp] theorem complete_outFull (op : Byte) (s : State) :
    complete op s (.error .outFull) = { s with latch := none, status := { s.status with outFull := true } } := rfl

/-- Whatever the body does, the command ends: BUSY is 0 afterwards. -/
@[simp] theorem complete_latch (op : Byte) (s : State) (r : Except Raise State) : (complete op s r).latch = none := by
  rcases r with (⟨e, d⟩ | _ | _) | t <;> rfl

end Sys2Proof.Machine
end

