-- ==== Sys2Proof/Laws/Step.lean ====
section
/-! SUPPORT. What a step can do, said once: which agent moves, what the engine runs, and how every command ends. -/

namespace Sys2Proof.Machine

/-- What each command's body makes of the state it starts from (60_exceptions.md R351). -/
def body : Instr → State → Except Raise State
  | .nop, s => .ok s
  | .htBuild cls id, s => htBuildBody s (htIndex cls id)
  | .dcReset, s => .ok { s with dcPred := DcPreds.zero }
  | .bsAlignRd, s => .ok (alignReader s)
  | .bsFlushWr, s => flushOut s (paddedBits s)
  | .hdec slot comp dct act, s => hdecBody slot comp dct act s
  | .henc slot comp dct act, s => hencBody slot comp dct act s
  | .idct slot qt, s => idctBody slot qt s
  | .fdct slot qt, s => fdctBody slot qt s
  | .cscInv a b c d, s => cscInvBody a b c d s
  | .cscFwd a b c d, s => cscFwdBody a b c d s

/-- Every command is its body, completed. -/
theorem exec_eq (i : Instr) (s : State) : exec i s = .next (complete (opOf i).code s (body i s)) := by
  cases i <;> rfl

theorem turnOf_engine_of_cons {s : State} {l : List Agent} (h : s.schedule = .engine :: l) : turnOf s = .engine := by
  simp [turnOf, h]

/-- On the engine's turn a busy engine runs the decoded command. -/
theorem step_engine {s : State} {l : Latch} {i : Instr} (ht : turnOf s = .engine) (hl : s.latch = some l)
    (hd : decode l.cw = .ok i) : step s = exec i (takeTurn s) := by
  simp [step, ht, engineStep, hl, hd]

/-- On the engine's turn a word that is no command ends in ILLEGAL_COMMAND. -/
theorem step_engine_illegal {s : State} {l : Latch} {r : Reject} (ht : turnOf s = .engine) (hl : s.latch = some l)
    (hd : decode l.cw = .error r) : step s = .next (illegalCommand l.cw r (takeTurn s)) := by
  simp [step, ht, engineStep, hl, hd]

/-- On the engine's turn an idle engine does nothing but give up the turn. -/
theorem step_engine_idle {s : State} (ht : turnOf s = .engine) (hl : s.latch = none) :
    step s = .next (takeTurn s) := by
  simp [step, ht, engineStep, hl]

/-- On the host's turn the oldest input takes effect. -/
theorem step_host {s : State} (ht : turnOf s = .host) : step s = hostStep (takeTurn s) := by simp [step, ht]

/-- What a step that answers next did. -/
theorem step_cases {s t : State} (h : step s = .next t) :
    (turnOf s = .host ∧ hostStep (takeTurn s) = .next t) ∨
    (turnOf s = .engine ∧ s.latch = none ∧ t = takeTurn s) ∨
    (∃ l i, turnOf s = .engine ∧ s.latch = some l ∧ decode l.cw = .ok i ∧
      t = complete (opOf i).code (takeTurn s) (body i (takeTurn s))) ∨
    (∃ l r, turnOf s = .engine ∧ s.latch = some l ∧ decode l.cw = .error r ∧ t = illegalCommand l.cw r (takeTurn s)) := by
  cases ht : turnOf s with
  | host => exact .inl ⟨rfl, (step_host ht) ▸ h⟩
  | engine =>
    cases hl : s.latch with
    | none => rw [step_engine_idle ht hl] at h; cases h; exact .inr (.inl ⟨rfl, rfl, rfl⟩)
    | some l =>
      cases hd : decode l.cw with
      | ok i =>
        rw [step_engine ht hl hd, exec_eq] at h; cases h
        exact .inr (.inr (.inl ⟨l, i, rfl, rfl, hd, rfl⟩))
      | error r =>
        rw [step_engine_illegal ht hl hd] at h; cases h
        exact .inr (.inr (.inr ⟨l, r, rfl, rfl, hd, rfl⟩))

/-- What a host step that answers next did. -/
theorem hostStep_cases {s t : State} (h : hostStep s = .next t) :
    (s.inputs = [] ∧ t = s) ∨
    (∃ addr bytes rest, s.inputs = .read addr bytes :: rest ∧ accepted s.params addr bytes = true ∧
      t = hostRead { s with inputs := rest } (addr - s.params.base)) ∨
    (∃ addr bytes v rest, s.inputs = .write addr bytes v :: rest ∧ accepted s.params addr bytes = true ∧
      t = hostWrite { s with inputs := rest } (addr - s.params.base) v) ∨
    (∃ rest, s.inputs = .wait :: rest ∧ t = if keepWaiting s then s else { s with inputs := rest }) ∨
    (∃ rest, s.inputs = .powerOnReset :: rest ∧ t = powerOn { s with inputs := rest }) := by
  unfold hostStep at h
  split at h
  · cases h; exact .inl ⟨‹_›, rfl⟩
  · rename_i addr bytes rest hi
    by_cases ha : accepted s.params addr bytes = true
    · simp only [ha, if_true] at h; cases h; exact .inr (.inl ⟨addr, bytes, rest, hi, ha, rfl⟩)
    · simp [ha] at h
  · rename_i addr bytes v rest hi
    by_cases ha : accepted s.params addr bytes = true
    · simp only [ha, if_true] at h; cases h; exact .inr (.inr (.inl ⟨addr, bytes, v, rest, hi, ha, rfl⟩))
    · simp [ha] at h
  · rename_i rest hi; cases h; exact .inr (.inr (.inr (.inl ⟨rest, hi, rfl⟩)))
  · rename_i rest hi; cases h; exact .inr (.inr (.inr (.inr ⟨rest, hi, rfl⟩)))

/-- The command placed for the next step runs. -/
theorem step_withFetchWord {s : State} {nbits w : Nat} {i : Instr} (hd : decode (tableWord nbits w) = .ok i) :
    step (s.withFetchWord nbits w) = exec i (accept s (tableWord nbits w)) :=
  step_engine (s := s.withFetchWord nbits w) rfl rfl hd

/-- An induction packaged: what holds at the start and is kept by every step holds in every state a run reaches. -/
theorem ReachableFrom.induct {s : State} {P : State → Prop} (h0 : P s) (hs : ∀ t u, P t → step t = .next u → P u)
    {t : State} (h : ReachableFrom s t) : P t := by
  induction h with
  | start => exact h0
  | more _ hst ih => exact hs _ _ ih hst

end Sys2Proof.Machine
end

