-- ==== Sys2Proof/Laws/Checks.lean ====
section
/-! SUPPORT. What each check and each shared operation of the commands can do, said once: the operand checks, the reader, the
block decoder and encoder, and FlushOut. -/

namespace Sys2Proof.Machine

/-! ## Operand checks -/

theorem checkSlot_ok {slot : Nat} (h : slot ≤ 5) : checkSlot slot = .ok () := by simp [checkSlot]; omega

theorem checkSlot_error {slot : Nat} {r : Raise} (h : checkSlot slot = .error r) :
    5 < slot ∧ r = .error .invalidArgument 1#8 := by
  unfold checkSlot at h
  split at h <;> cases h
  exact ⟨‹_›, rfl⟩

theorem checkTables_ok {s : State} {dct act : Nat} (hd : htBit s.htValid (dcTableIndex dct) = true)
    (ha : htBit s.htValid (acTableIndex act) = true) : checkTables s dct act = .ok () := by
  simp [checkTables, hd, ha]

theorem checkTables_error {s : State} {dct act : Nat} {r : Raise} (h : checkTables s dct act = .error r) :
    r = .error .malformedTable 5#8 := by
  unfold checkTables at h
  split_ifs at h <;> cases h <;> rfl

theorem checkQt_ok {m : Memory} {t : Nat} : checkQt m t = .ok () ↔ ∀ k < 64, m.qt t k ≠ 0#16 := by
  simp only [checkQt, Memory.qtTable, List.any_map]
  split_ifs with h
  · simp only [List.any_eq_true, List.mem_range, Function.comp, beq_iff_eq] at h
    obtain ⟨k, hk, e⟩ := h
    simp only [false_iff, not_forall]
    exact ⟨k, hk, not_not.mpr e⟩
  · simp only [List.any_eq_true, List.mem_range, Function.comp, beq_iff_eq, not_exists, not_and] at h
    simpa using h

theorem checkQt_error {m : Memory} {t : Nat} {r : Raise} (h : checkQt m t = .error r) :
    (∃ k < 64, m.qt t k = 0#16) ∧ r = .error .malformedTable 6#8 := by
  have hn : ¬(checkQt m t = .ok ()) := by rw [h]; simp
  rw [checkQt_ok] at hn
  push Not at hn
  refine ⟨hn, ?_⟩
  unfold checkQt at h
  split_ifs at h; cases h; rfl

theorem checkFactors_ok {a b c d yh yv : Nat} (h : checkFactors a b c d = .ok (yh, yv)) :
    c = 0 ∧ d = 0 ∧ ((a = 0 ∧ b = 0 ∧ yh = 1 ∧ yv = 1) ∨ (a = 1 ∧ b = 0 ∧ yh = 2 ∧ yv = 1) ∨
      (a = 1 ∧ b = 1 ∧ yh = 2 ∧ yv = 2)) := by
  unfold checkFactors at h
  split at h <;> cases h <;> simp_all

theorem checkFactors_error {a b c d : Nat} {r : Raise} (h : checkFactors a b c d = .error r) :
    r = .error .unsupportedFormat 1#8 := by
  unfold checkFactors at h
  split at h <;> cases h; rfl

theorem checkTable_error {m : Memory} {h : Nat} {r : Raise} (e : checkTable m h = .error r) :
    ∃ d ∈ [1#8, 2#8, 3#8, 4#8], r = .error .malformedTable d := by
  unfold checkTable at e
  split_ifs at e <;> cases e <;> simp

/-! ## The reader -/

/-- What stops the reader (42_huffman.md R210, R212). -/
inductive ReaderStop (src : Source) : Raise → Prop where
  | truncated : src.fin = true → ReaderStop src (.error .truncatedStream 1#8)
  | needData : src.fin = false → ReaderStop src .needData
  | marker : ReaderStop src (.error .malformedStream 1#8)

theorem endOfData_stop (src : Source) : ReaderStop src (endOfData src) := by
  unfold endOfData
  split
  · exact .truncated ‹_›
  · exact .needData (Bool.eq_false_iff.mpr ‹_›)

theorem readBit_error {src : Source} {c : Cursor} {r : Raise} (h : readBit src c = .error r) : ReaderStop src r := by
  unfold readBit at h
  split at h <;> cases h
  rename_i e
  unfold checkByte at e
  split_ifs at e <;> cases e
  · exact endOfData_stop src
  · exact endOfData_stop src
  · exact .marker

/-- A bit that was read came from a byte below RD_LEN, whose stuffing byte is below RD_LEN too, and the cursor moved by
`advance`. -/
theorem readBit_ok {src : Source} {c c' : Cursor} {b : Bool} (h : readBit src c = .ok (b, c')) :
    b = (src.mem.ibuf c.pos).getLsbD (7 - c.bit) ∧ c' = advance src c ∧ c.pos < src.len ∧
      (src.mem.ibuf c.pos = 0xFF#8 → c.pos + 1 < src.len ∧ src.mem.ibuf (c.pos + 1) = 0x00#8) := by
  unfold readBit at h
  split at h <;> cases h
  rename_i e
  unfold checkByte at e
  split_ifs at e with h1 h2 h3 h4
  · exact ⟨rfl, rfl, by omega, fun _ => ⟨by omega, by simpa using h4⟩⟩
  · exact ⟨rfl, rfl, by omega, fun h => absurd h h2⟩

theorem advance_le {src : Source} {c : Cursor} (hp : c.pos < src.len)
    (hs : src.mem.ibuf c.pos = 0xFF#8 → c.pos + 1 < src.len) (hb : c.bit ≤ 7) :
    (advance src c).pos ≤ src.len ∧ (advance src c).bit ≤ 7 := by
  unfold advance
  split_ifs <;> simp_all <;> omega

/-- A cursor inside the data stays inside it. -/
theorem readBit_inside {src : Source} {c c' : Cursor} {b : Bool} (h : readBit src c = .ok (b, c')) (hb : c.bit ≤ 7) :
    c'.pos ≤ src.len ∧ c'.bit ≤ 7 := by
  obtain ⟨-, rfl, hp, hs⟩ := readBit_ok h
  exact advance_le hp (fun h => (hs h).1) hb

theorem readBitsFrom_error {src : Source} {n v : Nat} {c : Cursor} {r : Raise}
    (h : readBitsFrom src n v c = .error r) : ReaderStop src r := by
  induction n generalizing v c with
  | zero => cases h
  | succ n ih =>
    unfold readBitsFrom at h
    split at h
    · cases h; exact readBit_error ‹_›
    · exact ih h

theorem readBitsFrom_inside {src : Source} {n v w : Nat} {c c' : Cursor} (h : readBitsFrom src n v c = .ok (w, c'))
    (hp : c.pos ≤ src.len ∨ c' ≠ c) (hb : c.bit ≤ 7) : c'.pos ≤ src.len ∧ c'.bit ≤ 7 := by
  induction n generalizing v c with
  | zero => cases h; exact ⟨hp.resolve_right (fun h => h rfl), hb⟩
  | succ n ih =>
    unfold readBitsFrom at h
    split at h
    · cases h
    · obtain ⟨h1, h2⟩ := readBit_inside ‹_› hb
      exact ih h (.inl h1) h2

theorem decodeSymFrom_error {tab : List Entry} {src : Source} {n l code : Nat} {c : Cursor} {r : Raise}
    (h : decodeSymFrom tab src n l code c = .error r) : ReaderStop src r ∨ r = .error .invalidCode 1#8 := by
  induction n generalizing l code c with
  | zero => cases h; exact .inr rfl
  | succ n ih =>
    unfold decodeSymFrom at h
    split at h
    · cases h; exact .inl (readBit_error ‹_›)
    · split at h
      · cases h
      · exact ih h

theorem decodeSymFrom_inside {tab : List Entry} {src : Source} {n l code : Nat} {c c' : Cursor} {x : Byte}
    (h : decodeSymFrom tab src n l code c = .ok (x, c')) (hb : c.bit ≤ 7) : c'.pos ≤ src.len ∧ c'.bit ≤ 7 := by
  induction n generalizing l code c with
  | zero => cases h
  | succ n ih =>
    unfold decodeSymFrom at h
    split at h
    · cases h
    · rename_i b c1 e
      obtain ⟨h1, h2⟩ := readBit_inside e hb
      split at h
      · cases h; exact ⟨h1, h2⟩
      · exact ih h h2

/-! ## The block decoder -/

/-- What stops HDEC once its tables are checked (42_huffman.md R230). -/
inductive DecodeStop (src : Source) : Raise → Prop where
  | reader {r : Raise} : ReaderStop src r → DecodeStop src r
  | noCode : DecodeStop src (.error .invalidCode 1#8)
  | dcCategory : DecodeStop src (.error .malformedStream 2#8)
  | acSymbol : DecodeStop src (.error .malformedStream 3#8)
  | acRun : DecodeStop src (.error .malformedStream 4#8)

theorem decodeSym_error {tab : List Entry} {src : Source} {c : Cursor} {r : Raise} (h : decodeSym tab src c = .error r) :
    DecodeStop src r := by
  rcases decodeSymFrom_error h with h | rfl
  · exact .reader h
  · exact .noCode

theorem decodeDc_error {tab : List Entry} {src : Source} {p : Half} {c : Cursor} {r : Raise}
    (h : decodeDc tab src p c = .error r) : DecodeStop src r := by
  unfold decodeDc at h
  split at h
  · cases h; exact decodeSym_error ‹_›
  · split_ifs at h
    · cases h; exact .dcCategory
    · split at h <;> cases h
      exact .reader (readBitsFrom_error ‹_›)

theorem decodeAc_error {tab : List Entry} {src : Source} {n k : Nat} {z : List Half} {c : Cursor} {r : Raise}
    (h : decodeAc tab src n k z c = .error r) : DecodeStop src r := by
  induction n generalizing k z c with
  | zero => cases h
  | succ n ih =>
    unfold decodeAc at h
    by_cases hk : k > 63
    · rw [if_pos hk] at h; cases h
    rw [if_neg hk] at h
    split at h
    · cases h; exact decodeSym_error ‹_›
    · simp only at h
      split_ifs at h <;> first | (cases h; first | exact .acRun | exact .acSymbol) | exact ih h | skip
      split at h
      · cases h; exact .reader (readBitsFrom_error ‹_›)
      · exact ih h

theorem decodeBlock_error {dcTab acTab : List Entry} {src : Source} {p : Half} {c : Cursor} {r : Raise}
    (h : decodeBlock dcTab acTab src p c = .error r) : DecodeStop src r := by
  unfold decodeBlock at h
  split at h
  · cases h; exact decodeDc_error ‹_›
  · exact decodeAc_error h

theorem decodeDc_inside {tab : List Entry} {src : Source} {p dc : Half} {c c' : Cursor}
    (h : decodeDc tab src p c = .ok (dc, c')) (hb : c.bit ≤ 7) : c'.pos ≤ src.len ∧ c'.bit ≤ 7 := by
  unfold decodeDc at h
  split at h
  · cases h
  · rename_i e
    obtain ⟨h1, h2⟩ := decodeSymFrom_inside e hb
    split_ifs at h
    split at h <;> cases h
    rename_i e'
    exact readBitsFrom_inside e' (.inl h1) h2

theorem decodeAc_inside {tab : List Entry} {src : Source} {n k : Nat} {z z' : List Half} {c c' : Cursor}
    (h : decodeAc tab src n k z c = .ok (z', c')) (hp : c.pos ≤ src.len) (hb : c.bit ≤ 7) :
    c'.pos ≤ src.len ∧ c'.bit ≤ 7 ∧ z'.length = z.length := by
  induction n generalizing k z c with
  | zero => cases h; exact ⟨hp, hb, rfl⟩
  | succ n ih =>
    unfold decodeAc at h
    by_cases hk : k > 63
    · rw [if_pos hk] at h; cases h; exact ⟨hp, hb, rfl⟩
    rw [if_neg hk] at h
    split at h
    · cases h
    · rename_i e
      obtain ⟨h1, h2⟩ := decodeSymFrom_inside e hb
      simp only at h
      split_ifs at h <;> first | (cases h; exact ⟨h1, h2, rfl⟩) | exact ih h h1 h2 | skip
      split at h
      · cases h
      · rename_i e'
        obtain ⟨h3, h4⟩ := readBitsFrom_inside e' (.inl h1) h2
        obtain ⟨h5, h6, h7⟩ := ih h h3 h4
        exact ⟨h5, h6, by simpa using h7⟩

/-- A decoded block has 64 values, and the cursor after it is inside the data. -/
theorem decodeBlock_ok {dcTab acTab : List Entry} {src : Source} {p : Half} {c c' : Cursor} {z : List Half}
    (h : decodeBlock dcTab acTab src p c = .ok (z, c')) (hb : c.bit ≤ 7) :
    c'.pos ≤ src.len ∧ c'.bit ≤ 7 ∧ z.length = 64 := by
  unfold decodeBlock at h
  split at h
  · cases h
  · rename_i e
    obtain ⟨h1, h2⟩ := decodeDc_inside e hb
    obtain ⟨h3, h4, h5⟩ := decodeAc_inside h h1 h2
    exact ⟨h3, h4, by simpa using h5⟩

/-! ## The block encoder -/

/-- What stops HENC once its tables are checked, output capacity aside (42_huffman.md R240). -/
inductive EncodeStop : Raise → Prop where
  | dcCategory : EncodeStop (.error .invalidArgument 2#8)
  | noCode : EncodeStop (.error .invalidCode 2#8)
  | acCategory : EncodeStop (.error .invalidArgument 3#8)

theorem emitSym_error {tab : List Entry} {x : Byte} {r : Raise} (h : emitSym tab x = .error r) : EncodeStop r := by
  unfold emitSym at h
  split at h <;> cases h
  exact .noCode

/-- EmitSym raises exactly when no entry has the symbol (42_huffman.md R225). -/
theorem emitSym_missing {tab : List Entry} {x : Byte} :
    emitSym tab x = .error (.error .invalidCode 2#8) ↔ ∀ e ∈ tab, e.sym ≠ x := by
  unfold emitSym
  split
  · rename_i e h
    exact ⟨nofun, fun hh => absurd (by simpa using List.find?_some h) (hh e (List.mem_of_find?_eq_some h))⟩
  · rename_i h
    exact ⟨fun _ => by simpa using h, fun _ => rfl⟩

theorem emitSym_present {tab : List Entry} {x : Byte} (h : ¬∀ e ∈ tab, e.sym ≠ x) : ∃ bits, emitSym tab x = .ok bits := by
  rw [← emitSym_missing] at h
  cases hb : emitSym tab x with
  | ok bits => exact ⟨bits, rfl⟩
  | error r => unfold emitSym at hb h; split at hb <;> cases hb; simp_all

/-- A run of zeros is only counted. -/
theorem encodeAc_zeros {tab : List Entry} (n r : Nat) (l : List Half) :
    encodeAc tab (List.replicate n 0#16 ++ l) r = encodeAc tab l (r + n) := by
  induction n generalizing r with
  | zero => rfl
  | succ n ih => rw [List.replicate_succ, List.cons_append, encodeAc, if_pos rfl, ih]; congr 1; omega

/-- After coefficients that encode and end in a nonzero one, what the rest raises is raised. -/
theorem encodeAc_append_error {tab : List Entry} (l l2 : List Half) (r : Nat) (bits : List Bool)
    (hl : (l = [] ∧ r = 0) ∨ ∃ l' x, l = l' ++ [x] ∧ x ≠ 0#16) (h : encodeAc tab l r = .ok bits) {e : Raise}
    (h2 : encodeAc tab l2 0 = .error e) : encodeAc tab (l ++ l2) r = .error e := by
  induction l generalizing r bits with
  | nil =>
    rcases hl with ⟨-, rfl⟩ | ⟨l', x, h, -⟩
    · exact h2
    · simp at h
  | cons z l ih =>
    have hl' : (l = [] ∧ z ≠ 0#16) ∨ (∃ l' x, l = l' ++ [x] ∧ x ≠ 0#16) := by
      rcases hl with ⟨h, -⟩ | ⟨l', x, h, hx⟩
      · simp at h
      · rcases l' with _ | ⟨y, l'⟩
        · simp at h; left; exact ⟨h.2, h.1 ▸ hx⟩
        · simp at h; right; exact ⟨l', x, h.2, hx⟩
    rw [List.cons_append]
    unfold encodeAc at h ⊢
    split_ifs at h ⊢ with hz
    · exact ih _ _ (.inr (hl'.resolve_left fun h => h.2 hz)) h
    · split at h
      · cases h
      · split at h <;> cases h
        rename_i w hw
        rw [ih 0 _ (hl'.imp (fun h => ⟨h.1, rfl⟩) id) hw]

theorem emitZrls_error {tab : List Entry} {n : Nat} {r : Raise} (h : emitZrls tab n = .error r) : EncodeStop r := by
  induction n with
  | zero => cases h
  | succ n ih =>
    unfold emitZrls at h
    split at h
    · cases h; exact emitSym_error ‹_›
    · split at h
      · cases h; exact ih ‹_›
      · cases h

theorem emitAc_error {tab : List Entry} {n : Nat} {v : Int} {r : Raise} (h : emitAc tab n v = .error r) :
    EncodeStop r := by
  unfold emitAc at h
  split at h
  · cases h; exact emitZrls_error ‹_›
  · split_ifs at h
    · cases h; exact .acCategory
    · split at h
      · cases h; exact emitSym_error ‹_›
      · cases h

theorem encodeAc_error {tab : List Entry} {z : List Half} {n : Nat} {r : Raise} (h : encodeAc tab z n = .error r) :
    EncodeStop r := by
  induction z generalizing n with
  | nil =>
    unfold encodeAc at h
    split_ifs at h
    exact emitSym_error h
  | cons x rest ih =>
    unfold encodeAc at h
    split_ifs at h
    · exact ih h
    · split at h
      · cases h; exact emitAc_error ‹_›
      · split at h
        · cases h; exact ih ‹_›
        · cases h

theorem encodeBlock_error {dcTab acTab : List Entry} {p : Half} {z : List Half} {r : Raise}
    (h : encodeBlock dcTab acTab p z = .error r) : EncodeStop r := by
  unfold encodeBlock at h
  split at h
  · rename_i e
    cases h
    unfold encodeDc at e
    split_ifs at e
    · cases e; exact .dcCategory
    · split at e
      · cases e; exact emitSym_error ‹_›
      · cases e
  · split at h
    · cases h; exact encodeAc_error ‹_›
    · cases h

/-! ## FlushOut -/

theorem flushOut_ok {s t : State} {bits : List Bool} (h : flushOut s bits = .ok t) :
    s.wrPos.toNat + (outBytes bits).length ≤ s.params.obufBytes ∧
      t = { s with
        mem := s.mem.writeAll (obufStores s.wrPos.toNat (outBytes bits)),
        wrPos := BitVec.ofNat 17 (s.wrPos.toNat + (outBytes bits).length),
        wrBit := BitVec.ofNat 3 (packBytes bits).2.length,
        wrAcc := BitVec.ofNat 7 (bitsValue (packBytes bits).2) } := by
  unfold flushOut at h
  split_ifs at h; cases h
  exact ⟨by omega, rfl⟩

theorem flushOut_error {s : State} {bits : List Bool} {r : Raise} (h : flushOut s bits = .error r) :
    s.params.obufBytes < s.wrPos.toNat + (outBytes bits).length ∧ r = .outFull := by
  unfold flushOut at h
  split_ifs at h; cases h
  exact ⟨by omega, rfl⟩

/-- Fewer than eight bits stay pending. -/
theorem packBytes_left (bits : List Bool) : (packBytes bits).2.length ≤ 7 := by
  induction bits using packBytes.induct with
  | case1 b7 b6 b5 b4 b3 b2 b1 b0 rest bytes left e ih => rw [e] at ih; simpa [packBytes, e] using ih
  | case2 l h =>
    rw [packBytes.eq_def]
    rcases l with _ | ⟨a, _ | ⟨b, _ | ⟨c, _ | ⟨d, _ | ⟨e, _ | ⟨f, _ | ⟨g, _ | ⟨i, l⟩⟩⟩⟩⟩⟩⟩⟩ <;> simp
    exact absurd rfl (h a b c d e f g i l)

/-- Packing loses no bit. -/
theorem packBytes_length (bits : List Bool) :
    8 * (packBytes bits).1.length + (packBytes bits).2.length = bits.length := by
  induction bits using packBytes.induct with
  | case1 b7 b6 b5 b4 b3 b2 b1 b0 rest bytes left e ih => rw [e] at ih; simp [packBytes, e]; simp at ih; omega
  | case2 l h =>
    rw [packBytes.eq_def]
    rcases l with _ | ⟨a, _ | ⟨b, _ | ⟨c, _ | ⟨d, _ | ⟨e, _ | ⟨f, _ | ⟨g, _ | ⟨i, l⟩⟩⟩⟩⟩⟩⟩⟩ <;> simp
    exact absurd rfl (h a b c d e f g i l)

/-- What is left after packing: the bits past the last whole byte. -/
theorem packBytes_drop (bits : List Bool) : (packBytes bits).2 = bits.drop (8 * (bits.length / 8)) := by
  induction bits using packBytes.induct with
  | case1 b7 b6 b5 b4 b3 b2 b1 b0 rest bytes left e ih =>
    rw [e] at ih
    simp only [packBytes, e]
    simp only at ih
    rw [ih]
    simp only [List.length_cons]
    rw [show 8 * ((rest.length + 1 + 1 + 1 + 1 + 1 + 1 + 1 + 1) / 8) = 8 * (rest.length / 8) + 8 by omega]
    rfl
  | case2 l h =>
    have hl : l.length < 8 := by
      rcases l with _ | ⟨a, _ | ⟨b, _ | ⟨c, _ | ⟨d, _ | ⟨e, _ | ⟨f, _ | ⟨g, _ | ⟨i, l⟩⟩⟩⟩⟩⟩⟩⟩ <;> simp
      exact absurd rfl (h a b c d e f g i l)
    rw [show l.length / 8 = 0 by omega]
    rw [packBytes.eq_def]
    rcases l with _ | ⟨a, _ | ⟨b, _ | ⟨c, _ | ⟨d, _ | ⟨e, _ | ⟨f, _ | ⟨g, _ | ⟨i, l⟩⟩⟩⟩⟩⟩⟩⟩ <;> first | rfl | (simp only [List.length_cons] at hl; omega)

/-- Eight bits make a byte, first bit most significant. -/
theorem byte_bits : ∀ b7 b6 b5 b4 b3 b2 b1 b0 : Bool, ∀ i < 8, [b7, b6, b5, b4, b3, b2, b1, b0][i]? =
    some ((BitVec.ofNat 8 (bitsValue [b7, b6, b5, b4, b3, b2, b1, b0])).getLsbD (7 - i)) := by decide +kernel

/-- The packed bytes hold the bits in order. -/
theorem packBytes_get (bits : List Bool) : ∀ j (hj : j < (packBytes bits).1.length), ∀ i < 8,
    bits[8 * j + i]? = some ((packBytes bits).1[j].getLsbD (7 - i)) := by
  induction bits using packBytes.induct with
  | case1 b7 b6 b5 b4 b3 b2 b1 b0 rest bytes left e ih =>
    rw [e] at ih
    simp only [packBytes, e]
    intro j hj i hi
    cases j with
    | zero =>
      rw [List.getElem_cons_zero, ← byte_bits b7 b6 b5 b4 b3 b2 b1 b0 i hi]
      interval_cases i <;> rfl
    | succ j =>
      rw [List.getElem_cons_succ, show 8 * (j + 1) + i = 8 * j + i + 8 by omega, ← ih j (by simpa using hj) i hi]
      rfl
  | case2 l h =>
    intro j hj
    exfalso
    rw [packBytes.eq_def] at hj
    rcases l with _ | ⟨a, _ | ⟨b, _ | ⟨c, _ | ⟨d, _ | ⟨e, _ | ⟨f, _ | ⟨g, _ | ⟨i, l⟩⟩⟩⟩⟩⟩⟩⟩ <;> simp at hj
    exact absurd rfl (h a b c d e f g i l)

theorem stuff_length_le (l : List Byte) : (stuff l).length ≤ 2 * l.length := by
  induction l with
  | nil => simp [stuff]
  | cons b rest ih => unfold stuff; split_ifs <;> simp <;> omega

@[simp] theorem bitsOf_length (v n : Nat) : (bitsOf v n).length = n := by
  induction n with
  | zero => rfl
  | succ n ih => simp [bitsOf, ih]

/-! ## What the checks depend on, and single bits -/

/-- The checks of HT_BUILD read only the used words of their table. -/
theorem checkTable_congr {m m' : Memory} {h : Nat}
    (e : ∀ a, 0x2000 + 0x800 * h ≤ a → a < 0x2000 + 0x800 * h + 1096 → m'.read a = m.read a) :
    checkTable m' h = checkTable m h := by
  have e1 : m'.htNsym h = m.htNsym h := by
    simp only [Memory.htNsym, Memory.read9, htNsymAddr]; rw [e _ (by omega) (by omega), e _ (by omega) (by omega)]
  have e2 : htCounts m' h = htCounts m h := by
    unfold htCounts
    refine List.map_congr_left fun i hi => ?_
    rw [List.mem_range] at hi
    simp only [Memory.htBits, htBitsAddr]; rw [e _ (by omega) (by omega)]
  have e3 : ¬ (m.htNsym h).toNat > 256 → htSymbols m' h = htSymbols m h := by
    intro hn
    unfold htSymbols
    rw [e1]
    refine List.map_congr_left fun i hi => ?_
    rw [List.mem_range] at hi
    simp only [Memory.htVal, htValAddr]; rw [e _ (by omega) (by omega)]
  unfold checkTable
  rw [e1, e2]
  by_cases hc : (m.htNsym h).toNat = 0 ∨ (m.htNsym h).toNat > 256
  · rw [if_pos hc, if_pos hc]
  · rw [e3 (by omega)]

theorem getLsbD_setHtBit (v : BitVec 8) (h k : Nat) :
    (setHtBit v h).getLsbD k = (v.getLsbD k || decide (k = h ∧ k < 8)) := by
  unfold setHtBit
  rw [BitVec.getLsbD_or, BitVec.getLsbD_shiftLeft, BitVec.getLsbD_one]
  by_cases h8 : k < 8 <;> by_cases hk : k < h <;> simp [h8, hk] <;> try omega
  congr 1; simp; omega

theorem getLsbD_clearHtBit (v : BitVec 8) (h k : Nat) :
    (clearHtBit v h).getLsbD k = (v.getLsbD k && !decide (k = h)) := by
  unfold clearHtBit
  by_cases h8 : k < 8
  · rw [BitVec.getLsbD_and, BitVec.getLsbD_not, BitVec.getLsbD_shiftLeft, BitVec.getLsbD_one]
    by_cases hk : k < h <;> simp [h8, hk] <;> try omega
    congr 1; simp; omega
  · simp [BitVec.getLsbD_of_ge _ _ (Nat.le_of_not_lt h8)]

/-- ERRCODE's reserved byte stays 0 (10_state.md R38). -/
theorem errWord_reserved (op : Byte) (e : ErrorCode) (d : Byte) : (errWord op e d).extractLsb' 24 8 = 0#8 := by
  unfold errWord
  refine BitVec.eq_of_getLsbD_eq fun i hi => ?_
  rw [BitVec.getLsbD_extractLsb']
  have h : (0#8 ++ op ++ d ++ e.code : BitVec (8 + 8 + 8 + 8)).getLsbD (24 + i) = false := by
    rw [BitVec.getLsbD_append, if_neg (by omega), BitVec.getLsbD_append, if_neg (by omega), BitVec.getLsbD_append,
      if_neg (by omega)]
    simp
  rw [show (0#8 ++ op ++ d ++ e.code : Word).getLsbD (24 + i) = false from h]; simp

end Sys2Proof.Machine
end

