-- ==== Sys2Proof/Laws/Commands.lean ====
section
/-! SUPPORT. What each command can do, said once: when its body ends ok, what it has changed; when it does not, what it raised
(60_exceptions.md R350, 70_reset_and_hazards.md R394). -/

namespace Sys2Proof.Machine

/-! ## Lengths of what the transforms write -/

@[simp] theorem idctSamples_length (t : TransformModel) (d : List Int) : (idctSamples t d).length = 64 := by
  cases t <;> simp [idctSamples, idctExact, idct16, idctColumns]

@[simp] theorem fdctCoefs_length (t : TransformModel) (g : List Int) (q : List Half) : (fdctCoefs t g q).length = 64 := by
  cases t <;> simp [fdctCoefs, fdctExact, fdctSupplied, quantize]

/-! ## Bodies that end ok -/

theorem htBuildBody_ok {s t : State} {h : Nat} (e : htBuildBody s h = .ok t) :
    checkTable s.mem h = .ok () ∧ t = { s with htValid := setHtBit s.htValid h } := by
  unfold htBuildBody at e
  split at e <;> cases e
  exact ⟨‹_›, rfl⟩

theorem hdecBody_ok {s t : State} {slot comp dct act : Nat} (e : hdecBody slot comp dct act s = .ok t) :
    slot ≤ 5 ∧ checkTables s dct act = .ok () ∧
      ∃ z c, decodeBlock (htTable s.mem (dcTableIndex dct)) (htTable s.mem (acTableIndex act)) s.source
          (s.dcPred.get comp) s.cursor = .ok (z, c) ∧ t = storeBlock s slot comp z c := by
  unfold hdecBody at e
  split at e
  · cases e
  · rename_i hs
    have hslot : slot ≤ 5 := by
      by_contra hc; unfold checkSlot at hs; rw [if_pos (by omega)] at hs; cases hs
    split at e
    · cases e
    · split at e <;> cases e
      exact ⟨hslot, ‹_›, _, _, ‹_›, rfl⟩

theorem hencBody_ok {s t : State} {slot comp dct act : Nat} (e : hencBody slot comp dct act s = .ok t) :
    slot ≤ 5 ∧ checkTables s dct act = .ok () ∧
      ∃ bits u, encodeBlock (htTable s.mem (dcTableIndex dct)) (htTable s.mem (acTableIndex act)) (s.dcPred.get comp)
          (s.mem.coefBlock slot) = .ok bits ∧ flushOut s (s.pendingBits ++ bits) = .ok u ∧
        t = { u with dcPred := s.dcPred.set comp (s.mem.coef slot 0) } := by
  unfold hencBody at e
  split at e
  · cases e
  · rename_i hs
    have hslot : slot ≤ 5 := by
      by_contra hc; unfold checkSlot at hs; rw [if_pos (by omega)] at hs; cases hs
    split at e
    · cases e
    · split at e
      · cases e
      · split at e <;> cases e
        rename_i u hu
        refine ⟨hslot, ‹_›, _, u, ‹_›, hu, ?_⟩
        rw [(flushOut_ok hu).2]

theorem idctBody_ok {s t : State} {slot q : Nat} (e : idctBody slot q s = .ok t) :
    slot ≤ 5 ∧ (∀ k < 64, s.mem.qt q k ≠ 0#16) ∧
      t = { s with mem := s.mem.writeAll (smpStores slot (idctSamples s.params.transform (dequantize s.mem slot q))) } := by
  unfold idctBody at e
  split at e
  · cases e
  · rename_i hs
    have hslot : slot ≤ 5 := by
      by_contra hc; unfold checkSlot at hs; rw [if_pos (by omega)] at hs; cases hs
    split at e <;> cases e
    exact ⟨hslot, checkQt_ok.mp ‹_›, rfl⟩

theorem fdctBody_ok {s t : State} {slot q : Nat} (e : fdctBody slot q s = .ok t) :
    slot ≤ 5 ∧ (∀ k < 64, s.mem.qt q k ≠ 0#16) ∧
      t = { s with
        mem := s.mem.writeAll
          (coefStores slot (fdctCoefs s.params.transform (levelShift s.mem slot) (s.mem.qtTable q))) } := by
  unfold fdctBody at e
  split at e
  · cases e
  · rename_i hs
    have hslot : slot ≤ 5 := by
      by_contra hc; unfold checkSlot at hs; rw [if_pos (by omega)] at hs; cases hs
    split at e <;> cases e
    exact ⟨hslot, checkQt_ok.mp ‹_›, rfl⟩

theorem cscInvBody_ok {s t : State} {a b c d : Nat} (e : cscInvBody a b c d s = .ok t) :
    ∃ yh yv, checkFactors a b c d = .ok (yh, yv) ∧ t = { s with mem := s.mem.writeAll (cscInvStores s.mem yh yv) } := by
  unfold cscInvBody at e
  split at e <;> cases e
  exact ⟨_, _, ‹_›, rfl⟩

theorem cscFwdBody_ok {s t : State} {a b c d : Nat} (e : cscFwdBody a b c d s = .ok t) :
    ∃ yh yv, checkFactors a b c d = .ok (yh, yv) ∧ t = { s with mem := s.mem.writeAll (cscFwdStores s.mem yh yv) } := by
  unfold cscFwdBody at e
  split at e <;> cases e
  exact ⟨_, _, ‹_›, rfl⟩

/-! ## Where the stores of the commands lie -/

theorem mem_coefStores {slot : Nat} {z : List Half} {c : Host.Cell} (hz : z.length = 64) (h : c ∈ coefStores slot z) :
    ∃ k < 64, c.1 = coefAddr slot k ∨ c.1 = coefAddr slot k + 1 := by
  obtain ⟨k, hk, e⟩ := mem_storesHalves h
  exact ⟨k, by omega, by simp only [coefAddr] at *; omega⟩

theorem mem_smpStores {slot : Nat} {z : List Byte} {c : Host.Cell} (hz : z.length = 64) (h : c ∈ smpStores slot z) :
    ∃ i < 64, c.1 = smpAddr slot i := by
  obtain ⟨i, hi, e⟩ := mem_storesBytes h
  exact ⟨i, by omega, by simp only [smpAddr] at *; omega⟩

theorem mem_obufStores {p : Nat} {l : List Byte} {c : Host.Cell} (h : c ∈ obufStores p l) :
    ∃ j < l.length, c.1 = obufAddr (p + j) := by
  obtain ⟨i, hi, e⟩ := mem_storesPacked h
  exact ⟨i, hi, by simp only [obufAddr] at *; omega⟩

theorem mem_tile {w h : Nat} {p : Nat × Nat} : p ∈ tile w h ↔ p.1 < w ∧ p.2 < h := by
  obtain ⟨x, y⟩ := p
  simp [tile, List.mem_flatMap, and_comm]

theorem mem_cscInvStores {m : Memory} {yh yv : Nat} {c : Host.Cell} (h : c ∈ cscInvStores m yh yv) :
    ∃ x < 8 * yh, ∃ y < 8 * yv, ∃ k < 3, c.1 = pixAddr (3 * (16 * y + x) + k) := by
  simp only [cscInvStores, List.mem_flatMap] at h
  obtain ⟨⟨x, y⟩, hp, hc⟩ := h
  rw [mem_tile] at hp
  refine ⟨x, hp.1, y, hp.2, ?_⟩
  simp only [invPixelStores, List.mem_cons, List.not_mem_nil, or_false] at hc
  rcases hc with rfl | rfl | rfl
  · exact ⟨0, by omega, rfl⟩
  · exact ⟨1, by omega, rfl⟩
  · exact ⟨2, by omega, rfl⟩

theorem mem_cscFwdStores {m : Memory} {yh yv : Nat} {c : Host.Cell} (h : c ∈ cscFwdStores m yh yv) :
    (∃ x < 8 * yh, ∃ y < 8 * yv, c.1 = smpAddr (lumaSlot yh x y) (lumaPos x y)) ∨
      (∃ k < 64, c.1 = smpAddr 4 k ∨ c.1 = smpAddr 5 k) := by
  simp only [cscFwdStores, fwdLumaStores, fwdChromaStores, List.mem_append, List.mem_map] at h
  rcases h with (⟨p, hp, rfl⟩ | ⟨p, hp, rfl⟩) | ⟨p, hp, rfl⟩ <;> rw [mem_tile] at hp
  · exact .inl ⟨p.1, hp.1, p.2, hp.2, rfl⟩
  · exact .inr ⟨8 * p.2 + p.1, by omega, .inl rfl⟩
  · exact .inr ⟨8 * p.2 + p.1, by omega, .inr rfl⟩

/-! ## The write set of every command -/

/-- What an ok body has changed, at most: HT_VALID, the cursors, the predictors and memory, and in memory only COEF, SMP, PIX and
the output from WR_POS on (70_reset_and_hazards.md R394). -/
theorem body_ok_frame {i : Instr} {s t : State} (h : body i s = .ok t) :
    t = { s with
      htValid := t.htValid, rdPos := t.rdPos, rdBit := t.rdBit, wrPos := t.wrPos, wrBit := t.wrBit, wrAcc := t.wrAcc,
      dcPred := t.dcPred, mem := t.mem } ∧
    ∃ l, t.mem = s.mem.writeAll l ∧ ∀ c ∈ l, (0x6000 ≤ c.1 ∧ c.1 < 0x7C00) ∨ 0x20000 + s.wrPos.toNat ≤ c.1 := by
  have none : ∃ l, s.mem = s.mem.writeAll l ∧ ∀ c ∈ l, (0x6000 ≤ c.1 ∧ c.1 < 0x7C00) ∨ 0x20000 + s.wrPos.toNat ≤ c.1 :=
    ⟨[], rfl, by simp⟩
  have obuf (l : List Byte) : ∀ c ∈ obufStores s.wrPos.toNat l,
      (0x6000 ≤ c.1 ∧ c.1 < 0x7C00) ∨ 0x20000 + s.wrPos.toNat ≤ c.1 := by
    intro c hc
    obtain ⟨j, -, e⟩ := mem_obufStores hc
    rw [e, obufAddr]; omega
  cases i with
  | nop => cases h; exact ⟨rfl, none⟩
  | htBuild cls id => rw [(htBuildBody_ok h).2]; exact ⟨rfl, none⟩
  | dcReset => cases h; exact ⟨rfl, none⟩
  | bsAlignRd => cases h; unfold alignReader; split <;> exact ⟨rfl, none⟩
  | bsFlushWr => rw [(flushOut_ok h).2]; exact ⟨rfl, _, rfl, obuf _⟩
  | hdec slot comp dct act =>
    obtain ⟨hs, -, z, c, hz, rfl⟩ := hdecBody_ok h
    refine ⟨rfl, _, rfl, fun x hx => ?_⟩
    obtain ⟨k, hk, e⟩ := mem_coefStores (decodeBlock_ok hz (by simp only [State.cursor]; omega)).2.2 hx
    simp only [coefAddr] at e; omega
  | henc slot comp dct act =>
    obtain ⟨-, -, bits, u, -, hu, rfl⟩ := hencBody_ok h
    rw [(flushOut_ok hu).2]; exact ⟨rfl, _, rfl, obuf _⟩
  | idct slot q =>
    obtain ⟨hs, -, rfl⟩ := idctBody_ok h
    refine ⟨rfl, _, rfl, fun x hx => ?_⟩
    obtain ⟨k, hk, e⟩ := mem_smpStores (by simp) hx
    simp only [smpAddr] at e; omega
  | fdct slot q =>
    obtain ⟨hs, -, rfl⟩ := fdctBody_ok h
    refine ⟨rfl, _, rfl, fun x hx => ?_⟩
    obtain ⟨k, hk, e⟩ := mem_coefStores (by simp) hx
    simp only [coefAddr] at e; omega
  | cscInv a b c d =>
    obtain ⟨yh, yv, hf, rfl⟩ := cscInvBody_ok h
    refine ⟨rfl, _, rfl, fun x hx => ?_⟩
    obtain ⟨x, hx, y, hy, k, hk, e⟩ := mem_cscInvStores hx
    have := checkFactors_ok hf
    simp only [pixAddr] at e; omega
  | cscFwd a b c d =>
    obtain ⟨yh, yv, hf, rfl⟩ := cscFwdBody_ok h
    refine ⟨rfl, _, rfl, fun x hx => ?_⟩
    have := checkFactors_ok hf
    rcases mem_cscFwdStores hx with ⟨x, hx, y, hy, e⟩ | ⟨k, hk, e⟩
    · simp only [smpAddr, lumaSlot, lumaPos] at e
      obtain ⟨-, -, (⟨-, -, rfl, rfl⟩ | ⟨-, -, rfl, rfl⟩ | ⟨-, -, rfl, rfl⟩)⟩ := this <;> omega
    · simp only [smpAddr] at e; omega

/-! ## What bodies raise -/

theorem htBuildBody_error {s : State} {h : Nat} {r : Raise} (e : htBuildBody s h = .error r) :
    ∃ d ∈ [1#8, 2#8, 3#8, 4#8], r = .error .malformedTable d := by
  unfold htBuildBody at e
  split at e <;> cases e
  exact checkTable_error ‹_›

theorem hdecBody_error {s : State} {slot comp dct act : Nat} {r : Raise} (e : hdecBody slot comp dct act s = .error r) :
    (5 < slot ∧ r = .error .invalidArgument 1#8) ∨ r = .error .malformedTable 5#8 ∨ DecodeStop s.source r := by
  unfold hdecBody at e
  split at e
  · cases e; exact .inl (checkSlot_error ‹_›)
  · split at e
    · cases e; exact .inr (.inl (checkTables_error ‹_›))
    · split at e <;> cases e
      exact .inr (.inr (decodeBlock_error ‹_›))

theorem hencBody_error {s : State} {slot comp dct act : Nat} {r : Raise} (e : hencBody slot comp dct act s = .error r) :
    (5 < slot ∧ r = .error .invalidArgument 1#8) ∨ r = .error .malformedTable 5#8 ∨ EncodeStop r ∨
      (r = .outFull ∧ ∃ bits, encodeBlock (htTable s.mem (dcTableIndex dct)) (htTable s.mem (acTableIndex act))
          (s.dcPred.get comp) (s.mem.coefBlock slot) = .ok bits ∧
        s.params.obufBytes < s.wrPos.toNat + (outBytes (s.pendingBits ++ bits)).length) := by
  unfold hencBody at e
  split at e
  · cases e; exact .inl (checkSlot_error ‹_›)
  · split at e
    · cases e; exact .inr (.inl (checkTables_error ‹_›))
    · split at e
      · cases e; exact .inr (.inr (.inl (encodeBlock_error ‹_›)))
      · split at e <;> cases e
        rename_i hf
        obtain ⟨h1, rfl⟩ := flushOut_error hf
        exact .inr (.inr (.inr ⟨rfl, _, ‹_›, h1⟩))

theorem transformBody_error {s : State} {slot q : Nat} {r : Raise}
    (e : idctBody slot q s = .error r ∨ fdctBody slot q s = .error r) :
    (5 < slot ∧ r = .error .invalidArgument 1#8) ∨ r = .error .malformedTable 6#8 := by
  unfold idctBody fdctBody at e
  cases hs : checkSlot slot with
  | error x => simp only [hs, Except.error.injEq, or_self] at e; exact .inl (e ▸ checkSlot_error hs)
  | ok u =>
    cases hq : checkQt s.mem q with
    | error x => simp only [hs, hq, Except.error.injEq, or_self] at e; exact .inr (e ▸ (checkQt_error hq).2)
    | ok u => simp [hs, hq] at e

theorem colourBody_error {s : State} {a b c d : Nat} {r : Raise}
    (e : cscInvBody a b c d s = .error r ∨ cscFwdBody a b c d s = .error r) : r = .error .unsupportedFormat 1#8 := by
  unfold cscInvBody cscFwdBody at e
  cases hf : checkFactors a b c d with
  | error x => simp only [hf, Except.error.injEq, or_self] at e; exact e ▸ checkFactors_error hf
  | ok u => simp [hf] at e

/-! ## HT_VALID and the cursors -/

/-- Only HT_BUILD changes HT_VALID. -/
theorem body_htValid {i : Instr} {s t : State} (h : body i s = .ok t) :
    t.htValid = s.htValid ∨ ∃ cls id, i = .htBuild cls id := by
  cases i with
  | nop => cases h; exact .inl rfl
  | htBuild cls id => exact .inr ⟨_, _, rfl⟩
  | dcReset => cases h; exact .inl rfl
  | bsAlignRd => cases h; unfold alignReader; split <;> exact .inl rfl
  | bsFlushWr => rw [(flushOut_ok h).2]; exact .inl rfl
  | hdec slot comp dct act => obtain ⟨-, -, z, c, -, rfl⟩ := hdecBody_ok h; exact .inl rfl
  | henc slot comp dct act =>
    obtain ⟨-, -, bits, u, -, hu, rfl⟩ := hencBody_ok h
    rw [(flushOut_ok hu).2]; exact .inl rfl
  | idct slot q => obtain ⟨-, -, rfl⟩ := idctBody_ok h; exact .inl rfl
  | fdct slot q => obtain ⟨-, -, rfl⟩ := fdctBody_ok h; exact .inl rfl
  | cscInv a b c d => obtain ⟨yh, yv, -, rfl⟩ := cscInvBody_ok h; exact .inl rfl
  | cscFwd a b c d => obtain ⟨yh, yv, -, rfl⟩ := cscFwdBody_ok h; exact .inl rfl

/-- An ok body keeps the cursors inside their buffers. -/
theorem body_cursorsInside {i : Instr} {s t : State} (h : body i s = .ok t) (hc : s.cursorsInside = true) :
    t.cursorsInside = true := by
  simp only [State.cursorsInside, Bool.and_eq_true, decide_eq_true_eq] at hc ⊢
  have hmod (n m : Nat) (h : n ≤ m) : (BitVec.ofNat 17 n).toNat ≤ m := by
    rw [BitVec.toNat_ofNat]; exact (Nat.mod_le _ _).trans h
  cases i with
  | nop => cases h; exact hc
  | htBuild cls id => rw [(htBuildBody_ok h).2]; exact hc
  | dcReset => cases h; exact hc
  | bsAlignRd =>
    cases h; unfold alignReader; split
    · exact ⟨⟨hmod _ _ (min_le_right _ _), hc.1.2⟩, hc.2⟩
    · exact hc
  | bsFlushWr => obtain ⟨h1, rfl⟩ := flushOut_ok h; exact ⟨hc.1, hmod _ _ h1⟩
  | hdec slot comp dct act =>
    obtain ⟨-, -, z, c, e, rfl⟩ := hdecBody_ok h
    have := (decodeBlock_ok e (by simp only [State.cursor]; omega)).1
    exact ⟨⟨hmod _ _ (this.trans hc.1.2), hc.1.2⟩, hc.2⟩
  | henc slot comp dct act =>
    obtain ⟨-, -, bits, u, -, hu, rfl⟩ := hencBody_ok h
    obtain ⟨h1, rfl⟩ := flushOut_ok hu; exact ⟨hc.1, hmod _ _ h1⟩
  | idct slot q => obtain ⟨-, -, rfl⟩ := idctBody_ok h; exact hc
  | fdct slot q => obtain ⟨-, -, rfl⟩ := fdctBody_ok h; exact hc
  | cscInv a b c d => obtain ⟨yh, yv, -, rfl⟩ := cscInvBody_ok h; exact hc
  | cscFwd a b c d => obtain ⟨yh, yv, -, rfl⟩ := cscFwdBody_ok h; exact hc

end Sys2Proof.Machine
end

