-- ==== Sys2Proof/Laws/Stores.lean ====
section
/-! SUPPORT. Blocks of elements read back as stored, and a stored block leaves every other byte alone. -/

namespace Sys2Proof.Machine

theorem read_storesBytes (m : Memory) (a : Nat) (l : List Byte) (i : Nat) (hi : i < l.length) :
    (m.writeAll (storesBytes a l)).read (a + 4 * i) = l[i] := by
  induction l generalizing m a i with
  | nil => simp at hi
  | cons v rest ih =>
    rw [storesBytes, Memory.writeAll_cons]
    rcases i with _ | i
    · rw [Memory.read_writeAll_other]
      · simp
      · intro c hc; obtain ⟨j, -, e⟩ := mem_storesBytes hc; omega
    · have := ih (m.write a v) (a + 4) i (by simpa using hi)
      rw [show a + 4 * (i + 1) = a + 4 + 4 * i by omega]
      simpa using this

theorem read16_storesHalves (m : Memory) (a : Nat) (l : List Half) (i : Nat) (hi : i < l.length) :
    (m.writeAll (storesHalves a l)).read16 (a + 4 * i) = l[i] := by
  induction l generalizing m a i with
  | nil => simp at hi
  | cons v rest ih =>
    rw [storesHalves, Memory.writeAll_append]
    rcases i with _ | i
    · have h (x : Nat) (hx : x < a + 4) : ((m.writeAll (stores16 a v)).writeAll (storesHalves (a + 4) rest)).read x =
          (m.writeAll (stores16 a v)).read x := by
        refine Memory.read_writeAll_other _ _ _ fun c hc => ?_
        obtain ⟨j, -, e⟩ := mem_storesHalves hc; omega
      simp only [Memory.read16, Nat.mul_zero, Nat.add_zero, List.getElem_cons_zero]
      rw [h _ (by omega), h _ (by omega)]
      simp only [stores16, Memory.writeAll_cons, Memory.writeAll_nil, Memory.read_write]
      rw [if_pos trivial, if_neg (by omega), if_pos trivial, BitVec.extractLsb'_append_extractLsb'_eq_extractLsb' (by omega)]
      simp
    · have := ih (m.writeAll (stores16 a v)) (a + 4) i (by simpa using hi)
      rw [show a + 4 * (i + 1) = a + 4 + 4 * i by omega]
      simpa using this

/-- A stored SMP block reads as stored. -/
theorem smp_smpStores (m : Memory) (slot : Nat) (l : List Byte) (i : Nat) (hi : i < l.length) :
    (m.writeAll (smpStores slot l)).smp slot i = l[i] := by
  have := read_storesBytes m (smpAddr slot 0) l i hi
  rwa [show smpAddr slot 0 + 4 * i = smpAddr slot i by simp only [smpAddr]; omega] at this

/-- A stored COEF block reads as stored. -/
theorem coef_coefStores (m : Memory) (slot : Nat) (l : List Half) (k : Nat) (hk : k < l.length) :
    (m.writeAll (coefStores slot l)).coef slot k = l[k] := by
  have := read16_storesHalves m (coefAddr slot 0) l k hk
  rwa [show coefAddr slot 0 + 4 * k = coefAddr slot k by simp only [coefAddr]; omega] at this

/-- Stored output bytes read as stored. -/
theorem read_obufStores (m : Memory) (p : Nat) (l : List Byte) (j : Nat) (hj : j < l.length) :
    (m.writeAll (obufStores p l)).read (obufAddr (p + j)) = l[j] := by
  unfold obufStores
  induction l generalizing m p j with
  | nil => simp at hj
  | cons v rest ih =>
    rw [storesPacked, Memory.writeAll_cons]
    rcases j with _ | j
    · rw [Memory.read_writeAll_other]
      · simp
      · intro c hc; obtain ⟨i, -, e⟩ := mem_storesPacked hc; simp only [obufAddr] at *; omega
    · have := ih (m.write (obufAddr p) v) (p + 1) j (by simpa using hj)
      rw [show p + (j + 1) = p + 1 + j by omega]
      simpa [obufAddr, add_assoc] using this

/-! ## Frames -/

theorem read_coefStores_other (m : Memory) (slot : Nat) (l : List Half) (hl : l.length = 64) (a : Nat)
    (h : ∀ k < 64, a ≠ coefAddr slot k ∧ a ≠ coefAddr slot k + 1) :
    (m.writeAll (coefStores slot l)).read a = m.read a := by
  refine Memory.read_writeAll_other _ _ _ fun c hc e => ?_
  obtain ⟨k, hk, e'⟩ := mem_coefStores hl hc
  have := h k hk; omega

theorem read_smpStores_other (m : Memory) (slot : Nat) (l : List Byte) (hl : l.length = 64) (a : Nat)
    (h : ∀ i < 64, a ≠ smpAddr slot i) : (m.writeAll (smpStores slot l)).read a = m.read a := by
  refine Memory.read_writeAll_other _ _ _ fun c hc e => ?_
  obtain ⟨i, hi, e'⟩ := mem_smpStores hl hc
  exact h i hi (e.symm.trans e')

theorem read_obufStores_other (m : Memory) (p : Nat) (l : List Byte) (a : Nat)
    (h : ∀ j < l.length, a ≠ obufAddr (p + j)) : (m.writeAll (obufStores p l)).read a = m.read a := by
  refine Memory.read_writeAll_other _ _ _ fun c hc e => ?_
  obtain ⟨j, hj, e'⟩ := mem_obufStores hc
  exact h j hj (e.symm.trans e')

/-! ## Single elements -/

theorem read16_stores16 (m : Memory) (off : Nat) (v : Half) : (m.writeAll (stores16 off v)).read16 off = v := by
  simpa [storesHalves] using read16_storesHalves m off [v] 0 (by simp)

theorem read9_stores9 (m : Memory) (off : Nat) (v : BitVec 9) : (m.writeAll (stores9 off v)).read9 off = v := by
  simp only [stores9, Memory.writeAll_cons, Memory.writeAll_nil, Memory.read9, Memory.read_write]
  rw [if_pos trivial, if_neg (by omega), if_pos trivial]
  revert v; decide +kernel

theorem read32_stores32 (m : Memory) (off : Nat) (v : Word) : (m.writeAll (stores32 off v)).read32 off = v := by
  simp only [stores32, Memory.writeAll_cons, Memory.writeAll_nil, Memory.read32, Memory.read_write]
  simp only [Nat.add_right_cancel_iff, Nat.add_left_cancel_iff, Nat.left_eq_add, Nat.add_eq_left,
    OfNat.ofNat_ne_zero, one_ne_zero, if_true, if_false, OfNat.ofNat_ne_one, Nat.reduceEqDiff]
  rw [BitVec.extractLsb'_append_extractLsb'_eq_extractLsb' (by omega),
    BitVec.extractLsb'_append_extractLsb'_eq_extractLsb' (by omega),
    BitVec.extractLsb'_append_extractLsb'_eq_extractLsb' (by omega)]
  simp

/-- The bytes of a stored word, little-endian (20_memory.md R81). -/
theorem read_stores32 (m : Memory) (off : Nat) (v : Word) (j : Nat) (hj : j < 4) :
    (m.writeAll (stores32 off v)).read (off + j) = v.extractLsb' (8 * j) 8 := by
  simp only [stores32, Memory.writeAll_cons, Memory.writeAll_nil, Memory.read_write]
  interval_cases j <;> simp

/-! ## The tiles of colour conversion -/

theorem tile_nodup (w h : Nat) : (tile w h).Nodup := by
  unfold tile
  rw [List.nodup_flatMap]
  refine ⟨fun y _ => (List.nodup_range).map fun a b e => by simpa using e, ?_⟩
  refine List.Pairwise.imp (fun {a b} h => ?_) (List.nodup_range (n := h))
  intro x hx hy
  simp at hx hy
  obtain ⟨_, -, rfl⟩ := hx; obtain ⟨_, -, e⟩ := hy
  simp at e; exact h e.2.symm

/-- CSC_INV stores to each PIX byte once. -/
theorem cscInvStores_nodup (m : Memory) (yh yv : Nat) (h2 : yh ≤ 2) : ((cscInvStores m yh yv).map Prod.fst).Nodup := by
  rw [cscInvStores, List.map_flatMap, List.nodup_flatMap]
  refine ⟨fun p hp => by simp [invPixelStores, pixAddr, pixIndex], ?_⟩
  refine List.Pairwise.imp_of_mem (fun {a b} ha hb hne => ?_) (tile_nodup _ _)
  rw [mem_tile] at ha hb
  intro x hx hy
  simp [invPixelStores, pixAddr, pixIndex] at hx hy
  apply hne
  obtain ⟨a1, a2⟩ := a; obtain ⟨b1, b2⟩ := b
  simp only [Prod.mk.injEq]
  simp only at *
  omega

end Sys2Proof.Machine
end

