-- ==== Sys2Proof/Laws/Transforms.lean ====
section
/-! SUPPORT. The separable passes compute 16 times the reference transforms of 43_transform.md R262, and the rounding to bytes and
halves. -/

namespace Sys2Proof.Machine

theorem cos2_angle_dctC (x u : Nat) :
    cos2 (angle x u) = 2 * dctC u * Real.cos ((2 * x + 1) * u * Real.pi / 16) := cos2_angle x u

theorem sum_map_range8 (f : Nat → ℝ) : ((List.range 8).map f).sum = ∑ i ∈ Finset.range 8, f i := rfl

theorem idctRows_value (d : List Int) (n : Nat) (hn : n < 64) :
    ((idctRows d).getD n CosSum.zero).value =
      ∑ u ∈ Finset.range 8, (d.getD (8 * (n / 8) + u) 0 : ℝ) * cos2 (angle (n % 8) u) := by
  rw [List.getD_eq_getElem _ _ (by simpa [idctRows] using hn)]
  simp only [idctRows, List.getElem_map, List.getElem_range, CosSum.value_foldl, CosSum.value_zero, zero_add]
  rfl

/-- The inverse passes give 16 · IDCT_ref (43_transform.md R262). -/
theorem idct16_value (d : List Int) (x y : Nat) (hx : x < 8) (hy : y < 8) :
    ((idct16 d).getD (8 * y + x) CosSum.zero).value = 16 * idctRef (fun n => d.getD n 0) x y := by
  rw [List.getD_eq_getElem _ _ (by simp [idct16, idctColumns]; omega)]
  simp only [idct16, idctColumns, List.getElem_map, List.getElem_range, CosSum.value_foldl_scaled, CosSum.value_zero,
    zero_add]
  rw [show (8 * y + x) % 8 = x by omega, show (8 * y + x) / 8 = y by omega, sum_map_range8]
  unfold idctRef
  rw [Finset.sum_comm, ← mul_assoc, Finset.mul_sum]
  refine Finset.sum_congr rfl fun v hv => ?_
  have hv : v < 8 := Finset.mem_range.mp hv
  rw [idctRows_value _ _ (by omega), show (8 * v + x) / 8 = v by omega, show (8 * v + x) % 8 = x by omega,
    Finset.sum_mul, Finset.mul_sum]
  refine Finset.sum_congr rfl fun u _ => ?_
  rw [cos2_angle_dctC, cos2_angle_dctC]; ring

theorem fdctRows_value (g : List Int) (n : Nat) (hn : n < 64) :
    ((fdctRows g).getD n CosSum.zero).value =
      ∑ x ∈ Finset.range 8, (g.getD (8 * (n / 8) + x) 0 : ℝ) * cos2 (angle x (n % 8)) := by
  rw [List.getD_eq_getElem _ _ (by simpa [fdctRows] using hn)]
  simp only [fdctRows, List.getElem_map, List.getElem_range, CosSum.value_foldl, CosSum.value_zero, zero_add]
  rfl

/-- The forward passes give 16 · FDCT_ref (43_transform.md R262). -/
theorem fdct16_value (g : List Int) (u v : Nat) (hu : u < 8) (hv : v < 8) :
    ((fdct16 g).getD (8 * v + u) CosSum.zero).value = 16 * fdctRef (fun n => g.getD n 0) u v := by
  rw [List.getD_eq_getElem _ _ (by simp [fdct16, fdctColumns]; omega)]
  simp only [fdct16, fdctColumns, List.getElem_map, List.getElem_range, CosSum.value_foldl_scaled, CosSum.value_zero,
    zero_add]
  rw [show (8 * v + u) % 8 = u by omega, show (8 * v + u) / 8 = v by omega, sum_map_range8]
  unfold fdctRef
  rw [Finset.sum_comm, ← mul_assoc, ← mul_assoc, ← mul_assoc, Finset.mul_sum]
  refine Finset.sum_congr rfl fun y hy => ?_
  have hy : y < 8 := Finset.mem_range.mp hy
  rw [fdctRows_value _ _ (by omega), show (8 * y + u) / 8 = y by omega, show (8 * y + u) % 8 = u by omega,
    Finset.sum_mul, Finset.mul_sum]
  refine Finset.sum_congr rfl fun x _ => ?_
  rw [cos2_angle_dctC, cos2_angle_dctC]; ring

/-- Rounding a cosine sum over `d` rounds the real quotient. -/
theorem rndDiv_toQuad (x : CosSum) (d : Nat) (hd : 0 < d) : x.toQuad.rndDiv d = rndReal (x.value / d) := by
  rw [Quad3.rndDiv_spec _ _ hd, CosSum.value_toQuad]

theorem toNat_clampByte (v : Int) : ((clampByte v).toNat : ℤ) = clamp255 v := by
  unfold clampByte clamp255
  rw [BitVec.toNat_ofNat, Nat.mod_eq_of_lt (by omega)]
  omega

theorem toInt_wrap16 (v : Int) (h1 : -32768 ≤ v) (h2 : v ≤ 32767) : (wrap16 v).toInt = v := by
  unfold wrap16
  rw [BitVec.toInt_ofInt]
  exact Int.bmod_eq_of_le (by norm_num; omega) (by norm_num; omega)

/-- Rounding a quotient of integers is rounding the real quotient (00_scope.md R12). -/
theorem rndDiv_eq_rndReal (n : Int) (d : Nat) (hd : 0 < d) : rndDiv n d = rndReal ((n : ℝ) / d) := by
  have hd' : (0 : ℝ) < d := by exact_mod_cast hd
  have key (a : Int) : (2 * a + d) / (2 * (d : ℤ)) = ⌊(a : ℝ) / d + 1 / 2⌋ := by
    rw [show (a : ℝ) / d + 1 / 2 = ((2 * a + d : ℤ) : ℝ) / ((2 * d : ℕ) : ℝ) by push_cast; field_simp,
      Int.floor_div_natCast, Int.floor_intCast]
    push_cast; rfl
  unfold rndDiv rndReal
  have hs : (0 : ℝ) ≤ (n : ℝ) / d ↔ 0 ≤ n := by
    rw [le_div_iff₀ hd', zero_mul]; exact_mod_cast Iff.rfl
  by_cases h : 0 ≤ n
  · rw [if_pos h, if_pos (hs.mpr h), ← key]
  · rw [if_neg h, if_neg (fun h' => h (hs.mp h'))]
    have := key (-n)
    rw [show ((-n : ℤ) : ℝ) / d = -((n : ℝ) / d) by push_cast; ring] at this
    rw [← this]
    congr 2; ring

/-- The supplied quotient is the real one, rounded once (R266, R268). -/
theorem suppliedQuotient_eq (g : List Int) (q : List Half) (n d : Nat) (hd : 0 < d) :
    suppliedQuotient g q n d = rndReal ((Config.fdctTransform g q n : ℝ) / d) := by
  unfold suppliedQuotient
  rw [rndDiv_eq_rndReal _ _ (Nat.mul_pos (Rat.den_pos _) hd), Rat.cast_def]
  push_cast
  rw [div_div]

/-- The zig-zag table is a permutation of 0..63. -/
theorem izz_zz : ∀ k < 64, izz (zz k) = k := by decide +kernel

theorem zz_izz : ∀ n < 64, zz (izz n) = n := by decide +kernel

theorem zz_lt : ∀ k < 64, zz k < 64 := by decide +kernel

theorem izz_lt : ∀ n < 64, izz n < 64 := by decide +kernel

end Sys2Proof.Machine
end

