-- ==== Sys2Proof/Laws/Basis.lean ====
section
/-! SUPPORT. The DCT basis over the reals: it is orthogonal, so the reference transforms invert each other (43_transform.md R262,
R270), and its rows have bounded absolute sums, so coefficient errors of at most one half move a sample by less than 3.5. -/

namespace Sys2Proof.Machine

/-- Σ over a list of products of cosines, computed exactly. -/
theorem sum_cos2_mul (l : List (Nat × Nat)) : (l.map fun p => cos2 p.1 * cos2 p.2).sum =
    (l.foldl (fun a p => a.addProduct 1 p.1 p.2) CosSum.zero).value := by
  have (a : CosSum) : a.value + (l.map fun p => cos2 p.1 * cos2 p.2).sum =
    (l.foldl (fun a p => a.addProduct 1 p.1 p.2) a).value := by
    induction l generalizing a with
    | nil => simp
    | cons p r ih => rw [List.foldl_cons, ← ih, CosSum.value_addProduct]; simp; ring
  rw [← this, CosSum.value_zero, zero_add]

/-- The exact sums of products of two rows. -/
theorem orthogonal_sums : ∀ x < 8, ∀ y < 8,
    (((List.range 8).map fun u => (angle x u, angle y u)).foldl (fun a p => a.addProduct 1 p.1 p.2)
      CosSum.zero) =
   { CosSum.zero with c0 := if x = y then 8 else 0 } := by decide +kernel

/-- Rows of the basis are orthogonal. -/
theorem basis_orthogonal {x y : Nat} (hx : x < 8) (hy : y < 8) :
    ∑ u ∈ Finset.range 8, cos2 (angle x u) * cos2 (angle y u) = if x = y then 16 else 0 := by
  have := sum_cos2_mul ((List.range 8).map fun u => (angle x u, angle y u))
  rw [orthogonal_sums x hx y hy, List.map_map] at this
  rw [← sum_map_range8]
  refine this.trans ?_
  simp [CosSum.value_eq, cos2_zero, CosSum.zero]
  split_ifs <;> norm_num

theorem fdctRef_eq (g : Nat → ℤ) (u v : Nat) :
    fdctRef g u v = 1/16 * ∑ x ∈ Finset.range 8, ∑ y ∈ Finset.range 8, g (8*y+x) * (cos2 (angle x u) * cos2 (angle y v)) := by
    unfold fdctRef
    simp only [cos2_angle_dctC, Finset.mul_sum]
    refine Finset.sum_congr rfl fun x _ => Finset.sum_congr rfl fun y _ => ?_
    ring

/-- idctRef on real coefficients. -/
noncomputable def idctReal (d : Nat → ℝ) (x y : Nat) : ℝ :=
  1/16 * ∑ u ∈ Finset.range 8, ∑ v ∈ Finset.range 8, d (8*v+u) * (cos2 (angle x u) * cos2 (angle y v))

theorem idctRef_eq (d : Nat → ℤ) (x y : Nat) : idctRef d x y = idctReal (fun n => d n) x y := by
    unfold idctRef idctReal
    simp only [cos2_angle_dctC, Finset.mul_sum]
    refine Finset.sum_congr rfl fun x _ => Finset.sum_congr rfl fun y _ => ?_
    ring

/-- The inverse transform undoes the forward one, without rounding. -/
theorem idctReal_fdctRef (g : Nat → ℤ) (x y : Nat) (hx : x < 8) (hy : y < 8) :
    idctReal (fun n => fdctRef g (n % 8) (n / 8)) x y = g (8*y+x) := by
  unfold idctReal
  have h1 : ∀ u ∈ Finset.range 8, ∀ v ∈ Finset.range 8, fdctRef g ((8*v+u) % 8) ((8*v+u)/8) * (cos2 (angle x u) * cos2 (angle y v)) = 
     1/16 * ∑ x' ∈ Finset.range 8, ∑ y' ∈ Finset.range 8, (g (8*y'+x') : ℝ) * ((cos2 (angle x' u) * cos2 (angle x u)) * (cos2 (angle y' v) * cos2 (angle y v))) := by
    intro u hu v hv
    simp at hu hv
    rw [show (8*v+u) % 8 = u by omega, show (8*v+u)/8 = v by omega, fdctRef_eq, mul_assoc, Finset.sum_mul]
    congr 1
    refine Finset.sum_congr rfl fun x _ => ?_
    rw [Finset.sum_mul]
    refine Finset.sum_congr rfl fun y _ => ?_
    ring
  rw [Finset.sum_congr rfl fun u hu => Finset.sum_congr rfl fun v hv => h1 u hu v hv]
  simp only [← Finset.mul_sum]
  rw [← mul_assoc]
  have h2 : ∑ u ∈ Finset.range 8, ∑ v ∈ Finset.range 8, ∑ x' ∈ Finset.range 8, ∑ y' ∈ Finset.range 8, (g (8*y'+x') : ℝ) * ((cos2 (angle x' u) * cos2 (angle x u)) * (cos2 (angle y' v) * cos2 (angle y v))) =
     ∑ x' ∈ Finset.range 8, ∑ y' ∈ Finset.range 8, (g (8*y'+x') : ℝ) * ((∑ u ∈ Finset.range 8, cos2 (angle x' u) * cos2 (angle x u)) * (∑ v ∈ Finset.range 8, cos2 (angle y' v) * cos2 (angle y v))) := by
    simp only [Finset.sum_mul_sum]
    simp only [Finset.mul_sum]
    calc _ = ∑ u ∈ Finset.range 8, ∑ x' ∈ Finset.range 8, ∑ y' ∈ Finset.range 8, ∑ v ∈ Finset.range 8, (g (8*y'+x') : ℝ) * ((cos2 (angle x' u) * cos2 (angle x u)) * (cos2 (angle y' v) * cos2 (angle y v))) := by
            refine Finset.sum_congr rfl fun u _ => ?_
            rw [Finset.sum_comm]
            refine Finset.sum_congr rfl fun x' _ => ?_
            rw [Finset.sum_comm]
      _ = _ := by
            rw [Finset.sum_comm]
            refine Finset.sum_congr rfl fun x' _ => ?_
            rw [Finset.sum_comm]
  rw [h2]
  have h3 : ∀ x' ∈ Finset.range 8, ∀ y' ∈ Finset.range 8, (g (8*y'+x') : ℝ) * ((∑ u ∈ Finset.range 8, cos2 (angle x' u) * cos2 (angle x u)) * (∑ v ∈ Finset.range 8, cos2 (angle y' v) * cos2 (angle y v))) =
     if x' = x then (if y' = y then (g (8*y'+x') : ℝ) * 256 else 0) else 0 := by
    intro x' h1 y' h2
    simp at h1 h2
    rw [basis_orthogonal h1 hx, basis_orthogonal h2 hy]
    split_ifs <;> norm_num
  rw [Finset.sum_congr rfl fun u hu => Finset.sum_congr rfl fun v hv => h3 u hu v hv]
  rw [Finset.sum_eq_single x (by intro b _ hb; simp [hb]) (by simp [hx])]
  rw [Finset.sum_eq_single y (by intro b _ hb; simp [hb]) (by simp [hy])]
  simp; ring

theorem cos2_pos : 0 < cos2 1 ∧ 0 < cos2 2 ∧ 0 < cos2 3 ∧ 0 < cos2 4 ∧ 0 < cos2 5 ∧ 0 < cos2 6 ∧ 0 < cos2 7 := by
  have (k : ℤ) (h0 : 0 < k) (h : k < 8) : 0 < cos2 k := by
    unfold cos2
    have hk : (0:ℝ) < k := by exact_mod_cast h0
    have hk' : (k:ℝ) < 8 := by exact_mod_cast h
    have := Real.cos_pos_of_mem_Ioo (x := k * Real.pi / 16) ⟨by nlinarith [Real.pi_pos], by nlinarith [Real.pi_pos]⟩
    linarith
  refine ⟨this _ ?_ ?_, this _ ?_ ?_, this _ ?_ ?_, this _ ?_ ?_, this _ ?_ ?_, this _ ?_ ?_, this _ ?_ ?_⟩ <;> norm_num

/-- The angle in 0..8 with the same absolute cosine. -/
def foldAngle (k : Nat) : Nat :=
  let m := k % 32
  let a := if m ≤ 16 then m else 32 - m
  if a ≤ 8 then a else 16 - a

theorem abs_cos2 (k : Nat) : |cos2 k| = |cos2 (foldAngle k)| := by
  rw [cos2_mod k]
  have hr : k % 32 < 32 := Nat.mod_lt _ (by norm_num)
  unfold foldAngle
  generalize k % 32 = m at hr ⊢
  have h16 : cos2 ((32 - m : ℕ) : ℤ) = cos2 m := by
    rw [← cos2_neg, show -(((32 - m : ℕ)) : ℤ) = (m : ℤ) + 32 * (-1) by omega, cos2_period]
  have hh (j : ℕ) (hj : j ≤ 16) : |cos2 ((16 - j : ℕ) : ℤ)| = |cos2 j| := by
    rw [show ((16 - j : ℕ) : ℤ) = 16 - j by omega, cos2_half, abs_neg]
  simp only
  split_ifs with h1 h2 h2
  · rfl
  · rw [hh _ h1]
  · rw [h16]
  · rw [hh _ (by omega), h16]

/-- Every row has the same absolute values. -/
theorem basisRow_perm : ∀ x < 8, ((List.range 8).map fun u => foldAngle (angle x u)).Perm [4,1,2,3,4,5,6,7] := by decide +kernel

theorem basisRow_abs_le {x : Nat} (hx : x < 8) : ∑ u ∈ Finset.range 8, |cos2 (angle x u)| ≤ 10.58 := by
  rw [← sum_map_range8]
  have : (List.range 8).map (fun u => |cos2 (angle x u)|) = ((List.range 8).map fun u => foldAngle (angle x u)).map fun k => |cos2 (k : ℕ)| := by
    rw [List.map_map]; refine List.map_congr_left fun u _ => abs_cos2 _
  rw [this, ((basisRow_perm x hx).map _).sum_eq]
  obtain ⟨p1, p2, p3, p4, p5, p6, p7⟩ := cos2_pos
  simp only [List.map_cons, List.map_nil, List.sum_cons, List.sum_nil, Nat.cast_ofNat, Nat.cast_one]
  rw [abs_of_pos p1, abs_of_pos p2, abs_of_pos p3, abs_of_pos p4, abs_of_pos p5, abs_of_pos p6, abs_of_pos p7]
  have h3 : cos2 3 = rootW * (rootT - 1) := by
    have := cos2_mul 2 1; norm_num at this; rw [cos2_two, cos2_one] at this; linarith
  have h5 : cos2 5 = rootW * (rootS - rootT + 1) := by
    have := cos2_mul 4 1; norm_num at this; rw [cos2_four, cos2_one, h3] at this; linarith
  have h6 : cos2 6 = rootT * (rootS - 1) := by
    have := cos2_mul 4 2; norm_num at this; rw [cos2_four, cos2_two] at this; linarith
  have h7 : cos2 7 = rootW * (rootT * rootS - rootS - 1) := by
    have := cos2_mul 6 1; norm_num at this; rw [h6, cos2_one, h5] at this; linarith
  rw [cos2_one, cos2_two, h3, cos2_four, h5, h6, h7]
  have hs : rootS ≤ 1.4143 := by nlinarith [rootS_sq, rootS_pos]
  have ht : rootT ≤ 1.8479 := by nlinarith [rootT_sq, rootT_pos]
  have hw : rootW ≤ 1.9617 := by nlinarith [rootW_sq, rootW_pos]
  have e1 : rootT * rootS ≤ 1.8479 * 1.4143 := mul_le_mul ht hs rootS_pos.le (by norm_num)
  have e2 : rootW * (rootT * rootS) ≤ 1.9617 * (1.8479 * 1.4143) := mul_le_mul hw e1 (by have := rootT_pos; have := rootS_pos; positivity) (by norm_num)
  nlinarith

/-- Errors of at most one half in every coefficient move a sample by less than 3.5. -/
theorem idctReal_lt (e : Nat → ℝ) (he : ∀ n < 64, |e n| ≤ 1/2) {x y : Nat} (hx : x < 8) (hy : y < 8) :
    |idctReal e x y| < 3.5 := by
  unfold idctReal
  rw [abs_mul]
  have b : |∑ u ∈ Finset.range 8, ∑ v ∈ Finset.range 8, e (8*v+u) * (cos2 (angle x u) * cos2 (angle y v))| ≤ 
     ∑ u ∈ Finset.range 8, ∑ v ∈ Finset.range 8, 1/2 * (|cos2 (angle x u)| * |cos2 (angle y v)|) := by
    refine (Finset.abs_sum_le_sum_abs _ _).trans (Finset.sum_le_sum fun u hu => ?_)
    refine (Finset.abs_sum_le_sum_abs _ _).trans (Finset.sum_le_sum fun v hv => ?_)
    simp at hu hv
    rw [abs_mul, abs_mul]
    exact mul_le_mul_of_nonneg_right (he _ (by omega)) (by positivity)
  have c : ∑ u ∈ Finset.range 8, ∑ v ∈ Finset.range 8, 1/2 * (|cos2 (angle x u)| * |cos2 (angle y v)|) = 1/2 * ((∑ u ∈ Finset.range 8, |cos2 (angle x u)|) * (∑ v ∈ Finset.range 8, |cos2 (angle y v)|)) := by
    rw [Finset.sum_mul_sum, Finset.mul_sum]
    refine Finset.sum_congr rfl fun x _ => ?_
    rw [Finset.mul_sum]
  rw [c] at b
  have h1 := basisRow_abs_le hx
  have h2 := basisRow_abs_le hy
  have hA : 0 ≤ ∑ u ∈ Finset.range 8, |cos2 (angle x u)| := Finset.sum_nonneg fun _ _ => abs_nonneg _
  have hB : 0 ≤ ∑ u ∈ Finset.range 8, |cos2 (angle y u)| := Finset.sum_nonneg fun _ _ => abs_nonneg _
  have := mul_le_mul h1 h2 hB (by norm_num)
  rw [abs_of_pos (by norm_num : (0:ℝ) < 1/16)]
  norm_num at this ⊢
  nlinarith

theorem abs_sub_rndReal (v : ℝ) : |v - rndReal v| ≤ 1/2 := by
  unfold rndReal
  rw [abs_le]
  split_ifs
  · have h1 := Int.floor_le (v + 1/2); have h2 := Int.lt_floor_add_one (v+1/2)
    constructor <;> linarith
  · have h1 := Int.floor_le (-v + 1/2); have h2 := Int.lt_floor_add_one (-v+1/2)
    push_cast
    constructor <;> linarith

theorem rndReal_near (n : ℤ) (r : ℝ) (h : |r| < 3.5) : |rndReal (n + r) - n| ≤ 3 := by
  have h1 := abs_sub_rndReal (n + r)
  have : |((rndReal (n+r) - n : ℤ) : ℝ)| < 4 := by
    push_cast
    rw [abs_lt] at *
    rw [abs_le] at h1
    constructor <;> linarith
  rw [← Int.cast_abs] at this
  have : |rndReal (n + r) - n| < 4 := by exact_mod_cast this
  omega

end Sys2Proof.Machine
end

