-- ==== Sys2Proof/Laws/Codes.lean ====
section
/-! SUPPORT. The canonical codes: their lengths, bounds and order (41_control_commands.md R171), and how symbols, magnitudes and
bit strings are read back (42_huffman.md R216, R217, R224). -/

namespace Sys2Proof.Machine

/-! ## Canonical codes -/

theorem canonicalCodes_length (counts : List Nat) (l code : Nat) : (canonicalCodes counts l code).length = counts.sum := by
  induction counts generalizing l code with
  | nil => rfl
  | cons n rest ih => simp [canonicalCodes, ih]

/-- Where the codes lie: lengths from `l` up, and no code below the first one padded with zeros. -/
theorem canonicalCodes_ge {counts : List Nat} {l code : Nat} {p : Nat × Nat} (h : p ∈ canonicalCodes counts l code) :
    l ≤ p.1 ∧ p.1 < l + counts.length ∧ code * 2 ^ (p.1 - l) ≤ p.2 := by
  induction counts generalizing l code with
  | nil => cases h
  | cons n rest ih =>
    simp only [canonicalCodes, List.mem_append, List.mem_map, List.mem_range] at h
    rcases h with ⟨i, -, rfl⟩ | h
    · simp
    · obtain ⟨h1, h2, h3⟩ := ih h
      refine ⟨by omega, by simp only [List.length_cons]; omega, le_trans ?_ h3⟩
      rw [show p.1 - l = (p.1 - (l + 1)) + 1 by omega, pow_succ]
      nlinarith [Nat.zero_le (2 ^ (p.1 - (l + 1))), Nat.zero_le n, Nat.zero_le (n * 2 ^ (p.1 - (l + 1)))]

/-- A code fits its length, unless some length is over-subscribed. -/
theorem canonicalCodes_lt {counts : List Nat} {l code : Nat} (ho : overSubscribed counts l code = false) {p : Nat × Nat}
    (h : p ∈ canonicalCodes counts l code) : p.2 < 2 ^ p.1 := by
  induction counts generalizing l code with
  | nil => cases h
  | cons n rest ih =>
    simp only [overSubscribed, Bool.or_eq_false_iff, decide_eq_false_iff_not] at ho
    simp only [canonicalCodes, List.mem_append, List.mem_map, List.mem_range] at h
    rcases h with ⟨i, hi, rfl⟩ | h
    · simp only; omega
    · exact ih ho.2 h

/-- Later codes are past all extensions of earlier ones. -/
theorem canonicalCodes_pairwise (counts : List Nat) (l code : Nat) :
    (canonicalCodes counts l code).Pairwise fun a b => a.1 ≤ b.1 ∧ (a.2 + 1) * 2 ^ (b.1 - a.1) ≤ b.2 := by
  induction counts generalizing l code with
  | nil => exact .nil
  | cons n rest ih =>
    rw [canonicalCodes, List.pairwise_append]
    refine ⟨?_, ih _ _, ?_⟩
    · rw [List.pairwise_map]
      refine List.Pairwise.imp (fun {a b} h => ?_) List.pairwise_lt_range
      simp; omega
    · intro a ha b hb
      simp only [List.mem_map, List.mem_range] at ha
      obtain ⟨i, hi, rfl⟩ := ha
      obtain ⟨h1, -, h3⟩ := canonicalCodes_ge hb
      refine ⟨by simp only; omega, le_trans ?_ h3⟩
      simp only
      rw [show b.1 - l = (b.1 - (l + 1)) + 1 by omega, pow_succ, mul_comm 2 (code + n), mul_assoc, mul_comm 2]
      exact Nat.mul_le_mul_right _ (by omega)

/-- The codes one by one: the lengths and values of 41_control_commands.md R171. -/
theorem canonicalCodes_get (counts : List Nat) (l code d i : Nat) (hi : i < counts.getD d 0) :
    (canonicalCodes counts l code)[∑ e ∈ Finset.range d, counts.getD e 0 + i]? =
      some (l + d, code * 2 ^ d + ∑ e ∈ Finset.range d, counts.getD e 0 * 2 ^ (d - e) + i) := by
  induction counts generalizing l code d with
  | nil => simp at hi
  | cons n rest ih =>
    rw [canonicalCodes]
    cases d with
    | zero =>
      simp at hi ⊢
      rw [List.getElem?_append_left (by simpa using hi)]
      simp [hi]
    | succ d =>
      simp only [List.getD_cons_succ] at hi
      have := ih (l + 1) (2 * (code + n)) d hi
      rw [Finset.sum_range_succ', Finset.sum_range_succ']
      simp only [List.getD_cons_succ, List.getD_cons_zero, Nat.add_sub_add_right, Nat.sub_zero]
      rw [List.getElem?_append_right (by simp; omega)]
      simp only [List.length_map, List.length_range]
      rw [show ∑ k ∈ Finset.range d, rest.getD k 0 + n + i - n = ∑ k ∈ Finset.range d, rest.getD k 0 + i by omega, this]
      congr 2
      · omega
      · rw [pow_succ]; ring

/-! ## Derived tables -/

theorem checkTable_ok {m : Memory} {h : Nat} (e : checkTable m h = .ok ()) :
    0 < (m.htNsym h).toNat ∧ (m.htNsym h).toNat ≤ 256 ∧ (htCounts m h).sum = (m.htNsym h).toNat ∧
      overSubscribed (htCounts m h) 1 0 = false ∧ hasDuplicate (htSymbols m h) = false := by
  unfold checkTable at e
  split_ifs at e with h1 h2 h3 h4
  exact ⟨by omega, by omega, by simpa using h2, by simpa using h3, by simpa using h4⟩

theorem htTable_length {m : Memory} {h : Nat} (e : checkTable m h = .ok ()) : (htTable m h).length = (m.htNsym h).toNat := by
  obtain ⟨-, -, h3, -, -⟩ := checkTable_ok e
  simp [htTable, canonicalCodes_length, htSymbols, h3]

/-- Every entry has a code of 1 to 16 bits that fits. -/
theorem htTable_entry {m : Memory} {h : Nat} {e : Entry} (he : e ∈ htTable m h) :
    1 ≤ e.size ∧ e.size ≤ 16 ∧ (checkTable m h = .ok () → e.code < 2 ^ e.size) := by
  obtain ⟨i, hi, rfl⟩ := List.getElem_of_mem he
  simp only [htTable, List.getElem_zipWith]
  have hm := List.getElem_mem (l := canonicalCodes (htCounts m h) 1 0) (n := i)
    (by simp only [htTable, List.length_zipWith] at hi; omega)
  obtain ⟨h1, h2, -⟩ := canonicalCodes_ge hm
  simp only [htCounts, List.length_map, List.length_range] at h2
  exact ⟨h1, by simp only [htCounts]; omega, fun hc => canonicalCodes_lt (checkTable_ok hc).2.2.2.1 hm⟩

/-- Later entries are past all extensions of earlier ones. -/
theorem htTable_pairwise (m : Memory) (h : Nat) :
    (htTable m h).Pairwise fun a b => a.size ≤ b.size ∧ (a.code + 1) * 2 ^ (b.size - a.size) ≤ b.code := by
  rw [List.pairwise_iff_getElem]
  intro i j hi hj hij
  simp only [htTable, List.getElem_zipWith, List.length_zipWith] at hi hj ⊢
  exact List.pairwise_iff_getElem.mp (canonicalCodes_pairwise (htCounts m h) 1 0) i j (by omega) (by omega) hij

/-- A code is the beginning of no other entry's code. -/
theorem htTable_prefixFree {m : Memory} {h : Nat} {a b : Entry} (ha : a ∈ htTable m h) (hb : b ∈ htTable m h)
    (hs : a.size ≤ b.size) (hc : b.code / 2 ^ (b.size - a.size) = a.code) : a = b := by
  obtain ⟨i, hi, rfl⟩ := List.getElem_of_mem ha
  obtain ⟨j, hj, rfl⟩ := List.getElem_of_mem hb
  rcases lt_trichotomy i j with hij | rfl | hij
  · have := (List.pairwise_iff_getElem.mp (htTable_pairwise m h) i j hi hj hij).2
    rw [← Nat.le_div_iff_mul_le (by positivity), hc] at this; omega
  · rfl
  · obtain ⟨h1, h2⟩ := List.pairwise_iff_getElem.mp (htTable_pairwise m h) j i hj hi hij
    rw [show (htTable m h)[j].size = (htTable m h)[i].size by omega, Nat.sub_self, pow_zero] at h2 hc
    omega

/-! ## Reading codes and magnitudes back -/

theorem testBit_toNat (v n : Nat) : 2 * (v / 2 ^ (n + 1)) + (v.testBit n).toNat = v / 2 ^ n := by
  rw [Nat.testBit_eq_decide_div_mod_eq, pow_succ, ← Nat.div_div_eq_div_mul]
  have := Nat.mod_two_eq_zero_or_one (v / 2 ^ n)
  rcases this with h | h <;> simp [h] <;> omega

theorem takeBits_cons {src : Source} {n : Nat} {c c' : Cursor} {b : Bool} {bs : List Bool}
    (h : takeBits src (n + 1) c = .ok (b :: bs, c')) :
    ∃ c1, readBit src c = .ok (b, c1) ∧ takeBits src n c1 = .ok (bs, c') := by
  rw [takeBits] at h
  split at h
  · cases h
  · split at h
    · cases h
    · cases h; exact ⟨_, ‹_›, ‹_›⟩

/-- The bits of a concatenation are the bits of its parts, one after the other. -/
theorem takeBits_append {src : Source} {xs ys : List Bool} {c c' : Cursor}
    (h : takeBits src (xs ++ ys).length c = .ok (xs ++ ys, c')) :
    ∃ c1, takeBits src xs.length c = .ok (xs, c1) ∧ takeBits src ys.length c1 = .ok (ys, c') := by
  induction xs generalizing c with
  | nil => exact ⟨c, rfl, h⟩
  | cons x xs ih =>
    obtain ⟨c1, h1, h2⟩ := takeBits_cons h
    obtain ⟨c2, h3, h4⟩ := ih h2
    exact ⟨c2, by simp [takeBits, h1, h3], h4⟩

/-- ReadBits reads the number whose bits come next. -/
theorem readBitsFrom_bitsOf {src : Source} {v n : Nat} {c c' : Cursor} (h : takeBits src n c = .ok (bitsOf v n, c'))
    (a : Nat) (ha : a = v / 2 ^ n) : readBitsFrom src n a c = .ok (v, c') := by
  induction n generalizing a c with
  | zero => cases h; simp [readBitsFrom, ha]
  | succ n ih =>
    obtain ⟨c1, h1, h2⟩ := takeBits_cons h
    simp only [readBitsFrom, h1]
    exact ih h2 _ (by rw [ha]; exact testBit_toNat v n)

theorem readBits_bitsOf {src : Source} {v n : Nat} {c c' : Cursor} (hv : v < 2 ^ n)
    (h : takeBits src n c = .ok (bitsOf v n, c')) : readBits src n c = .ok (v, c') :=
  readBitsFrom_bitsOf h 0 (Nat.div_eq_of_lt hv).symm

/-- DecodeSym finds the entry whose code comes next, when no code is the beginning of another. -/
theorem decodeSymFrom_code {tab : List Entry} {src : Source}
    (hp : ∀ a ∈ tab, ∀ b ∈ tab, a.size ≤ b.size → b.code / 2 ^ (b.size - a.size) = a.code → a = b)
    {e : Entry} (he : e ∈ tab) {c' : Cursor} (k n l : Nat) (c : Cursor) (hl : l + (k + 1) = e.size) (hn : k < n)
    (h : takeBits src (k + 1) c = .ok (bitsOf e.code (k + 1), c')) :
    decodeSymFrom tab src n l (e.code / 2 ^ (k + 1)) c = .ok (e.sym, c') := by
  induction k generalizing n l c with
  | zero =>
    obtain ⟨n, rfl⟩ : ∃ m, n = m + 1 := ⟨n - 1, by omega⟩
    obtain ⟨c1, h1, h2⟩ := takeBits_cons h
    cases h2
    simp only [decodeSymFrom, h1, testBit_toNat e.code 0, pow_zero, Nat.div_one]
    have : (tab.find? fun x => x.size == l + 1 && x.code == e.code) = some e := by
      cases hf : tab.find? fun x => x.size == l + 1 && x.code == e.code with
      | none => exact absurd (List.find?_eq_none.mp hf e he) (by simp; omega)
      | some x =>
        have hx := List.find?_some hf
        simp only [Bool.and_eq_true, beq_iff_eq] at hx
        rw [hp x (List.mem_of_find?_eq_some hf) e he (by omega) (by simp [show e.size - x.size = 0 by omega, hx.2])]
    rw [this]
  | succ k ih =>
    obtain ⟨n, rfl⟩ : ∃ m, n = m + 1 := ⟨n - 1, by omega⟩
    obtain ⟨c1, h1, h2⟩ := takeBits_cons h
    simp only [decodeSymFrom, h1, testBit_toNat e.code (k + 1)]
    have : (tab.find? fun x => x.size == l + 1 && x.code == e.code / 2 ^ (k + 1)) = none := by
      rw [List.find?_eq_none]
      intro x hx hc
      simp only [Bool.and_eq_true, beq_iff_eq] at hc
      have := hp x hx e he (by omega) (by rw [show e.size - x.size = k + 1 by omega, hc.2])
      rw [this] at hc; omega
    rw [this]
    exact ih n (l + 1) c1 (by omega) (by omega) h2

/-! ## Bit strings and their values -/

theorem bitsValue_append_singleton (bs : List Bool) (b : Bool) : bitsValue (bs ++ [b]) = 2 * bitsValue bs + b.toNat := by
  simp [bitsValue]

theorem bitsValue_append (bs cs : List Bool) : bitsValue (bs ++ cs) = bitsValue bs * 2 ^ cs.length + bitsValue cs := by
  induction cs using List.reverseRecOn with
  | nil => simp [bitsValue]
  | append_singleton cs b ih =>
    rw [← List.append_assoc, bitsValue_append_singleton, ih, bitsValue_append_singleton, List.length_append, List.length_singleton, pow_succ]
    ring

theorem bitsValue_lt (bs : List Bool) : bitsValue bs < 2 ^ bs.length := by
  induction bs using List.reverseRecOn with
  | nil => simp [bitsValue]
  | append_singleton bs b ih =>
    rw [bitsValue_append_singleton, List.length_append, List.length_singleton, pow_succ]
    have := b.toNat_le
    omega

/-- A bit string is the bits of its value. -/
theorem bitsOf_bitsValue (bs : List Bool) : bitsOf (bitsValue bs) bs.length = bs := by
  have key : ∀ (cs : List Bool) (v : Nat), bitsOf (v * 2 ^ cs.length + bitsValue cs) cs.length = cs := by
    intro cs
    induction cs with
    | nil => intro v; rfl
    | cons b cs ih =>
      intro v
      have e : v * 2 ^ (b :: cs).length + bitsValue (b :: cs) = (2 * v + b.toNat) * 2 ^ cs.length + bitsValue cs := by
        rw [← List.singleton_append, bitsValue_append, List.length_append, List.length_singleton, pow_add]
        simp [bitsValue]; ring
      rw [e, List.length_cons, bitsOf, ih]
      congr 1
      rw [Nat.testBit_eq_decide_div_mod_eq, Nat.add_comm, Nat.add_mul_div_right _ _ (by positivity), Nat.div_eq_of_lt (bitsValue_lt cs)]
      cases b <;> simp
  simpa using key bs 0

theorem takeBits_length {src : Source} {n : Nat} {c c' : Cursor} {bits : List Bool}
    (h : takeBits src n c = .ok (bits, c')) : bits.length = n := by
  induction n generalizing c bits with
  | zero => cases h; rfl
  | succ n ih =>
    rw [takeBits] at h
    split at h
    · cases h
    · split at h
      · cases h
      · cases h; simp [ih ‹_›]

/-- While no code matches, DecodeSym goes on with the bits read. -/
theorem decodeSymFrom_skip {tab : List Entry} {src : Source} (n : Nat) {k : Nat} (hn : n ≤ k) {c c' : Cursor} (pre : List Bool)
    {bits : List Bool} (h : takeBits src n c = .ok (bits, c'))
    (hno : ∀ e ∈ tab, pre.length < e.size → e.size ≤ pre.length + n → (pre ++ bits).take e.size ≠ bitsOf e.code e.size) :
    decodeSymFrom tab src k pre.length (bitsValue pre) c =
      decodeSymFrom tab src (k - n) (pre.length + n) (bitsValue (pre ++ bits)) c' := by
  induction n generalizing k c pre bits with
  | zero => cases h; simp
  | succ n ih =>
    obtain ⟨k, rfl⟩ : ∃ m, k = m + 1 := ⟨k - 1, by omega⟩
    rcases bits with _ | ⟨b, bits⟩
    · have := takeBits_length h; simp at this
    obtain ⟨c1, h1, h2⟩ := takeBits_cons h
    have hnone : (tab.find? fun x => x.size == pre.length + 1 && x.code == 2 * bitsValue pre + b.toNat) = none := by
      rw [List.find?_eq_none]
      intro x hx hc
      simp only [Bool.and_eq_true, beq_iff_eq] at hc
      refine hno x hx (by omega) (by omega) ?_
      have e : pre ++ b :: bits = (pre ++ [b]) ++ bits := by simp
      rw [e, List.take_left' (by simp [hc.1]), hc.2, ← bitsValue_append_singleton, hc.1]
      have := bitsOf_bitsValue (pre ++ [b])
      rw [List.length_append, List.length_singleton] at this
      exact this.symm
    have := ih (k := k) (by omega) (pre ++ [b]) h2 (fun e he h3 h4 => by
      simp only [List.length_append, List.length_singleton] at h3 h4
      simpa using hno e he (by omega) (by omega))
    simp only [decodeSymFrom, h1, hnone]
    rw [← bitsValue_append_singleton]
    simp only [List.length_append, List.length_singleton, List.append_assoc, List.singleton_append] at this
    rw [this, Nat.add_sub_add_right, Nat.add_assoc, Nat.add_comm 1 n]

/-- EmitSym gives the code of an entry with that symbol. -/
theorem emitSym_ok {tab : List Entry} {x : Byte} {bits : List Bool} (h : emitSym tab x = .ok bits) :
    ∃ e ∈ tab, e.sym = x ∧ bits = bitsOf e.code e.size := by
  unfold emitSym at h
  split at h <;> cases h
  rename_i e hf
  exact ⟨e, List.mem_of_find?_eq_some hf, by simpa using List.find?_some hf, rfl⟩

/-- After `q` ZRLs the AC loop of HDEC stands 16q positions on, as long as it stays inside the block; `hr` says that the table's codes
are read back. -/
theorem decodeAc_zrls {tab : List Entry} {src : Source}
    (hr : ∀ x bits, emitSym tab x = .ok bits → ∀ c c', takeBits src bits.length c = .ok (bits, c') →
      decodeSym tab src c = .ok (x, c')) :
    ∀ (q : Nat) (zb : List Bool), emitZrls tab q = .ok zb → ∀ (n k : Nat) (z : List Half) (c c2 : Cursor),
      takeBits src zb.length c = .ok (zb, c2) → k + 16 * q ≤ 63 → 64 ≤ n + k →
      ∃ n', 64 ≤ n' + (k + 16 * q) ∧ decodeAc tab src n k z c = decodeAc tab src n' (k + 16 * q) z c2 := by
  intro q
  induction q with
  | zero => intro zb h n k z c c2 ht _ hn; cases h; cases ht; exact ⟨n, by omega, rfl⟩
  | succ q ihq =>
    intro zb h n k z c c2 ht hk hn
    unfold emitZrls at h
    split at h
    · cases h
    rename_i za hza
    split at h <;> cases h
    rename_i zc hzc
    obtain ⟨c3, hta, htb⟩ := takeBits_append ht
    obtain ⟨n, rfl⟩ : ∃ m, n = m + 1 := ⟨n - 1, by omega⟩
    obtain ⟨n', hn', e⟩ := ihq zc hzc n (k + 16) z c3 c2 htb (by omega) (by omega)
    refine ⟨n', by omega, ?_⟩
    rw [show k + 16 * (q + 1) = k + 16 + 16 * q by ring, ← e]
    conv_lhs => unfold decodeAc
    rw [if_neg (by omega), hr _ _ hza _ _ hta]
    simp
    omega

/-- ReadBits raises what stops the reader before the last of its bits (42_huffman.md R214). -/
theorem readBitsFrom_stop {src : Source} {raw : List Bool} {c c' : Cursor} {r : Raise}
    (h : takeBits src raw.length c = .ok (raw, c')) (hr : readBit src c' = .error r) {n v : Nat} (hn : raw.length < n) :
    readBitsFrom src n v c = .error r := by
  induction raw generalizing n v c with
  | nil => cases h; obtain ⟨m, rfl⟩ := Nat.exists_eq_add_of_lt hn; rw [Nat.add_comm _ 1, Nat.add_comm, readBitsFrom, hr]
  | cons b raw ih =>
    obtain ⟨m, rfl⟩ : ∃ m, n = m + 1 := ⟨n - 1, by simp at hn; omega⟩
    obtain ⟨c1, h1, h2⟩ := takeBits_cons h
    rw [readBitsFrom, h1]
    exact ih h2 (by simpa using hn)

/-- DecodeSym raises what stops the reader before a code is complete (42_huffman.md R216). -/
theorem decodeSym_stop {tab : List Entry} {src : Source} {bits : List Bool} {c c' : Cursor} {r : Raise}
    (h : takeBits src bits.length c = .ok (bits, c'))
    (hn : ∀ e ∈ tab, e.size ≤ bits.length → bits.take e.size ≠ bitsOf e.code e.size) (hl : bits.length < 16)
    (hr : readBit src c' = .error r) : decodeSym tab src c = .error r := by
  have e := decodeSymFrom_skip (tab := tab) bits.length (k := 16) (by omega) [] h fun e he _ h => hn e he (by simpa using h)
  refine e.trans ?_
  rw [show 16 - bits.length = (15 - bits.length) + 1 by omega, decodeSymFrom, hr]

/-- DecodeSym gives up after sixteen bits without a code (42_huffman.md R216). -/
theorem decodeSym_none {tab : List Entry} {src : Source} {bits : List Bool} {c c' : Cursor}
    (h : takeBits src bits.length c = .ok (bits, c'))
    (hn : ∀ e ∈ tab, e.size ≤ bits.length → bits.take e.size ≠ bitsOf e.code e.size) (hl : bits.length = 16) :
    decodeSym tab src c = .error (.error .invalidCode 1#8) := by
  have e := decodeSymFrom_skip (tab := tab) bits.length (k := 16) (by omega) [] h fun e he _ h => hn e he (by simpa using h)
  refine e.trans ?_
  rw [hl]; rfl

/-- The `n` bits of a value, one by one. -/
theorem bitsOf_get (v n : Nat) : ∀ i < n, (bitsOf v n)[i]? = some (v.testBit (n - 1 - i)) := by
  induction n with
  | zero => intro i hi; omega
  | succ n ih =>
    intro i hi
    rw [bitsOf]
    cases i with
    | zero => simp
    | succ i => rw [List.getElem?_cons_succ, ih i (by omega)]; congr 2; omega

/-- Cat and Mag of an extended value are the category and the raw bits it came from (42_huffman.md R217, R223, R224). -/
theorem cat_mag_extend {raw n : Nat} (hn : 1 ≤ n) (h : raw < 2 ^ n) :
    extend raw n ≠ 0 ∧ cat (extend raw n) = n ∧ mag (extend raw n) n = raw := by
  obtain ⟨n, rfl⟩ : ∃ m, n = m + 1 := ⟨n - 1, by omega⟩
  have e : (2 : ℤ) ^ (n + 1) = 2 * 2 ^ n := by ring
  have hz : ((2 ^ n : ℕ) : ℤ) = 2 ^ n := by push_cast; rfl
  have hp := Nat.two_pow_pos n
  rw [pow_succ] at h
  have hv : extend raw (n + 1) = if raw < 2 ^ n then (raw : ℤ) - (2 * 2 ^ n - 1) else raw := by
    unfold extend; rw [if_neg (by omega), e]; rfl
  have ha : 2 ^ n ≤ (extend raw (n + 1)).natAbs ∧ (extend raw (n + 1)).natAbs < 2 ^ (n + 1) := by
    rw [hv, ← hz, pow_succ]; split_ifs <;> omega
  refine ⟨by omega, ?_, ?_⟩
  · unfold cat bitlen
    rw [if_neg (by omega), (Nat.log2_eq_iff (by omega)).mpr ha]
  · unfold mag
    rw [hv, e, ← hz]
    split_ifs <;> omega

end Sys2Proof.Machine
end

