-- ==== Sys2Proof/Laws/Decode.lean ====
section
/-! SUPPORT. Small lemmas about the encoding: the opcode map is one to one, a field put back is the field taken out. -/

namespace Sys2Proof

/-- The opcode map inverts `Op.code`. -/
@[simp] theorem opOfCode_code (o : Op) : opOfCode o.code = some o := by cases o <;> rfl

/-- Only the listed opcodes are commands. -/
theorem code_of_opOfCode {c : Byte} {o : Op} (h : opOfCode c = some o) : c = o.code := by
  revert c o; decide +kernel

/-- What a word that decodes is. -/
theorem decode_ok {w : Word} {i : Instr} (h : decode w = .ok i) :
    ∃ o : Op, opField w = o.code ∧ w &&& o.format.reserved = 0#32 ∧ i = operandsOf w o := by
  unfold decode at h
  split at h
  · cases h
  · split at h <;> cases h
    exact ⟨_, code_of_opOfCode ‹_›, ‹_›, rfl⟩

/-- A field taken out is narrow. -/
theorem field_lt (w : Word) (lo width : Nat) : field w lo width < 2 ^ width := (w.extractLsb' lo width).isLt

theorem place_field (w : Word) (lo width : Nat) :
    place (field w lo width) lo = (w.extractLsb' lo width).setWidth 32 <<< lo := by
  unfold place field
  congr 1
  apply BitVec.eq_of_toNat_eq
  rw [BitVec.toNat_ofNat, BitVec.toNat_setWidth]

@[simp] theorem classOfBit_classBit (c : HtClass) : classOfBit (classBit c) = c := by cases c <;> rfl

theorem classBit_field (w : Word) : classBit (classOfBit (field w 8 1)) = field w 8 1 := by
  have := field_lt w 8 1
  unfold classOfBit
  split <;> simp_all [classBit]
  omega

theorem wf_operandsOf (w : Word) (o : Op) : WellFormed (operandsOf w o) := by
  have (lo width : Nat) : fits width (field w lo width) = true := decide_eq_true (field_lt w lo width)
  cases o <;> simp [WellFormed, operandsOf, Instr.wf, this]

end Sys2Proof
end

