-- ==== Sys2Proof/Laws/Host.lean ====
section
/-! SUPPORT. What a host access can do, said once (40_host_access.md R141–R148). -/

namespace Sys2Proof.Machine

/-- A host read returns one datum and changes nothing of the block. -/
theorem hostRead_frame (s : State) (off : Nat) :
    ∃ v n, hostRead s off = { s with responses := v :: s.responses, draws := n } := by
  unfold hostRead
  split
  · exact ⟨_, _, rfl⟩
  · exact ⟨_, s.draws, rfl⟩

/-- What a host write can do. -/
theorem hostWrite_cases (s : State) (off : Nat) (v : Word) :
    hostWrite s off v = s ∨ (locate s.params off = .ctrl ∧ hostWrite s off v = writeCtrl s v) ∨
    hostWrite s off v = offerCommand s v ∨
    hostWrite s off v = { s with status := s.status.writeOneToClear v } ∨
    (s.busy = true ∧ hostWrite s off v = { s with status := { s.status with accDropped := true } }) ∨
    (s.busy = false ∧ hostWrite s off v = storeAt s off v (locate s.params off)) := by
  unfold hostWrite
  split
  · exact .inl rfl
  · exact .inr (.inl ⟨‹_›, rfl⟩)
  · exact .inr (.inr (.inl rfl))
  · exact .inr (.inr (.inr (.inl rfl)))
  · exact .inl rfl
  · exact .inl rfl
  · exact .inl rfl
  · exact .inl rfl
  · unfold writeProtected
    by_cases hb : s.busy = true
    · rw [if_pos hb]; exact .inr (.inr (.inr (.inr (.inl ⟨hb, rfl⟩))))
    · rw [if_neg hb]; exact .inr (.inr (.inr (.inr (.inr ⟨by simpa using hb, rfl⟩))))

/-- What storing a protected word changes, at most: HT_VALID, where bits are only cleared; the cursors; the predictors; memory. -/
theorem storeAt_frame (s : State) (off : Nat) (v : Word) (l : Loc) :
    storeAt s off v l = { s with
      htValid := (storeAt s off v l).htValid, rdPos := (storeAt s off v l).rdPos, rdBit := (storeAt s off v l).rdBit,
      rdLen := (storeAt s off v l).rdLen, wrPos := (storeAt s off v l).wrPos, wrBit := (storeAt s off v l).wrBit,
      wrAcc := (storeAt s off v l).wrAcc, dcPred := (storeAt s off v l).dcPred, mem := (storeAt s off v l).mem } := by
  cases l <;> rfl

theorem storeAt_mem_wf (s : State) (off : Nat) (v : Word) (l : Loc) (h : s.mem.wf = true) :
    (storeAt s off v l).mem.wf = true := by
  cases l <;> first | exact h | exact Memory.wf_writeAll _ _ h | exact Memory.wf_write _ _ _ h

theorem storeAt_htValid (s : State) (off : Nat) (v : Word) (l : Loc) (k : Nat)
    (h : htBit (storeAt s off v l).htValid k = true) : htBit s.htValid k = true := by
  cases l <;> first
    | exact h
    | (simp only [storeAt, htBit, clearHtBit, BitVec.getLsbD_and, Bool.and_eq_true] at h ⊢; exact h.1)

/-- Clamping keeps a position inside its buffer. -/
theorem clampPos_le {v : Word} {cap : Nat} : (clampPos v cap).toNat ≤ cap := by
  unfold clampPos
  rw [BitVec.toNat_ofNat]
  exact (Nat.mod_le _ _).trans (min_le_right _ _)

/-- A soft reset, and the platform's reset, leave these alone. -/
theorem writeCtrl_frame (s : State) (v : Word) :
    (writeCtrl s v).params = s.params ∧ (writeCtrl s v).mem = s.mem ∧ (writeCtrl s v).inputs = s.inputs ∧
      (writeCtrl s v).schedule = s.schedule ∧ (writeCtrl s v).responses = s.responses ∧
      (writeCtrl s v).draws = s.draws := by
  unfold writeCtrl
  split <;> exact ⟨rfl, rfl, rfl, rfl, rfl, rfl⟩

/-- What offering a command changes, at most: the latch and STATUS. -/
theorem offerCommand_frame (s : State) (cw : Word) :
    offerCommand s cw = { s with latch := (offerCommand s cw).latch, status := (offerCommand s cw).status } := by
  unfold offerCommand
  split <;> rfl

/-! ## Where an offset is (20_memory.md R83) -/

/-- What legal parameters give: an aligned base, and buffers of whole words inside their windows. -/
theorem legal_bounds {p : Params} (h : p.legal = true) :
    p.base % 4 = 0 ∧ p.ibufBytes ≤ 0x10000 ∧ p.obufBytes ≤ 0x10000 ∧ p.ibufBytes % 4 = 0 ∧ p.obufBytes % 4 = 0 := by
  simp only [Params.legal, Bool.and_eq_true, beq_iff_eq, decide_eq_true_eq] at h
  have H : ∀ n, 2 ≤ n → n ≤ 16 → 2 ^ n ≤ 0x10000 ∧ 2 ^ n % 4 = 0 := by decide
  have h1 := H _ h.1.2.1 h.1.2.2
  have h2 := H _ h.2.1 h.2.2
  exact ⟨by omega, h1.1, h2.1, h1.2, h2.2⟩

theorem locate_register (p : Params) {off : Nat} (h : off < 0x1000) : locate p off = locateRegister off := if_pos h

theorem locateRegister_high {off : Nat} (h : 0x50 ≤ off) : locateRegister off = .reserved := by
  obtain ⟨n, rfl⟩ := Nat.exists_eq_add_of_le' h
  rfl

/-- Only offset 0x08 is CTRL. -/
theorem locate_ctrl {p : Params} {off : Nat} (h : locate p off = .ctrl) : off = 0x08 := by
  by_cases h1 : off < 0x1000
  · rw [locate_register p h1] at h
    by_cases h2 : 0x50 ≤ off
    · rw [locateRegister_high h2] at h; cases h
    · have : ∀ o < 0x50, locateRegister o = .ctrl → o = 0x08 := by decide +kernel
      exact this off (by omega) h
  · exfalso
    have : ∀ o, locateHt o ≠ .ctrl := by
      intro o; unfold locateHt; split_ifs <;> nofun
    have I : ∀ (c : Prop) [Decidable c] (a b : Loc), a ≠ .ctrl → b ≠ .ctrl → (if c then a else b) ≠ .ctrl := by
      intro c _ a b h1 h2; split_ifs <;> assumption
    revert h
    unfold locate
    rw [if_neg h1]
    repeat' refine I _ _ _ ?_ ?_
    all_goals first | exact this _ | nofun

theorem locate_qt (p : Params) {off : Nat} (h : 0x1000 ≤ off) (h' : off < 0x1400) : locate p off = .qt := by
  unfold locate; rw [if_neg (by omega), if_pos h']

theorem locate_gap1 (p : Params) {off : Nat} (h : 0x1400 ≤ off) (h' : off < 0x2000) : locate p off = .reserved := by
  unfold locate; rw [if_neg (by omega), if_neg (by omega), if_pos h']

theorem locate_ht (p : Params) {off : Nat} (h : 0x2000 ≤ off) (h' : off < 0x6000) :
    locate p off = locateHt (off - 0x2000) := by
  unfold locate; rw [if_neg (by omega), if_neg (by omega), if_neg (by omega), if_pos h']

theorem locate_coef (p : Params) {off : Nat} (h : 0x6000 ≤ off) (h' : off < 0x6600) : locate p off = .coef := by
  unfold locate; rw [if_neg (by omega), if_neg (by omega), if_neg (by omega), if_neg (by omega), if_pos h']

theorem locate_gap2 (p : Params) {off : Nat} (h : 0x6600 ≤ off) (h' : off < 0x6800) : locate p off = .reserved := by
  unfold locate; iterate 5 rw [if_neg (by omega)]
  rw [if_pos h']

theorem locate_smp (p : Params) {off : Nat} (h : 0x6800 ≤ off) (h' : off < 0x6E00) : locate p off = .smp := by
  unfold locate; iterate 6 rw [if_neg (by omega)]
  rw [if_pos h']

theorem locate_gap3 (p : Params) {off : Nat} (h : 0x6E00 ≤ off) (h' : off < 0x7000) : locate p off = .reserved := by
  unfold locate; iterate 7 rw [if_neg (by omega)]
  rw [if_pos h']

theorem locate_pix (p : Params) {off : Nat} (h : 0x7000 ≤ off) (h' : off < 0x7C00) : locate p off = .pix := by
  unfold locate; iterate 8 rw [if_neg (by omega)]
  rw [if_pos h']

theorem locate_gap4 (p : Params) {off : Nat} (h : 0x7C00 ≤ off) (h' : off < 0x10000) : locate p off = .reserved := by
  unfold locate; iterate 9 rw [if_neg (by omega)]
  rw [if_pos h']

theorem locate_ibuf (p : Params) {off : Nat} (h : 0x10000 ≤ off) (h' : off < 0x10000 + p.ibufBytes) :
    locate p off = .ibuf := by
  unfold locate; iterate 10 rw [if_neg (by omega)]
  rw [if_pos h']

theorem locate_gap5 (p : Params) {off : Nat} (h : 0x10000 + p.ibufBytes ≤ off) (h' : off < 0x20000) :
    locate p off = .reserved := by
  unfold locate; iterate 11 rw [if_neg (by omega)]
  rw [if_pos h']

theorem locate_obuf (p : Params) {off : Nat} (hp : p.ibufBytes ≤ 0x10000) (h : 0x20000 ≤ off)
    (h' : off < 0x20000 + p.obufBytes) : locate p off = .obuf := by
  unfold locate; iterate 12 rw [if_neg (by omega)]
  rw [if_pos h']

theorem locate_gap6 (p : Params) {off : Nat} (hp : p.ibufBytes ≤ 0x10000) (h : 0x20000 + p.obufBytes ≤ off) :
    locate p off = .reserved := by
  unfold locate; iterate 13 rw [if_neg (by omega)]

/-! ## A host step at a window offset (40_host_access.md R141, R142) -/

/-- A pending read of an aligned window offset is answered. -/
theorem hostStep_rd (s : State) {off : Nat} (h : off % 4 = 0) (hb : off ≤ 0x2FFFF) (hl : s.params.legal = true) :
    hostStep { s with inputs := [rd s.params off] } = .next (hostRead { s with inputs := [] } off) := by
  have := legal_bounds hl
  simp only [rd, hostStep]
  rw [if_pos]
  · simp
  · simp [accepted]; omega

/-- A pending write of an aligned window offset takes effect. -/
theorem hostStep_wr (s : State) {off : Nat} (v : Word) (h : off % 4 = 0) (hb : off ≤ 0x2FFFF) (hl : s.params.legal = true) :
    hostStep { s with inputs := [wr s.params off v] } = .next (hostWrite { s with inputs := [] } off v) := by
  have := legal_bounds hl
  simp only [wr, hostStep]
  rw [if_pos]
  · simp
  · simp [accepted]; omega

theorem hostWrite_protected (s : State) (off : Nat) (v : Word) (h : (locate s.params off).protectedRead = true)
    (hn : locate s.params off ≠ .htValid) : hostWrite s off v = writeProtected s off v (locate s.params off) := by
  unfold hostWrite
  cases hl : locate s.params off <;> simp_all [Loc.protectedRead]

theorem hostWrite_reserved (s : State) (off : Nat) (v : Word) (h : locate s.params off = .reserved) :
    hostWrite s off v = s := by
  unfold hostWrite; rw [h]

theorem hostRead_reserved (s : State) (off : Nat) (h : locate s.params off = .reserved) :
    hostRead s off = { s with responses := 0#32 :: s.responses } := by
  unfold hostRead; rw [h]; rfl

theorem hostRead_busy (s : State) (off : Nat) (h : (locate s.params off).protectedRead = true) (hb : s.busy = true) :
    hostRead s off = { s with responses := Config.busyRead s.draws :: s.responses, draws := s.draws + 1 } := by
  unfold hostRead; rw [h, hb]; rfl

theorem hostRead_idle (s : State) (off : Nat) (hb : s.busy = false) :
    hostRead s off = { s with responses := wordAt s off (locate s.params off) :: s.responses } := by
  unfold hostRead; rw [hb, Bool.and_false]; rfl

theorem hostRead_open (s : State) (off : Nat) (h : (locate s.params off).protectedRead = false) :
    hostRead s off = { s with responses := wordAt s off (locate s.params off) :: s.responses } := by
  unfold hostRead; rw [h, Bool.false_and]; rfl

/-- An idle host read returns the word. -/
theorem hostStep_load {s : State} (hb : s.busy = false) (hl : s.params.legal = true) {off : Nat} (h : off % 4 = 0)
    (h' : off ≤ 0x2FFFF) :
    hostStep { s with inputs := [rd s.params off] } =
      .next { s with inputs := [], responses := wordAt { s with inputs := [] } off (locate s.params off) :: s.responses } := by
  rw [hostStep_rd s h h' hl, hostRead_idle { s with inputs := [] } _ hb]

/-- An idle host write to protected state stores it. -/
theorem hostStep_store {s : State} (hb : s.busy = false) (hl : s.params.legal = true) (v : Word) {off : Nat}
    (h : off % 4 = 0) (h' : off ≤ 0x2FFFF) (hp : (locate s.params off).protectedRead = true)
    (hn : locate s.params off ≠ .htValid) :
    hostStep { s with inputs := [wr s.params off v] } =
      .next (storeAt { s with inputs := [] } off v (locate s.params off)) := by
  rw [hostStep_wr s v h h' hl, hostWrite_protected { s with inputs := [] } _ _ hp hn, writeProtected,
    show State.busy { s with inputs := [] } = s.busy from rfl, hb, if_neg (by decide)]

/-- STATUS bit by bit (10_state.md R37). -/
theorem statusWord_getLsbD (b : Bool) (f : Status) (k : Nat) :
    (statusWord b f).getLsbD k = match k with
      | 0 => b | 1 => f.done | 2 => f.err | 3 => f.needData | 4 => f.outFull | 5 => f.cmdDropped | 6 => f.accDropped
      | _ => false := by
  by_cases hk : k < 7
  · interval_cases k <;> (cases b <;> rcases f with ⟨_ | _, _ | _, _ | _, _ | _, _ | _, _ | _⟩ <;> rfl)
  · have : (statusWord b f).getLsbD k = false := by
      unfold statusWord
      rw [BitVec.getLsbD_setWidth, BitVec.getLsbD_of_ge _ _ (by omega), Bool.and_false]
    rw [this]
    split <;> first | omega | rfl

/-- A host store writes only bytes of the addressed word. -/
theorem storeAt_stores (s : State) (off : Nat) (v : Word) (l : Loc) :
    ∃ L, (storeAt s off v l).mem = s.mem.writeAll L ∧ ∀ c ∈ L, off ≤ c.1 ∧ c.1 < off + 4 := by
  cases l
  case qt | coef => exact ⟨_, rfl, by simp [stores16]⟩
  case htByte | smp | pix => exact ⟨[(off, _)], rfl, by simp⟩
  case htNsym => exact ⟨_, rfl, by simp [stores9]⟩
  case ibuf | obuf => exact ⟨_, rfl, by simp [stores32]⟩
  all_goals exact ⟨[], rfl, by simp⟩

end Sys2Proof.Machine
end

