-- ==== Sys2Proof/Laws/PerInstr.lean ====
section
/-! SUPPORT. One statement about every command as syntax, by one lemma for each constructor: a well-formed command's word carries
its opcode and no reserved bit (30_encoding.md R111, R118, R119). -/

namespace Sys2Proof.Laws.EncodesLegally

/-- The word of a well-formed command has its opcode in [7:0] and 0 in every reserved bit of its format. -/
def Statement (i : Instr) : Prop :=
  WellFormed i → opField (encode i) = (opOf i).code ∧ encode i &&& (opOf i).format.reserved = 0#32

theorem blockWords : ∀ a : Fin 8, ∀ b c d : Fin 4,
    (opField (encode (.hdec a b c d)) = 0x10#8 ∧ encode (.hdec a b c d) &&& 0xFFCCC800#32 = 0#32) ∧
    (opField (encode (.henc a b c d)) = 0x11#8 ∧ encode (.henc a b c d) &&& 0xFFCCC800#32 = 0#32) := by decide +kernel

theorem transformWords : ∀ a : Fin 8, ∀ b : Fin 4,
    (opField (encode (.idct a b)) = 0x20#8 ∧ encode (.idct a b) &&& 0xFFFCF800#32 = 0#32) ∧
    (opField (encode (.fdct a b)) = 0x21#8 ∧ encode (.fdct a b) &&& 0xFFFCF800#32 = 0#32) := by decide +kernel

theorem colourWords : ∀ a b c d : Fin 4,
    (opField (encode (.cscInv a b c d)) = 0x30#8 ∧ encode (.cscInv a b c d) &&& 0xFFFF0000#32 = 0#32) ∧
    (opField (encode (.cscFwd a b c d)) = 0x31#8 ∧ encode (.cscFwd a b c d) &&& 0xFFFF0000#32 = 0#32) := by decide +kernel

theorem tableWords : ∀ a : Fin 4,
    (opField (encode (.htBuild .dc a)) = 0x01#8 ∧ encode (.htBuild .dc a) &&& 0xFFFFCE00#32 = 0#32) ∧
    (opField (encode (.htBuild .ac a)) = 0x01#8 ∧ encode (.htBuild .ac a) &&& 0xFFFFCE00#32 = 0#32) := by decide +kernel

theorem nop : Statement .nop := fun _ => by decide

theorem htBuild (cls : HtClass) (id : Nat) : Statement (.htBuild cls id) := by
  intro h
  simp only [WellFormed, Instr.wf, fits, decide_eq_true_eq] at h
  cases cls
  · exact (tableWords ⟨id, h⟩).1
  · exact (tableWords ⟨id, h⟩).2

theorem dcReset : Statement .dcReset := fun _ => by decide

theorem bsAlignRd : Statement .bsAlignRd := fun _ => by decide

theorem bsFlushWr : Statement .bsFlushWr := fun _ => by decide

theorem hdec (slot comp dct act : Nat) : Statement (.hdec slot comp dct act) := by
  intro h
  simp only [WellFormed, Instr.wf, fits, Bool.and_eq_true, decide_eq_true_eq] at h
  obtain ⟨⟨⟨h1, h2⟩, h3⟩, h4⟩ := h
  exact (blockWords ⟨slot, h1⟩ ⟨comp, h2⟩ ⟨dct, h3⟩ ⟨act, h4⟩).1

theorem henc (slot comp dct act : Nat) : Statement (.henc slot comp dct act) := by
  intro h
  simp only [WellFormed, Instr.wf, fits, Bool.and_eq_true, decide_eq_true_eq] at h
  obtain ⟨⟨⟨h1, h2⟩, h3⟩, h4⟩ := h
  exact (blockWords ⟨slot, h1⟩ ⟨comp, h2⟩ ⟨dct, h3⟩ ⟨act, h4⟩).2

theorem idct (slot qt : Nat) : Statement (.idct slot qt) := by
  intro h
  simp only [WellFormed, Instr.wf, fits, Bool.and_eq_true, decide_eq_true_eq] at h
  exact (transformWords ⟨slot, h.1⟩ ⟨qt, h.2⟩).1

theorem fdct (slot qt : Nat) : Statement (.fdct slot qt) := by
  intro h
  simp only [WellFormed, Instr.wf, fits, Bool.and_eq_true, decide_eq_true_eq] at h
  exact (transformWords ⟨slot, h.1⟩ ⟨qt, h.2⟩).2

theorem cscInv (yhm1 yvm1 chm1 cvm1 : Nat) : Statement (.cscInv yhm1 yvm1 chm1 cvm1) := by
  intro h
  simp only [WellFormed, Instr.wf, fits, Bool.and_eq_true, decide_eq_true_eq] at h
  obtain ⟨⟨⟨h1, h2⟩, h3⟩, h4⟩ := h
  exact (colourWords ⟨yhm1, h1⟩ ⟨yvm1, h2⟩ ⟨chm1, h3⟩ ⟨cvm1, h4⟩).1

theorem cscFwd (yhm1 yvm1 chm1 cvm1 : Nat) : Statement (.cscFwd yhm1 yvm1 chm1 cvm1) := by
  intro h
  simp only [WellFormed, Instr.wf, fits, Bool.and_eq_true, decide_eq_true_eq] at h
  obtain ⟨⟨⟨h1, h2⟩, h3⟩, h4⟩ := h
  exact (colourWords ⟨yhm1, h1⟩ ⟨yvm1, h2⟩ ⟨chm1, h3⟩ ⟨cvm1, h4⟩).2

end Sys2Proof.Laws.EncodesLegally
end

