-- ==== Sys2Proof/Tests/Slice0.lean ====
section
/-! SUPPORT. The model's own tests. Every expected value is from spec/95_test_vectors.md (named in each comment) or worked out from
the rule named. -/

namespace Sys2Proof.Tests

set_option Elab.async false

open Sys2Proof.Machine

/-! ## Small states -/

/-- The next state's view under `f`, if there is one. -/
def seen {α : Type} (f : State → α) (o : Host.Outcome State Fault Refusal) : Option α :=
  match o with
  | .next t => some (f t)
  | _ => none

/-- STATUS and ERRCODE as software reads them. -/
def report (t : State) : Word × Word := (statusWord t.busy t.status, t.errcode)

/-- Reset with a given memory. -/
def withMem (cells : List Host.Cell) : State := { State.reset with mem := ⟨cells, 0⟩ }

/-- One step that runs the command word `w` placed in `s`. -/
def run (s : State) (w : Nat) : Host.Outcome State Fault Refusal := step (s.withFetchWord 32 w)

/-- One step on which the host takes its oldest action. -/
def act (s : State) (i : List Input) : Host.Outcome State Fault Refusal := step { s with inputs := i, schedule := [.host] }

/-- A Huffman table as bytes: BITS[1..16], HUFFVAL, NSYM. -/
def table (h : Nat) (bits vals : List Byte) : List Host.Cell :=
  storesBytes (htBitsAddr h 1) bits ++ storesBytes (htValAddr h 0) vals ++
    stores9 (htNsymAddr h) (BitVec.ofNat 9 vals.length)

/-- Table TD of 95_test_vectors.md section 1. -/
def tableTD (h : Nat) : List Host.Cell :=
  table h [0#8, 1#8, 5#8, 1#8, 1#8, 1#8, 1#8, 1#8, 1#8, 0#8, 0#8, 0#8, 0#8, 0#8, 0#8, 0#8]
    [0#8, 1#8, 2#8, 3#8, 4#8, 5#8, 6#8, 7#8, 8#8, 9#8, 10#8, 11#8]

/-- Table TA of 95_test_vectors.md section 1. -/
def tableTA (h : Nat) : List Host.Cell :=
  table h [0#8, 2#8, 2#8, 1#8, 0#8, 0#8, 0#8, 0#8, 0#8, 0#8, 0#8, 0#8, 0#8, 0#8, 0#8, 0#8]
    [0x00#8, 0x01#8, 0x11#8, 0x02#8, 0xF0#8]

/-- 64 equal halves. -/
def halves (v : Half) : List Half := List.replicate 64 v

/-- A COEF block with the given DC. -/
def dcBlock (v : Half) : List Half := v :: List.replicate 63 0#16

/-- Tables TD and TA built as tables 0 and 4, and more memory above them. -/
def coded (cells : List Host.Cell) : State := { withMem (tableTD 0 ++ tableTA 4 ++ cells) with htValid := 0x11#8 }

/-- A decoder state: the bytes in IBUF are the whole stream. -/
def decoding (bytes : List Byte) : State :=
  { coded (storesPacked (ibufAddr 0) bytes) with
    rdLen := BitVec.ofNat 17 bytes.length, ctrl := ⟨false, true⟩ }

/-! ## Well-formedness: one ill-formed term for each check (30_encoding.md R111) -/

theorem test_wf_refuses_id : ¬WellFormed (.htBuild .ac 4) := by decide
theorem test_wf_refuses_slot : ¬WellFormed (.hdec 8 0 0 0) ∧ ¬WellFormed (.henc 8 0 0 0) ∧ ¬WellFormed (.idct 8 0) ∧
    ¬WellFormed (.fdct 8 0) := by decide
theorem test_wf_refuses_comp : ¬WellFormed (.hdec 0 4 0 0) ∧ ¬WellFormed (.henc 0 4 0 0) := by decide
theorem test_wf_refuses_dct : ¬WellFormed (.hdec 0 0 4 0) ∧ ¬WellFormed (.henc 0 0 4 0) := by decide
theorem test_wf_refuses_act : ¬WellFormed (.hdec 0 0 0 4) ∧ ¬WellFormed (.henc 0 0 0 4) := by decide
theorem test_wf_refuses_qt : ¬WellFormed (.idct 0 4) ∧ ¬WellFormed (.fdct 0 4) := by decide
theorem test_wf_refuses_yhm1 : ¬WellFormed (.cscInv 4 0 0 0) ∧ ¬WellFormed (.cscFwd 4 0 0 0) := by decide
theorem test_wf_refuses_yvm1 : ¬WellFormed (.cscInv 0 4 0 0) ∧ ¬WellFormed (.cscFwd 0 4 0 0) := by decide
theorem test_wf_refuses_chm1 : ¬WellFormed (.cscInv 0 0 4 0) ∧ ¬WellFormed (.cscFwd 0 0 4 0) := by decide
theorem test_wf_refuses_cvm1 : ¬WellFormed (.cscInv 0 0 0 4) ∧ ¬WellFormed (.cscFwd 0 0 0 4) := by decide
theorem test_assemble_refuses_wide_field : assemble (.hdec 8 0 0 0) = none := by decide

/-! ## Decoding: words written out from the formats of 30_encoding.md R111

Each word is ACT/QT/… bits written from the high end down to OP. -/

theorem test_decode_nop : decode 0b00000000000000000000000000000000#32 = .ok .nop := by decide
/-- ID = 10, CLASS = 1, OP = 0x01. -/
theorem test_decode_htBuild : decode 0b00000000000000000010000100000001#32 = .ok (.htBuild .ac 2) := by decide
theorem test_decode_dcReset : decode 0b00000000000000000000000000000010#32 = .ok .dcReset := by decide
theorem test_decode_bsAlignRd : decode 0b00000000000000000000000000001000#32 = .ok .bsAlignRd := by decide
theorem test_decode_bsFlushWr : decode 0b00000000000000000000000000001001#32 = .ok .bsFlushWr := by decide
/-- ACT = 10, DCT = 01, COMP = 11, SLOT = 101, OP = 0x10. -/
theorem test_decode_hdec : decode 0b00000000001000010011010100010000#32 = .ok (.hdec 5 3 1 2) := by decide
/-- ACT = 01, DCT = 10, COMP = 01, SLOT = 011, OP = 0x11. -/
theorem test_decode_henc : decode 0b00000000000100100001001100010001#32 = .ok (.henc 3 1 2 1) := by decide
/-- QT = 11, SLOT = 100, OP = 0x20. -/
theorem test_decode_idct : decode 0b00000000000000110000010000100000#32 = .ok (.idct 4 3) := by decide
/-- QT = 01, SLOT = 010, OP = 0x21. -/
theorem test_decode_fdct : decode 0b00000000000000010000001000100001#32 = .ok (.fdct 2 1) := by decide
/-- CVM1 = 11, CHM1 = 10, YVM1 = 01, YHM1 = 00, OP = 0x30. -/
theorem test_decode_cscInv : decode 0b00000000000000001110010000110000#32 = .ok (.cscInv 0 1 2 3) := by decide
/-- CVM1 = 00, CHM1 = 01, YVM1 = 10, YHM1 = 11, OP = 0x31. -/
theorem test_decode_cscFwd : decode 0b00000000000000000001101100110001#32 = .ok (.cscFwd 3 2 1 0) := by decide
theorem test_decode_table_word : decodeTableWord 32 0x00000530 = some (.cscInv 1 1 0 0) ∧ decodeTableWord 32 3 = none := by
  decide

/-- E-1, E-2: undefined opcodes. E-3 to E-6: reserved bits. -/
theorem test_illegal_words :
    (run State.reset 0x00000003 |> seen report) = some (0x04#32, 0x00030107#32) ∧
    (run State.reset 0x000000FF |> seen report) = some (0x04#32, 0x00FF0107#32) ∧
    (run State.reset 0x00000810 |> seen report) = some (0x04#32, 0x00100207#32) ∧
    (run State.reset 0x00040020 |> seen report) = some (0x04#32, 0x00200207#32) ∧
    (run State.reset 0x00000601 |> seen report) = some (0x04#32, 0x00010207#32) ∧
    (run State.reset 0x00010030 |> seen report) = some (0x04#32, 0x00300207#32) := by decide +kernel

/-! ## Control commands (95_test_vectors.md section 3.1) -/

/-- C-1, C-2. -/
theorem test_nop : (run State.reset 0x00000000 |> seen report) = some (0x02#32, 0#32) ∧
    (run State.reset 0x00000100 |> seen report) = some (0x04#32, 0x00000207#32) := by decide +kernel

/-- C-3. -/
theorem test_dcReset : (run { State.reset with dcPred := ⟨5#16, 0xFFFD#16, 7#16, 0#16⟩ } 0x00000002 |>
    seen fun t => (t.dcPred, report t)) = some (⟨0#16, 0#16, 0#16, 0#16⟩, 0x02#32, 0#32) := by decide +kernel

/-- C-5: the stuffing byte of a partly read 0xFF is skipped too. -/
theorem test_bsAlignRd_stuffed : (run { withMem (storesPacked (ibufAddr 1) [0xFF#8, 0x00#8]) with
    rdPos := 1#17, rdBit := 3#3, rdLen := 3#17 } 0x00000008 |> seen fun t => (t.rdPos, t.rdBit)) = some (3#17, 0#3) := by
  decide +kernel

/-- C-6: at a byte boundary nothing moves. -/
theorem test_bsAlignRd_aligned : (run { State.reset with rdPos := 2#17 } 0x00000008 |>
    seen fun t => (t.rdPos, t.rdBit, report t)) = some (2#17, 0#3, 0x02#32, 0#32) := by decide +kernel

/-- C-8: pending "1111111" pads to 0xFF and its stuffing. -/
theorem test_bsFlushWr_stuffs : (run { State.reset with wrBit := 7#3, wrAcc := 0x7F#7 } 0x00000009 |>
    seen fun t => (t.mem.obuf 0, t.mem.obuf 1, t.wrPos, t.wrBit, t.wrAcc)) =
      some (0xFF#8, 0x00#8, 2#17, 0#3, 0#7) := by decide +kernel

/-- C-10: 0xFF and its stuffing need two bytes, one is free. -/
theorem test_bsFlushWr_full : (run { State.reset with wrPos := 32767#17, wrBit := 7#3, wrAcc := 0x7F#7 } 0x00000009 |>
    seen fun t => (report t, t.wrPos, t.wrBit, t.wrAcc)) = some ((0x10#32, 0#32), 32767#17, 7#3, 0x7F#7) := by
  decide +kernel

/-- H-4 (over-subscribed after length 2) and H-5 (a symbol twice), on table 1. -/
theorem test_htBuild_refuses :
    (run (withMem (table 1 ([2#8, 1#8] ++ List.replicate 14 0#8) [0#8, 1#8, 2#8])) 0x00001001 |> seen report) =
      some (0x04#32, 0x00010302#32) ∧
    (run (withMem (table 1 ([0#8, 2#8] ++ List.replicate 14 0#8) [3#8, 3#8])) 0x00001001 |> seen report) =
      some (0x04#32, 0x00010402#32) := by decide +kernel

/-- H-6: the all-ones code is accepted. -/
theorem test_htBuild_builds :
    (run (withMem (table 1 (2#8 :: List.replicate 15 0#8) [0#8, 1#8])) 0x00001001 |>
      seen fun t => (t.htValid, report t)) = some (0x02#8, 0x02#32, 0#32) := by decide +kernel

/-- The codes of table TD (41_control_commands.md R172's example): the shortest, a middle and the longest. -/
theorem test_canonical_codes : ((htTable (withMem (tableTD 0)).mem 0).map fun e => (e.size, e.code)) =
    [(2, 0), (3, 2), (3, 3), (3, 4), (3, 5), (3, 6), (4, 14), (5, 30), (6, 62), (7, 126), (8, 254), (9, 510)] := by
  decide +kernel

/-! ## HDEC (95_test_vectors.md section 3.4) -/

/-- HD-3: the stuffed 00 at offset 1 is skipped. -/
theorem test_hdec_stuffed : (run (decoding [0xFF#8, 0x00#8, 0x40#8, 0x03#8]) 0x00000010 |>
    seen fun t => (t.mem.coef 0 0, t.mem.coef 0 1, t.dcPred.p0, t.rdPos, t.rdBit)) =
      some (1024#16, 0#16, 1024#16, 3#17, 6#3) := by decide +kernel

/-- HD-15, a marker; HD-16, no code in 16 bits. -/
theorem test_hdec_refuses : (run (decoding [0xFF#8, 0xD0#8]) 0x00000010 |> seen report) = some (0x04#32, 0x00100103#32) ∧
    (run (decoding [0xFF#8, 0x00#8, 0xFF#8, 0x00#8]) 0x00000010 |> seen report) = some (0x04#32, 0x00100104#32) := by
  decide +kernel

/-! ## HENC (95_test_vectors.md section 3.3) -/

/-- HE-4: a run of one, a ZRL, an EOB. -/
theorem test_henc_runs : (run (coded (storesHalves (coefAddr 0 0) ([0#16, 1#16, 0#16, 0xFFFF#16] ++ List.replicate 16 0#16 ++
      [2#16] ++ List.replicate 43 0#16))) 0x00000011 |>
    seen fun t => (t.mem.obuf 0, t.mem.obuf 1, t.wrPos, t.wrBit, t.wrAcc)) =
      some (0x1C#8, 0x65#8, 2#17, 4#3, 0x8#7) := by decide +kernel

/-- HE-13: the DC difference does not wrap. -/
theorem test_henc_wide_difference : (run { coded (storesHalves (coefAddr 0 0) (dcBlock 0x7FFF#16)) with
    dcPred := ⟨0x8000#16, 0#16, 0#16, 0#16⟩ } 0x00000011 |> seen report) = some (0x04#32, 0x00110206#32) := by decide +kernel

/-! ## IDCT and FDCT (95_test_vectors.md sections 3.5, 3.6) -/

/-- A list of 64 integers with `v` at index `k` and 0 elsewhere. -/
def impulse (k : Nat) (v : Int) : List Int := (List.range 64).map fun i => if i = k then v else 0

/-- QT[0] all `q`, COEF[0] with DC `v` only. -/
def dcState (q v : Half) : State := withMem (storesHalves (qtAddr 0 0) (halves q) ++ storesHalves (coefAddr 0 0) (dcBlock v))

/-- ID-3: a tie goes away from zero, and the command completes. -/
theorem test_idct_tie : (dequantize (dcState 1#16 0xFFFC#16).mem 0 0).take 2 = [-4, 0] ∧
    (idctExact (impulse 0 (-4))).getD 63 0#8 = 127#8 ∧
    (run (dcState 1#16 0xFFFC#16) 0x00000020 |> seen report) = some (0x02#32, 0#32) := by decide +kernel

/-- ID-11, ID-12: natural index 1 is horizontal (row 0 falls to the right), natural index 8 vertical. -/
theorem test_idct_directions :
    [0, 2, 3, 7, 56].map ((idctExact (impulse 1 10)).getD · 0#8) = [130#8, 129#8, 128#8, 126#8, 130#8] ∧
    [0, 7, 16, 24, 56].map ((idctExact (impulse 8 10)).getD · 0#8) = [130#8, 130#8, 129#8, 128#8, 126#8] := by
  decide +kernel

/-- FD-11: a constant block and a tie, and the command completes. -/
theorem test_fdct_tie : (fdctExact (List.replicate 64 (99 - 128)) (halves 16#16)).getD 0 0#16 = 0xFFF1#16 ∧
    (run (dcState 16#16 0#16) 0x00000021 |> seen report) = some (0x02#32, 0#32) := by decide +kernel

/-- FD-13: a horizontal ramp, zig-zag positions 0, 1, 2 and 28. -/
theorem test_fdct_ramp :
    [0, 1, 2, 28].map ((fdctExact ((List.range 64).map fun i => 16 * ((i % 8 : Nat) : Int) - 64) (halves 1#16)).getD · 0#16) =
      [0xFFC0#16, 0xFEDC#16, 0#16, 0xFFFE#16] := by decide +kernel

/-- The zig-zag table and its inverse (00_scope.md R14). -/
theorem test_zigzag_inverse : (∀ k < 64, izz (zz k) = k) ∧ ∀ n < 64, zz (izz n) = n := by decide +kernel

/-! ## Colour (95_test_vectors.md section 3.7) -/

/-- A 16-pixel-wide tile of `h` rows. -/
def pixels (h : Nat) (f : Nat → Nat → List Byte) : List Host.Cell :=
  storesBytes (pixAddr 0) ((List.range h).flatMap fun y => (List.range 16).flatMap fun x => f x y)

/-- 16×8 pixels, odd columns red, even columns blue. -/
def stripes : State := withMem (pixels 8 fun x _ => if x % 2 = 1 then [255#8, 0#8, 0#8] else [0#8, 0#8, 255#8])

/-- CC-3, 4:2:2: a luma store, a Cb store and a Cr store. -/
theorem test_cscFwd_422 :
    (cscFwdStores stripes.mem 2 1)[1]? = some (smpAddr 0 1, 76#8) ∧
    (cscFwdStores stripes.mem 2 1)[128]? = some (smpAddr 4 0, 170#8) ∧
    (cscFwdStores stripes.mem 2 1)[255]? = some (smpAddr 5 63, 181#8) ∧
    (run stripes 0x00000131 |> seen report) = some (0x02#32, 0#32) := by decide +kernel

/-- SMP[0] all 141, SMP[4] all 161, SMP[5] all 99. -/
def flat : State := withMem (storesBytes (smpAddr 0 0) (List.replicate 64 141#8) ++
    storesBytes (smpAddr 4 0) (List.replicate 64 161#8) ++ storesBytes (smpAddr 5 0) (List.replicate 64 99#8))

/-- R303's example: every pixel is (100, 150, 199). -/
theorem test_cscInv_444 :
    (cscInvStores flat.mem 1 1).take 3 = [(pixAddr 0, 100#8), (pixAddr 1, 150#8), (pixAddr 2, 199#8)] ∧
    (cscInvStores flat.mem 1 1)[191]? = some (pixAddr 359, 199#8) ∧
    (run flat 0x00000030 |> seen report) = some (0x02#32, 0#32) := by decide +kernel

/-- The pure colours of section 3.7, ties and clamps among them, and the inverse alone. -/
theorem test_colour_equations :
    (rgbToY 255#8 0#8 0#8, rgbToCb 255#8 0#8 0#8, rgbToCr 255#8 0#8 0#8) = (76#8, 85#8, 255#8) ∧
    (rgbToY 0#8 255#8 0#8, rgbToCb 0#8 255#8 0#8, rgbToCr 0#8 255#8 0#8) = (150#8, 44#8, 21#8) ∧
    (yccToR 0#8 0#8 255#8, yccToG 0#8 0#8 255#8, yccToB 0#8 0#8 255#8) = (178#8, 0#8, 0#8) ∧
    (yccToR 255#8 255#8 0#8, yccToG 255#8 255#8 0#8, yccToB 255#8 255#8 0#8) = (76#8, 255#8, 255#8) := by decide +kernel

/-! ## Host accesses (95_test_vectors.md section 3.8) -/

/-- A-1, A-2, A-18. -/
theorem test_register_reads :
    (act State.reset [rd Params.standard 0x00] |> seen State.responses) = some [0x4A524531#32] ∧
    (act State.reset [rd Params.standard 0x0C] |> seen State.responses) = some [0#32] ∧
    (act State.reset [rd Params.standard 0x50] |> seen State.responses) = some [0#32] := by decide +kernel

/-- A-3 and A-7: a COEF word is sign-extended, an IBUF word packed little-endian. -/
theorem test_memory_reads :
    (act (withMem (stores16 (coefAddr 0 0) 0xFFFD#16)) [rd Params.standard 0x6000] |> seen State.responses) =
      some [0xFFFFFFFD#32] ∧
    (act (withMem (storesPacked (ibufAddr 0) [0x95#8, 0xC6#8, 0x58#8, 0x00#8])) [rd Params.standard 0x10000] |>
      seen State.responses) = some [0x0058C695#32] := by decide +kernel

/-- 10_state.md R46 and R39: a predictor reads sign-extended, HT_VALID zero-extended. -/
theorem test_idle_register_reads :
    (act { State.reset with dcPred := ⟨0#16, 0#16, 0#16, 0xFFFD#16⟩ } [rd Params.standard 0x4C] |> seen State.responses) =
      some [0xFFFFFFFD#32] ∧
    (act { State.reset with htValid := 0x91#8 } [rd Params.standard 0x18] |> seen State.responses) = some [0x91#32] := by
  decide +kernel

/-- 20_memory.md R81: a word written to IBUF is little-endian to the reader. -/
theorem test_ibuf_write_order : (act State.reset [wr Params.standard 0x10004 0x44332211#32] |>
    seen fun t => [4, 5, 6, 7].map t.mem.ibuf) = some [0x11#8, 0x22#8, 0x33#8, 0x44#8] := by decide +kernel

/-- A-5, A-6: RD_LEN takes 17 bits, then clamps. -/
theorem test_rdLen_clamps :
    (act State.reset [wr Params.standard 0x28 0x00100000#32] |> seen State.rdLen) = some 0#17 ∧
    (act State.reset [wr Params.standard 0x28 0x0001FFFF#32] |> seen State.rdLen) = some 32768#17 := by decide +kernel

/-- A-10, A-11: writes dropped while a NOP waits. -/
theorem test_busy_drops :
    (act (State.reset.withFetchWord 32 0) [wr Params.standard 0x20 5#32] |> seen fun t => (t.rdPos, report t)) =
      some (0#17, 0x41#32, 0#32) ∧
    (act (State.reset.withFetchWord 32 0) [wr Params.standard 0x0C 0#32] |> seen report) = some (0x21#32, 0#32) := by
  decide +kernel

/-- A-8, and A-16's soft reset with IN_FINAL set in the same write. -/
theorem test_status_and_soft_reset :
    (act { State.reset with status := ⟨false, true, false, false, true, false⟩ } [wr Params.standard 0x10 4#32] |>
      seen report) = some (0x20#32, 0#32) ∧
    (act { State.reset.withFetchWord 32 0x10 with rdPos := 7#17, htValid := 0x11#8, errcode := 1#32 }
      [wr Params.standard 0x08 5#32] |> seen fun t => (t.rdPos, t.htValid, report t, t.ctrl)) =
        some (0#17, 0#8, (0#32, 0#32), ⟨false, true⟩) := by decide +kernel

/-- A-17: a misaligned access is a bus error. -/
theorem test_bus_error : (match act State.reset [.write 2 4 0#32] with
    | .fault r => r == .busError 2 4
    | _ => false) = true := by decide +kernel

/-- A written byte of table 0 clears HT_VALID bit 0 alone (10_state.md R51). -/
theorem test_table_write_unbuilds : (act { State.reset with htValid := 0x11#8 } [wr Params.standard 0x2040 0#32] |>
    seen State.htValid) = some 0x10#8 := by decide +kernel

/-- The quality table of section 2.2, base 16. -/
theorem test_quality : ([1, 10, 49, 50, 75, 90, 100].map fun q => qualityEntry q 16) = [255, 80, 16, 16, 8, 3, 1] := by
  decide +kernel

/-! ## Witnesses: states and operands that meet the hypotheses of each statement of Certificates/Slice0/Obligations.lean -/

open Sys2Proof.Claims

/-- A table with one code: NSYM = 1, BITS[1] = 1. -/
def tinyTable (h : Nat) : List Host.Cell := table h (1#8 :: List.replicate 15 0#8) [7#8]

/-- Table TX1 of 95_test_vectors.md section 1: BITS[1] = 2, symbols 0x00 and 0x0C. -/
def tableTX1 (h : Nat) : List Host.Cell := table h (2#8 :: List.replicate 15 0#8) [0x00#8, 0x0C#8]

/-- A busy state on the engine's turn. -/
def latched (cw : Word) : State := { State.reset with latch := some ⟨cw, false⟩ }

theorem witness_DecodeOfEncodedCommand : WellFormed (.hdec 7 3 3 3) ∧ WellFormed (.htBuild .ac 3) ∧
    WellFormed (.cscInv 3 3 3 3) := by decide

theorem witness_EncodeOfDecodedWord : decode 0x00333711#32 = .ok (.henc 7 3 3 3) := by decide

theorem witness_IllegalWordsRaiseIllegalCommand :
    (turnOf (latched 0x03#32) = .engine ∧ ∀ r ∈ opcodeRows, ((0x03#32 : Word).extractLsb' 0 8).toNat ≠ r.1) ∧
    (turnOf (latched 0x810#32) = .engine ∧ (0x10, 0xFFCCC800#32) ∈ opcodeRows ∧
      ((0x810#32 : Word).extractLsb' 0 8).toNat = 0x10 ∧ 0x810#32 &&& 0xFFCCC800#32 ≠ 0#32) := by decide

theorem witness_StepRunsLatchedCommand :
    turnOf (latched 0x10#32) = .engine ∧ decode 0x10#32 = .ok (.hdec 0 0 0 0) ∧
    turnOf { latched 0x10#32 with schedule := [.host] } = .host ∧
    (turnOf { State.reset with schedule := [.engine] } = .engine ∧ State.reset.latch = none) ∧
    State.reset.schedule = [] ∧
    decode (BitVec.ofNat 32 0x531) = .ok (.cscFwd 1 1 0 0) := by decide

theorem witness_NeedDataOnlyFromHdec : (coded []).status.needData = false ∧ (coded []).status.err = false ∧
    ∃ t, exec (.hdec 0 0 0 0) (coded []) = .next t ∧ t.status.needData = true :=
  ⟨rfl, rfl, _, rfl, by decide +kernel⟩

/-- One byte free, and a block that needs three (HE-14). -/
def nearlyFull : State := { coded (storesHalves (coefAddr 1 0) (dcBlock 1024#16)) with
  params := ⟨0, 15, 2, .exact⟩, wrPos := 3#17, wrBit := 6#3 }

theorem witness_OutFullOnlyFromWriters :
    (nearlyFull.status.outFull = false ∧ ∃ t, exec (.henc 1 1 0 0) nearlyFull = .next t ∧ t.status.outFull = true) ∧
    ∃ t, exec .bsFlushWr { nearlyFull with wrBit := 7#3, wrAcc := 0x7F#7 } = .next t ∧ t.status.outFull = true :=
  ⟨⟨rfl, _, rfl, by decide +kernel⟩, _, rfl, by decide +kernel⟩

theorem witness_OnlyListedErrorsAreRaised : State.reset.status.err = false ∧
    ∃ t, exec (.idct 6 0) State.reset = .next t ∧ t.status.err = true := ⟨rfl, _, rfl, by decide⟩

theorem witness_EngineLeavesInputsAlone : ∃ t, exec .dcReset State.reset = .next t := ⟨_, rfl⟩

theorem witness_WrittenOutputIsNeverRewritten :
    (∃ t, exec .bsFlushWr { State.reset with wrPos := 5#17, wrBit := 1#3 } = .next t) ∧ 4 < (5#17).toNat := ⟨⟨_, rfl⟩, by decide⟩

theorem witness_BusyBlockCompletes : ({ latched 0#32 with schedule := [.host, .host] } : State).busy = true := rfl

theorem witness_BadSlotRaisesInvalidArgument : (6 = 6 ∨ 6 = 7) ∧ (7 = 6 ∨ 7 = 7) := by decide

theorem witness_BadFactorsRaiseUnsupportedFormat :
    ¬((0 + 1, 1 + 1) ∈ legalLuma ∧ 0 + 1 = 1 ∧ 0 + 1 = 1) ∧ ¬((1 + 1, 1 + 1) ∈ legalLuma ∧ 0 + 1 = 1 ∧ 3 + 1 = 1) := by decide

theorem witness_UnbuiltTableRaisesMalformedTable :
    ((coded []).htValid.getLsbD 1 = false ∨ (coded []).htValid.getLsbD (4 + 0) = false) ∧
    ((coded []).htValid.getLsbD 0 = false ∨ (coded []).htValid.getLsbD (4 + 3) = false) ∧ 5 ≤ 5 ∧ 5 < 6 := by decide

theorem witness_ZeroQuantizerRaisesMalformedTable :
    (∃ k < 64, (withMem (stores16 (qtAddr 3 63) 0#16)).mem.qt 3 k = 0#16) ∧ 5 ≤ 5 ∧ 5 < 6 :=
  ⟨⟨63, by decide, by decide +kernel⟩, by decide, by decide⟩

/-- Clauses 1 and 2 of HtBuildChecksThenValidates: no symbol, too many symbols; a sum that differs. -/
theorem witness_HtBuildChecksThenValidates_counts :
    ((withMem (stores9 (htNsymAddr 0) 0#9)).mem.htNsym 0).toNat = 0 ∧
    256 < ((withMem (stores9 (htNsymAddr 7) 257#9)).mem.htNsym 7).toNat ∧
    ((withMem (table 1 (1#8 :: List.replicate 15 0#8) [1#8, 2#8])).mem.htNsym 1).toNat = 2 ∧
    ∑ l ∈ Finset.Icc 1 16, ((withMem (table 1 (1#8 :: List.replicate 15 0#8) [1#8, 2#8])).mem.htBits 1 l).toNat = 1 := by
  decide +kernel

/-- Clauses 3 and 4: over-subscribed after length 2 (H-4); a symbol twice (H-5). -/
theorem witness_HtBuildChecksThenValidates_codes :
    (2 ^ 2 < ∑ i ∈ Finset.Icc 1 2,
      ((withMem (table 1 ([2#8, 1#8] ++ List.replicate 14 0#8) [0#8, 1#8, 2#8])).mem.htBits 1 i).toNat * 2 ^ (2 - i)) ∧
    ((withMem (table 1 ([0#8, 2#8] ++ List.replicate 14 0#8) [3#8, 3#8])).mem.htVal 1 0 =
      (withMem (table 1 ([0#8, 2#8] ++ List.replicate 14 0#8) [3#8, 3#8])).mem.htVal 1 1) ∧
    ¬∃ l ∈ Finset.Icc 1 16, 2 ^ l < ∑ i ∈ Finset.Icc 1 l,
      ((withMem (table 1 ([0#8, 2#8] ++ List.replicate 14 0#8) [3#8, 3#8])).mem.htBits 1 i).toNat * 2 ^ (l - i) := by
  decide +kernel

/-- Clause 5, and the premise of BuiltCodesArePrefixFree: the one-code table. -/
theorem witness_HtBuildChecksThenValidates_built :
    ((withMem (tinyTable 4)).mem.htNsym 4).toNat = 1 ∧
    (∑ l ∈ Finset.Icc 1 16, ((withMem (tinyTable 4)).mem.htBits 4 l).toNat = 1) ∧
    (¬∃ l ∈ Finset.Icc 1 16, 2 ^ l < ∑ i ∈ Finset.Icc 1 l, ((withMem (tinyTable 4)).mem.htBits 4 i).toNat * 2 ^ (l - i)) ∧
    ¬∃ i j, i < j ∧ j < 1 ∧ (withMem (tinyTable 4)).mem.htVal 4 i = (withMem (tinyTable 4)).mem.htVal 4 j :=
  ⟨by decide +kernel, by decide +kernel, by decide +kernel, by rintro ⟨i, j, h1, h2, -⟩; omega⟩

theorem witness_BuiltCodesArePrefixFree : checkTable (withMem (tableTX1 1)).mem 1 = .ok () ∧
    (htTable (withMem (tableTX1 1)).mem 1).length = 2 := by decide +kernel

theorem witness_AlignMovesToNextByte : State.reset.params.ibufLog2 ≤ 16 ∧ State.reset.rdBit = 0#3 ∧
    ({ State.reset with rdBit := 7#3 } : State).rdBit ≠ 0#3 := by decide

theorem witness_FlushPadsWithOnes : nearlyFull.params.obufLog2 ≤ 16 ∧
    3 + [0x00#8].length ≤ nearlyFull.params.obufBytes ∧ nearlyFull.params.obufBytes < 3 + [0xFF#8, 0x00#8].length := by
  decide

/-- The bytes 2A, FF 00, FF D0 and a last FF, for the clauses of ReadBitFollowsStuffing. -/
def stream : Source := ⟨(withMem (storesPacked (ibufAddr 0) [0x2A#8, 0xFF#8, 0x00#8, 0xFF#8, 0xD0#8, 0xFF#8])).mem, 6, true⟩

theorem witness_ReadBitFollowsStuffing : stream.len ≤ 6 ∧
    (0 < stream.len ∧ stream.mem.ibuf 0 ≠ 0xFF#8) ∧ (5 < stream.len ∧ stream.mem.ibuf 5 = 0xFF#8 ∧ stream.len ≤ 5 + 1) ∧
    (3 + 1 < stream.len ∧ stream.mem.ibuf 3 = 0xFF#8 ∧ stream.mem.ibuf (3 + 1) ≠ 0x00#8) ∧
    (1 + 1 < stream.len ∧ stream.mem.ibuf 1 = 0xFF#8 ∧ stream.mem.ibuf (1 + 1) = 0x00#8) := by decide +kernel

theorem witness_CatAndMag : (-1 : Int) ≠ 0 ∧ (2047 : Int) ≠ 0 ∧ mag (-1) 1 = 0 ∧ mag 2047 11 = 2047 := by decide

theorem witness_OutputHoldsNoMarker : (outBytes (List.replicate 8 true))[0]? = some 0xFF#8 ∧
    1 < (packBytes (List.replicate 17 true)).1.length := by decide

/-- DecodeSymMatchesOneCode: a code that comes next, no code in 16 bits, and a stream that ends inside every code. -/
theorem witness_DecodeSymMatchesOneCode :
    (⟨1, 0, 7#8⟩ ∈ htTable (withMem (tinyTable 4)).mem 4 ∧ takeBits stream 1 ⟨0, 0⟩ = .ok (bitsOf 0 1, ⟨0, 1⟩)) ∧
    (takeBits (decoding [0xFF#8, 0x00#8, 0xFF#8, 0x00#8]).source 16 ⟨0, 0⟩ = .ok (List.replicate 16 true, ⟨4, 0⟩) ∧
      ∀ e ∈ htTable (withMem (tinyTable 4)).mem 4, (List.replicate 16 true).take e.size ≠ bitsOf e.code e.size) ∧
    (takeBits stream 0 ⟨5, 0⟩ = .ok ([], ⟨5, 0⟩) ∧
      (∀ e ∈ htTable (withMem (tinyTable 4)).mem 4, e.size ≤ 0 → [].take e.size ≠ bitsOf e.code e.size) ∧
      readBit stream ⟨5, 0⟩ = .error (.error .truncatedStream 1#8)) := by decide +kernel

/-- HD-1: the eight bits of 0x94 are the block with DC 5. -/
theorem witness_HdecDecodesEncodedBlock :
    (decoding [0x94#8]).htValid.getLsbD 0 = true ∧ (decoding [0x94#8]).htValid.getLsbD (4 + 0) = true ∧
    (∀ h < 8, htBit (decoding [0x94#8]).htValid h = true → checkTable (decoding [0x94#8]).mem h = .ok ()) ∧
    (dcBlock 5#16).length = 64 ∧
    encodeBlock (htTable (decoding [0x94#8]).mem 0) (htTable (decoding [0x94#8]).mem (4 + 0)) 0#16 (dcBlock 5#16) =
      .ok (bitsOf 0x94 8) ∧
    takeBits (decoding [0x94#8]).source 8 (decoding [0x94#8]).cursor = .ok (bitsOf 0x94 8, ⟨1, 0⟩) := by decide +kernel

theorem witness_HdecCommitsDecodedBlock :
    decodeBlock (htTable (decoding [0x94#8]).mem 0) (htTable (decoding [0x94#8]).mem (4 + 0)) (decoding [0x94#8]).source
      0#16 ⟨0, 0⟩ = .ok (dcBlock 5#16, ⟨1, 0⟩) ∧
    decodeBlock (htTable (coded []).mem 0) (htTable (coded []).mem (4 + 0)) (coded []).source 0#16 ⟨0, 0⟩ =
      .error .needData ∧
    decodeBlock (htTable (decoding []).mem 0) (htTable (decoding []).mem (4 + 0)) ⟨(decoding []).mem, 0, true⟩ 0#16 ⟨0, 0⟩ =
      .error (.error .truncatedStream 1#8) := by decide +kernel

/-- A decoder whose built tables hold symbols no encoder emits. Table 0, two-bit codes: 00 for 0x00, 01 for 0x0C, 10 for 0x01.
Table 4, three-bit codes in the order EOB, ZRL, 0x10, 0xE0, 0x0B, 0x11, 0x01, 0xE1. -/
def oddly (bytes : List Byte) : State :=
  { withMem (table 0 ([0#8, 3#8] ++ List.replicate 14 0#8) [0x00#8, 0x0C#8, 0x01#8] ++
      table 4 ([0#8, 0#8, 8#8] ++ List.replicate 13 0#8)
        [0x00#8, 0xF0#8, 0x10#8, 0xE0#8, 0x0B#8, 0x11#8, 0x01#8, 0xE1#8] ++ storesPacked (ibufAddr 0) bytes) with
    htValid := 0x11#8, rdLen := BitVec.ofNat 17 bytes.length, ctrl := ⟨false, true⟩ }

/-- The tables of `oddly` are built and pass the checks. -/
theorem witness_HdecCommitsDecodedBlock_tables :
    (oddly []).htValid.getLsbD 0 = true ∧ (oddly []).htValid.getLsbD (4 + 0) = true ∧
    ∀ h < 8, htBit (oddly []).htValid h = true → checkTable (oddly []).mem h = .ok () := by decide +kernel

/-- The front that the DC symbol `t`, its magnitude bits `raw` and the AC items `items` make under tables 0 and 4 of `s`. -/
def frontBits (s : State) (t : Byte) (raw : Nat) (items : List (Byte × Nat)) : List Bool :=
  symbolBits (htTable s.mem 0) (t, raw) ++ items.flatMap (symbolBits (htTable s.mem (4 + 0)))

/-- The premises of the clauses after a front: the bits of the front come next, then `more`; the front stands for `k` coefficients. -/
def AfterFront (s : State) (t : Byte) (raw : Nat) (items : List (Byte × Nat)) (more : List Bool) (c : Cursor) (k : Nat) : Prop :=
  (HasCode (htTable s.mem 0) t ∧ t.toNat ≤ 11 ∧ raw < 2 ^ t.toNat ∧ ∀ p ∈ items, AcItem (htTable s.mem (4 + 0)) p) ∧
  takeBits s.source (frontBits s t raw items ++ more).length s.cursor = .ok (frontBits s t raw items ++ more, c) ∧
  1 + (items.flatMap acValues).length = k

/-- They are the premises of HdecCommitsDecodedBlock. -/
theorem afterFront_premises {s : State} {t : Byte} {raw : Nat} {items : List (Byte × Nat)} {more : List Bool} {c : Cursor} {k : Nat}
    (h : AfterFront s t raw items more c k) : ∃ z front,
      CodedFront (htTable s.mem 0) (htTable s.mem (4 + 0)) (s.dcPred.get 0) z front ∧ NextBits s (front ++ more) c ∧
      z.length = k :=
  ⟨_, _, ⟨t, raw, items, ⟨h.1.1, h.1.2.1, h.1.2.2.1, h.1.2.2.2, rfl⟩, rfl⟩, h.2.1, by
    rw [List.length_cons, Nat.add_comm]; exact h.2.2⟩

/-- The DC symbol 0x0C comes next; and a difference of -1 from the lowest predictor, then EOB, where the sum wraps. -/
theorem witness_HdecCommitsDecodedBlock_dc :
    (HasCode (htTable (oddly [0x40#8]).mem 0) 0x0C#8 ∧ codeOf (htTable (oddly [0x40#8]).mem 0) 0x0C#8 = bitsOf 1 2 ∧
      NextBits (oddly [0x40#8]) (bitsOf 1 2) ⟨0, 2⟩ ∧ 11 < (0x0C#8).toNat) ∧
    AfterFront { oddly [0x80#8] with dcPred := ⟨0x8000#16, 0#16, 0#16, 0#16⟩ } 0x01#8 0 [] (bitsOf 0 3) ⟨0, 6⟩ 1 ∧
    0x8000#16 + BitVec.ofInt 16 (signedValue 0 (0x01#8).toNat) = 0x7FFF#16 := by
  unfold AfterFront NextBits AcItem HasCode; decide +kernel

/-- The codes of the AC symbols below. -/
theorem witness_HdecCommitsDecodedBlock_codes : ∀ p ∈ [(0x00#8, 0), (0xF0#8, 1), (0x10#8, 2), (0xE0#8, 3), (0x0B#8, 4), (0x11#8, 5)],
    HasCode (htTable (oddly []).mem (4 + 0)) p.1 ∧ codeOf (htTable (oddly []).mem (4 + 0)) p.1 = bitsOf p.2 3 := by
  unfold HasCode; decide +kernel

/-- Size 0 with run 1 and run 14, and size 11, at k = 1. -/
theorem witness_HdecCommitsDecodedBlock_badSize :
    AfterFront (oddly [0x10#8]) 0x00#8 0 [] (bitsOf 2 3) ⟨0, 5⟩ 1 ∧ AfterFront (oddly [0x18#8]) 0x00#8 0 [] (bitsOf 3 3) ⟨0, 5⟩ 1 ∧
    AfterFront (oddly [0x20#8]) 0x00#8 0 [] (bitsOf 4 3) ⟨0, 5⟩ 1 := by
  unfold AfterFront AcItem HasCode; decide +kernel

/-- Two coefficients of 1 after fourteen zeros each, and two ZRLs: positions 1 to 62. -/
def sixtyTwo : List (Byte × Nat) := [(0xE1#8, 1), (0xE1#8, 1), (0xF0#8, 0), (0xF0#8, 0)]

/-- A ZRL at k = 49; a run of one at k = 63. -/
theorem witness_HdecCommitsDecodedBlock_pastEnd :
    AfterFront (oddly [0x09#8, 0x24#8]) 0x00#8 0 (List.replicate 3 (0xF0#8, 0)) (bitsOf 1 3) ⟨1, 6⟩ 49 ∧
    AfterFront (oddly [0x3F#8, 0xC9#8, 0xA0#8]) 0x00#8 0 sixtyTwo (bitsOf 5 3) ⟨2, 3⟩ 63 := by
  unfold AfterFront AcItem HasCode; decide +kernel

/-- EOB at k = 1 and k = 63. -/
theorem witness_HdecCommitsDecodedBlock_eob :
    AfterFront (oddly [0x00#8]) 0x00#8 0 [] (bitsOf 0 3) ⟨0, 5⟩ 1 ∧
    AfterFront (oddly [0x3F#8, 0xC9#8, 0x00#8]) 0x00#8 0 sixtyTwo (bitsOf 0 3) ⟨2, 3⟩ 63 := by
  unfold AfterFront AcItem HasCode; decide +kernel

/-- Fronts of 64 coefficients: a ZRL at k = 48; the symbol 0x01 at k = 63. -/
theorem witness_HdecCommitsDecodedBlock_full :
    AfterFront (oddly [0x3C#8, 0x92#8]) 0x00#8 0 ((0xE1#8, 1) :: List.replicate 3 (0xF0#8, 0)) [] ⟨1, 7⟩ 64 ∧
    AfterFront (oddly [0x3F#8, 0xC9#8, 0xD0#8]) 0x00#8 0 (sixtyTwo ++ [(0x01#8, 1)]) [] ⟨2, 4⟩ 64 := by
  unfold AfterFront AcItem HasCode; decide +kernel

/-- A stop in the DC symbol: no byte at all, with FIN = 1 and with FIN = 0. Sixteen ones are no code of table 0. -/
theorem witness_HdecCommitsDecodedBlock_dcSymbol :
    (NextBits (oddly []) ([] ++ []) ⟨0, 0⟩ ∧ NoCode (htTable (oddly []).mem 0) [] ∧ ([] : List Bool).length < 16) ∧
    (∃ t, ReaderStops { oddly [] with latch := some ⟨0x10#32, true⟩ } ⟨0, 0⟩ t ∧ t.status.err = true) ∧
    (∃ t, ReaderStops { oddly [] with latch := some ⟨0x10#32, false⟩ } ⟨0, 0⟩ t ∧ t.status.needData = true) ∧
    NextBits (oddly [0xFF#8, 0x00#8, 0xFF#8, 0x00#8]) ([] ++ List.replicate 16 true) ⟨4, 0⟩ ∧
    NoCode (htTable (oddly [0xFF#8, 0x00#8, 0xFF#8, 0x00#8]).mem 0) (List.replicate 16 true) := by
  refine ⟨?_, ⟨_, .inl ⟨by decide, rfl⟩, rfl⟩, ⟨_, .inl ⟨by decide, rfl⟩, rfl⟩, ?_⟩ <;> unfold NextBits NoCode <;> decide +kernel

/-- A stop in the DC magnitude: symbol 0x01 in the last two bits of the data. -/
theorem witness_HdecCommitsDecodedBlock_dcMagnitude :
    (HasCode (htTable (oddly [0x02#8]).mem 0) 0x01#8 ∧ codeOf (htTable (oddly [0x02#8]).mem 0) 0x01#8 = bitsOf 2 2 ∧
      ([] : List Bool).length < (0x01#8).toNat ∧ NextBits { oddly [0x02#8] with rdBit := 6#3 } (bitsOf 2 2 ++ []) ⟨1, 0⟩) ∧
    ∃ t, ReaderStops { oddly [0x02#8] with rdBit := 6#3 } ⟨1, 0⟩ t :=
  ⟨by unfold NextBits HasCode; decide +kernel, _, .inl ⟨by decide, rfl⟩⟩

/-- A stop in an AC symbol: a marker after two bits of it, at k = 16. Sixteen ones at k = 1 are no code of table TA. -/
theorem witness_HdecCommitsDecodedBlock_acSymbol :
    (AfterFront (oddly [0x3F#8, 0xFF#8, 0xD9#8]) 0x00#8 0 [(0xE1#8, 1)] [true, true] ⟨1, 0⟩ 16 ∧
      NoCode (htTable (oddly [0x3F#8, 0xFF#8, 0xD9#8]).mem (4 + 0)) [true, true]) ∧
    (∃ t, ReaderStops (oddly [0x3F#8, 0xFF#8, 0xD9#8]) ⟨1, 0⟩ t ∧ t.errcode = 0x00100103#32) ∧
    AfterFront (decoding [0x3F#8, 0xFF#8, 0x00#8, 0xC0#8]) 0x00#8 0 [] (List.replicate 16 true) ⟨3, 2⟩ 1 ∧
    NoCode (htTable (decoding [0x3F#8, 0xFF#8, 0x00#8, 0xC0#8]).mem (4 + 0)) (List.replicate 16 true) := by
  refine ⟨?_, ⟨_, .inr ⟨by decide, by decide +kernel, by decide +kernel, rfl⟩, rfl⟩, ?_⟩ <;>
    unfold AfterFront NoCode AcItem HasCode <;> decide +kernel

/-- A stop in an AC magnitude: after the symbol 0x11 at k = 1 a last 0xFF, whose next byte is missing. -/
theorem witness_HdecCommitsDecodedBlock_acMagnitude :
    AfterFront { oddly [0x05#8, 0xFF#8] with rdBit := 3#3 } 0x00#8 0 [] (bitsOf 5 3 ++ []) ⟨1, 0⟩ 1 ∧
    0x11 % 16 ≤ 10 ∧ 1 + 0x11 / 16 ≤ 63 ∧ ([] : List Bool).length < 0x11 % 16 ∧
    ∃ t, ReaderStops { oddly [0x05#8, 0xFF#8] with rdBit := 3#3 } ⟨1, 0⟩ t :=
  ⟨by unfold AfterFront AcItem HasCode; decide +kernel, by decide, by decide, by decide, _,
    .inl ⟨.inr ⟨by decide +kernel, by decide⟩, rfl⟩⟩

theorem witness_HdecFrame : (3 ≤ 3) ∧ ∃ t, exec (.hdec 5 3 0 0) (decoding [0x94#8]) = .next t := ⟨by decide, _, rfl⟩

theorem witness_HencWritesEncodedBlock :
    encodeBlock (htTable nearlyFull.mem 0) (htTable nearlyFull.mem (4 + 0)) 0#16 (nearlyFull.mem.coefBlock 1) =
      .ok (bitsOf 0b111111110 9 ++ bitsOf 1024 11 ++ bitsOf 0 2) ∧
    ({ nearlyFull with wrPos := 0#17 } : State).wrPos.toNat + 3 ≤ nearlyFull.params.obufBytes ∧
    (outBytes (nearlyFull.pendingBits ++ (bitsOf 0b111111110 9 ++ bitsOf 1024 11 ++ bitsOf 0 2))).length = 3 := by
  decide +kernel

/-- The same block does not fit from WR_POS = 3 on; a DC difference of category 16, which is also what encodeBlock raises. -/
theorem witness_HencWritesEncodedBlock_stops :
    nearlyFull.params.obufBytes < nearlyFull.wrPos.toNat + 3 ∧
    11 < cat ((0x7FFF#16).toInt - (0x8000#16).toInt) ∧
    encodeBlock (htTable (coded []).mem 0) (htTable (coded []).mem (4 + 0)) 0x8000#16 (dcBlock 0x7FFF#16) =
      .error (.error .invalidArgument 2#8) := by decide +kernel

/-- A block with `v` at position `k` and 0 elsewhere, in slot 0 of a state with more memory below it. -/
def lone (cells : List Host.Cell) (k : Nat) (v : Half) : Memory :=
  ⟨cells ++ storesHalves (coefAddr 0 0) ((List.range 64).map fun i => if i = k then v else 0#16), 0⟩

/-- Category 2 has no code in table 0 of `oddly`. -/
theorem witness_HencWritesEncodedBlock_dcMissing :
    cat 2 ≤ 11 ∧ ¬HasCode (htTable (oddly []).mem 0) (BitVec.ofNat 8 (cat 2)) := by
  unfold HasCode; decide +kernel

/-- What makes `z` an encoded front, its bits left open. -/
theorem encodedFront_mk {dcTab acTab : List Entry} {pred : Half} {z : List Half} (t : Byte) (raw : Nat) (items : List (Byte × Nat))
    (dc : Half)
    (h : ((∃ e ∈ dcTab, e.sym = t) ∧ t.toNat ≤ 11 ∧ raw < 2 ^ t.toNat ∧ ∀ p ∈ items, (∃ e ∈ acTab, e.sym = p.1) ∧
      (p = (0xF0#8, 0) ∨ (1 ≤ p.1.toNat % 16 ∧ p.1.toNat % 16 ≤ 10 ∧ p.2 < 2 ^ (p.1.toNat % 16)))) ∧
      signedValue raw t.toNat = dc.toInt - pred.toInt ∧ items.getLast?.map Prod.fst ≠ some 0xF0#8 ∧
      z = dc :: items.flatMap acValues) : ∃ bits, EncodedFront dcTab acTab pred z bits :=
  ⟨_, t, raw, items, dc, ⟨h.1.1, h.1.2.1, h.1.2.2.1, h.1.2.2.2, rfl⟩, h.2.1, h.2.2.1, h.2.2.2⟩

/-- A ZRL that is needed and missing: tables TD and one code, 1 at position 17; i = 0. -/
theorem witness_HencWritesEncodedBlock_zrlMissing :
    let m := lone (tableTD 0 ++ tinyTable 4) 17 1#16
    (∃ bits, EncodedFront (htTable m 0) (htTable m (4 + 0)) 0#16 ((m.coefBlock 0).take (0 + 1)) bits) ∧
    (∀ j < 17, 0 < j → m.coef 0 j = 0#16) ∧ m.coef 0 17 ≠ 0#16 ∧ 16 ≤ 17 - 1 - 0 ∧
    ¬HasCode (htTable m (4 + 0)) (BitVec.ofNat 8 0xF0) :=
  ⟨encodedFront_mk 0x00#8 0 [] 0#16 (by decide +kernel), by unfold HasCode; decide +kernel⟩

/-- A category of 11 after a run of 16, with a ZRL code in table TA; i = 0. -/
theorem witness_HencWritesEncodedBlock_wideCoefficient :
    let m := lone (tableTD 0 ++ tableTA 4) 17 1024#16
    (∃ bits, EncodedFront (htTable m 0) (htTable m (4 + 0)) 0#16 ((m.coefBlock 0).take (0 + 1)) bits) ∧
    (∀ j < 17, 0 < j → m.coef 0 j = 0#16) ∧ m.coef 0 17 ≠ 0#16 ∧ 10 < cat (m.coef 0 17).toInt ∧
    HasCode (htTable m (4 + 0)) (BitVec.ofNat 8 0xF0) :=
  ⟨encodedFront_mk 0x00#8 0 [] 0#16 (by decide +kernel), by unfold HasCode; decide +kernel⟩

/-- After 1 at position 1 (i = 1), 7 at position 63: its symbol, run 13 and category 3, has no code in table TA. -/
theorem witness_HencWritesEncodedBlock_symbolMissing :
    let m : Memory := ⟨tableTD 0 ++ tableTA 4 ++ storesHalves (coefAddr 0 0)
      ([0#16, 1#16] ++ List.replicate 61 0#16 ++ [7#16]), 0⟩
    (∃ bits, EncodedFront (htTable m 0) (htTable m (4 + 0)) 0#16 ((m.coefBlock 0).take (1 + 1)) bits) ∧
    (∀ j < 63, 1 < j → m.coef 0 j = 0#16) ∧ m.coef 0 63 ≠ 0#16 ∧ cat (m.coef 0 63).toInt ≤ 10 ∧
    HasCode (htTable m (4 + 0)) (BitVec.ofNat 8 0xF0) ∧
    ¬HasCode (htTable m (4 + 0)) (BitVec.ofNat 8 (16 * ((63 - 1 - 1) % 16) + cat (m.coef 0 63).toInt)) :=
  ⟨encodedFront_mk 0x00#8 0 [(0x01#8, 1)] 0#16 (by decide +kernel), by unfold HasCode; decide +kernel⟩

/-- An EOB that is needed: every AC coefficient 0, i = 0; missing from a table of one code, there in table TA. -/
theorem witness_HencWritesEncodedBlock_eob :
    let m := lone (tableTD 0 ++ tinyTable 4) 0 0#16
    let m' := lone (tableTD 0 ++ tableTA 4) 0 0#16
    (∃ bits, EncodedFront (htTable m 0) (htTable m (4 + 0)) 0#16 ((m.coefBlock 0).take (0 + 1)) bits) ∧
    (∃ bits, EncodedFront (htTable m' 0) (htTable m' (4 + 0)) 0#16 ((m'.coefBlock 0).take (0 + 1)) bits) ∧
    (∀ j < 64, 0 < j → m.coef 0 j = 0#16 ∧ m'.coef 0 j = 0#16) ∧
    ¬HasCode (htTable m (4 + 0)) (BitVec.ofNat 8 0x00) ∧ HasCode (htTable m' (4 + 0)) 0x00#8 :=
  ⟨encodedFront_mk 0x00#8 0 [] 0#16 (by decide +kernel), encodedFront_mk 0x00#8 0 [] 0#16 (by decide +kernel),
    by unfold HasCode; decide +kernel⟩

/-- A block that needs no EOB (i = 63): three ZRLs, then run 14 and the value 2, with a table that holds these two symbols. -/
theorem witness_HencWritesEncodedBlock_noEob :
    let m := lone (tableTD 0 ++ table 4 (2#8 :: List.replicate 15 0#8) [0xF0#8, 0xE2#8]) 63 2#16
    ∃ bits, EncodedFront (htTable m 0) (htTable m (4 + 0)) 0#16 ((m.coefBlock 0).take (63 + 1)) bits :=
  encodedFront_mk 0x00#8 0 (List.replicate 3 (0xF0#8, 0) ++ [(0xE2#8, 2)]) 0#16 (by decide +kernel)

theorem witness_HencFrame : (3 ≤ 3) ∧ ∃ t, exec (.henc 1 3 0 0) nearlyFull = .next t := ⟨by decide, _, rfl⟩

/-- The transform statements: a table of ones, a DC-only block, a constant block. -/
theorem witness_Transforms :
    ((dcState 1#16 4#16).params.transform = .exact) ∧
    (∀ k < 64, (dcState 1#16 4#16).mem.qt 0 k ≠ 0#16 ∧ (dcState 1#16 4#16).mem.qt 0 k = 1#16) ∧
    (∀ k, 1 ≤ k → k < 64 → (dcState 1#16 4#16).mem.coef 0 k = 0#16) ∧
    (∀ i < 64, flat.mem.smp 0 i = 141#8) ∧
    ({ dcState 1#16 4#16 with params := ⟨0, 15, 15, .supplied⟩ } : State).params.transform = .supplied := by
  refine ⟨rfl, by decide +kernel, ?_, by decide +kernel, rfl⟩
  have : ∀ k < 64, 1 ≤ k → (dcState 1#16 4#16).mem.coef 0 k = 0#16 := by decide +kernel
  exact fun k h1 h2 => this k h2 h1

/-- TransformRoundTripWithinThree: after FDCT the state itself, and one whose samples are written over, hold the coefficients, the
table and the parameters. -/
theorem witness_TransformRoundTripWithinThree : ∀ m : Memory,
    let u : State := { dcState 1#16 0#16 with mem := m.writeAll (smpStores 0 (List.replicate 64 77#8)) }
    u.params = (dcState 1#16 0#16).params ∧ (∀ k < 64, u.mem.qt 0 k = m.qt 0 k) ∧
      ∀ k < 64, u.mem.coef 0 k = m.coef 0 k := by
  intro m
  have other (a : Nat) (h : ∀ i < 64, a ≠ smpAddr 0 i) : (m.writeAll (smpStores 0 (List.replicate 64 77#8))).read a = m.read a :=
    read_smpStores_other _ _ _ rfl _ h
  refine ⟨rfl, fun k hk => ?_, fun k hk => ?_⟩ <;>
    simp only [Memory.qt, Memory.coef, Memory.read16, qtAddr, coefAddr] <;>
    rw [other _ fun i _ => by unfold smpAddr; omega, other _ fun i _ => by unfold smpAddr; omega]

/-- The integers of IdctIsRoundedExactTransform's premise exist. -/
theorem witness_IdctIsRoundedExactTransform : ∃ d : Nat → ℤ, ∀ k < 64,
    d (zz k) = ((dcState 1#16 4#16).mem.coef 0 k).toInt * (((dcState 1#16 4#16).mem.qt 0 k).toNat : ℤ) :=
  ⟨fun n => ((dcState 1#16 4#16).mem.coef 0 (izz n)).toInt * (((dcState 1#16 4#16).mem.qt 0 (izz n)).toNat : ℤ),
    fun k hk => by simp only [test_zigzag_inverse.1 k hk]⟩

theorem witness_CscConvertsMcu : (1, 1) ∈ legalLuma ∧ (2, 1) ∈ legalLuma ∧ (2, 2) ∈ legalLuma := by decide

/-- BuiltCodesArePrefixFree's first clause: the last code of table TD, nine bits long, is symbol number 11. -/
theorem witness_BuiltCodesArePrefixFree_last : 9 ∈ Finset.Icc 1 16 ∧ 0 < ((withMem (tableTD 0)).mem.htBits 0 9).toNat ∧
    checkTable (withMem (tableTD 0)).mem 0 = .ok () := by decide +kernel

/-- BadAccessFaults: the last word of the window is accepted, the word after it and a two-byte access are not. -/
theorem witness_BadAccessFaults :
    turnOf { State.reset with inputs := [.read 0x2FFFC 4] } = .host ∧
    ¬((4 : Nat) ≠ 4 ∨ 0x2FFFC % 4 ≠ 0 ∨ 0x2FFFC < 0 ∨ 0 + 0x2FFFF < 0x2FFFC) ∧
    ((4 : Nat) ≠ 4 ∨ 0x30000 % 4 ≠ 0 ∨ 0x30000 < 0 ∨ 0 + 0x2FFFF < 0x30000) ∧
    ((2 : Nat) ≠ 4 ∨ 0 % 4 ≠ 0 ∨ 0 < 0 ∨ 0 + 0x2FFFF < 0) := by decide

theorem witness_ReadHasNoSideEffect :
    ∃ t, hostStep { State.reset with inputs := [.read 0x10 4] } = .next t := ⟨_, rfl⟩

/-- Legal parameters: the defaults, the smallest and the largest buffers. -/
theorem witness_legal : Params.standard.legal = true ∧ (Params.mk 0x40000 2 2 .supplied).legal = true ∧
    (Params.mk 0x80000 16 16 .exact).legal = true := by decide

/-- BusyBlockProtectsItsState: the first and last words of the regions. -/
theorem witness_BusyBlockProtectsItsState : (latched 0#32).busy = true ∧
    ∀ off ∈ [0x20, 0x4C, 0x18, 0x1000, 0x13FC, 0x2000, 0x2440, 0x5C40, 0x6000, 0x65FC, 0x6800, 0x6DFC, 0x7000, 0x7BFC, 0x10000,
      0x17FFC, 0x20000, 0x27FFC], off % 4 = 0 ∧ off < 0x30000 ∧ ¬reservedOffset Params.standard off := by
  unfold reservedOffset; decide

theorem witness_HostMemoryWriteReadsBack : State.reset.busy = false ∧ 4 * 8191 < State.reset.params.ibufBytes ∧
    4 * 8191 < State.reset.params.obufBytes := by decide

/-- ReservedOffsetsReadZero: the edges of the reserved ranges. -/
theorem witness_ReservedOffsetsReadZero : ∀ off ∈ [0x1C, 0x2C, 0x3C, 0x50, 0xFFC, 0x1400, 0x1FFC, 0x2444, 0x27FC, 0x5FFC, 0x6600,
    0x67FC, 0x6E00, 0x6FFC, 0x7C00, 0xFFFC, 0x18000, 0x1FFFC, 0x28000, 0x2FFFC], reservedOffset Params.standard off := by
  unfold reservedOffset; decide

theorem witness_CommandIssue : ((latched 0#32).busy = true ∨ (latched 0#32).status.err = true) ∧
    State.reset.busy = false ∧ State.reset.status.err = false := by decide

theorem witness_CtrlWriteAndSoftReset : (6#32 : Word).getLsbD 0 = false ∧ (5#32 : Word).getLsbD 0 = true := by decide

/-- ErrcodeKeepsItsValue: an error on the engine's turn; on the host's, a soft reset, and the platform's reset while BUSY. -/
theorem witness_ErrcodeKeepsItsValue :
    (∃ t, step (latched 0x03#32) = .next t ∧ t.errcode ≠ (latched 0x03#32).errcode) ∧
    (∃ t, step { State.reset with errcode := 1#32, inputs := [.write 0x08 4 1#32] } = .next t ∧ t.errcode ≠ 1#32) ∧
    ∃ t, step { latched 0#32 with errcode := 1#32, inputs := [.powerOnReset], schedule := [.host] } = .next t ∧
      t.errcode ≠ 1#32 :=
  ⟨⟨_, rfl, by decide⟩, ⟨_, rfl, by decide⟩, _, rfl, by decide⟩

theorem witness_OnlyHtBuildValidates :
    ∃ t, step ((withMem (tinyTable 4)).withFetchWord 32 0x101) = .next t ∧
      ((withMem (tinyTable 4)).withFetchWord 32 0x101).htValid.getLsbD 4 = false ∧ t.htValid.getLsbD 4 = true :=
  ⟨_, rfl, by decide, by decide +kernel⟩

theorem witness_PowerOnResetClearsRegisters :
    ({ State.reset with inputs := [.powerOnReset] } : State).inputs = .powerOnReset :: [] := rfl

theorem witness_StepKeepsInvariant : State.reset.Inv ∧ ∃ t, step State.reset = .next t :=
  ⟨⟨by decide, by decide, by decide, fun h _ e => by simp [State.reset, htBit] at e, by decide, by decide⟩, _, rfl⟩

theorem witness_QualityIsMonotone : 1 ≤ 1 ∧ 49 < 50 ∧ 50 ≤ 100 ∧ 1 < 100 := by decide

end Sys2Proof.Tests
end

section
/-! Statements about the state (10_state.md): the invariant every step keeps, what commands leave alone, which steps change
ERRCODE and HT_VALID, the IRQ line, and what idle host accesses store and read. -/

namespace Sys2Proof.Proofs

open Sys2Proof.Machine Sys2Proof.Claims

/-! ## The parts of the invariant -/

/-- An idle block has quiet flags, whatever they are. -/
theorem flagsQuiet_of_idle {s : State} (h : s.latch = none) : s.flagsQuiet = true := by
  simp [State.flagsQuiet, State.busy, h]

/-- Tables stay coherent when no bit of HT_VALID is set and no table still called built changes. -/
theorem tablesCoherent_of_kept {s t : State} (hs : s.tablesCoherent)
    (hv : ∀ h, htBit t.htValid h = true → htBit s.htValid h = true)
    (hm : ∀ h < 8, htBit t.htValid h = true →
      ∀ a, 0x2000 + 0x800 * h ≤ a → a < 0x2000 + 0x800 * h + 1096 → t.mem.read a = s.mem.read a) :
    t.tablesCoherent :=
  fun h h8 hb => (checkTable_congr (hm h h8 hb)).trans (hs h h8 (hv h hb))

/-- The invariant does not speak of the pending inputs. -/
theorem inv_inputs {s : State} (hs : s.Inv) (i : List Input) : State.Inv { s with inputs := i } :=
  ⟨hs.legal, hs.memory, hs.cursors, hs.tables, hs.flags, hs.errcode⟩

/-- Nor does it speak of whose turn it is. -/
theorem takeTurn_inv {s : State} (hs : s.Inv) : (takeTurn s).Inv :=
  ⟨hs.legal, hs.memory, hs.cursors, hs.tables, hs.flags, hs.errcode⟩

/-! ## The engine keeps the invariant -/

/-- After an ok body every table called built passes its checks: HT_BUILD has just made them, and no command writes a table
(41_control_commands.md R172). -/
theorem body_tablesCoherent {i : Instr} {s t : State} (hb : body i s = .ok t) (hs : s.tablesCoherent) :
    t.tablesCoherent := by
  rcases body_htValid hb with hv | ⟨cls, id, rfl⟩
  · obtain ⟨-, l, hm, hl⟩ := body_ok_frame hb
    refine tablesCoherent_of_kept hs (fun h hh => hv ▸ hh) fun h h8 _ a ha ha' => ?_
    rw [hm]
    exact Memory.read_writeAll_other _ _ _ fun c hc e => by have := hl c hc; omega
  · obtain ⟨hc, rfl⟩ := htBuildBody_ok hb
    intro h h8 hh
    by_cases e : h = htIndex cls id
    · exact e ▸ hc
    · exact hs h h8 (by simpa [htBit, getLsbD_setHtBit, e] using hh)

/-- A command that does not end ok keeps the invariant: only flags of an idle block and ERRCODE move (60_exceptions.md R352). -/
theorem complete_raise_inv {op : Byte} {s : State} (hs : s.Inv) (r : Raise) : (complete op s (.error r)).Inv := by
  rcases r with ⟨e, d⟩ | _ | _
  · exact ⟨hs.legal, hs.memory, hs.cursors, hs.tables, flagsQuiet_of_idle rfl, beq_iff_eq.mpr (errWord_reserved op e d)⟩
  · exact ⟨hs.legal, hs.memory, hs.cursors, hs.tables, flagsQuiet_of_idle rfl, hs.errcode⟩
  · exact ⟨hs.legal, hs.memory, hs.cursors, hs.tables, flagsQuiet_of_idle rfl, hs.errcode⟩

/-- Every command keeps the invariant. -/
theorem complete_body_inv {op : Byte} {i : Instr} {s : State} (hs : s.Inv) : (complete op s (body i s)).Inv := by
  cases hb : body i s with
  | error r => exact complete_raise_inv hs r
  | ok t =>
    obtain ⟨ht, l, hm, -⟩ := body_ok_frame hb
    have hp : t.params = s.params := by rw [ht]
    have he : t.errcode = s.errcode := by rw [ht]
    have hcur : t.cursorsInside = true := body_cursorsInside hb hs.cursors
    have htab : t.tablesCoherent := body_tablesCoherent hb hs.tables
    exact {
      legal := by simpa [hp] using hs.legal
      memory := by simpa [hm] using Memory.wf_writeAll _ l hs.memory
      cursors := hcur
      tables := htab
      flags := flagsQuiet_of_idle rfl
      errcode := by simpa [State.errcodeReserved, he] using hs.errcode }

/-! ## The host keeps the invariant -/

/-- A reset keeps the invariant: it clears every register the invariant speaks of (70_reset_and_hazards.md R390, R391). -/
theorem inv_of_cleared {s t : State} (hs : s.Inv) (ht : ∃ c m, t = { clearRegisters s with ctrl := c, mem := m } ∧ m.wf = true) :
    t.Inv := by
  obtain ⟨c, m, rfl, hm⟩ := ht
  exact {
    legal := hs.legal
    memory := hm
    cursors := by simp [State.cursorsInside]
    tables := fun h _ hh => by simp [htBit] at hh
    flags := flagsQuiet_of_idle rfl
    errcode := by simp [State.errcodeReserved] }

theorem writeCtrl_inv {s : State} (hs : s.Inv) (v : Word) : (writeCtrl s v).Inv := by
  unfold writeCtrl
  split
  · exact inv_of_cleared hs ⟨_, s.mem, rfl, hs.memory⟩
  · exact ⟨hs.legal, hs.memory, hs.cursors, hs.tables, hs.flags, hs.errcode⟩

/-- A command is accepted only with ERR = 0, and the other completion flags are then cleared (40_host_access.md R146). -/
theorem offerCommand_inv {s : State} (hs : s.Inv) (cw : Word) : (offerCommand s cw).Inv := by
  unfold offerCommand
  split
  · exact ⟨hs.legal, hs.memory, hs.cursors, hs.tables, hs.flags, hs.errcode⟩
  · rename_i hc
    have he : s.status.err = false := by simp at hc; exact hc.2
    exact ⟨hs.legal, hs.memory, hs.cursors, hs.tables, by simp [State.flagsQuiet, Status.onAccept, he], hs.errcode⟩

/-- Clearing flags keeps them quiet. -/
theorem writeOneToClear_inv {s : State} (hs : s.Inv) (v : Word) :
    State.Inv { s with status := s.status.writeOneToClear v } := by
  refine ⟨hs.legal, hs.memory, hs.cursors, hs.tables, ?_, hs.errcode⟩
  have hq := hs.flags
  simp only [State.flagsQuiet, Status.writeOneToClear, Bool.or_eq_true, Bool.and_eq_true, Bool.not_eq_true'] at hq ⊢
  exact hq.imp_right fun ⟨⟨⟨h1, h2⟩, h3⟩, h4⟩ => by simp [h1, h2, h3, h4]

/-- A word stored in the region of Huffman table `h` clears HT_VALID bit `h` (10_state.md R51); a reserved word stores nothing. -/
theorem storeAt_in_table (s : State) {off : Nat} (v : Word) {h : Nat} (h8 : h < 8) (hlo : 0x2000 + 0x800 * h ≤ off)
    (hhi : off < 0x2000 + 0x800 * h + 0x800) :
    htBit (storeAt s off v (locate s.params off)).htValid h = false ∨ storeAt s off v (locate s.params off) = s := by
  have hq : (off - 0x2000) / 0x800 = h := by omega
  rw [locate_ht _ (by omega) (by omega), locateHt, hq]
  split_ifs
  · exact .inl (by simp [storeAt, htBit, getLsbD_clearHtBit])
  · exact .inl (by simp [storeAt, htBit, getLsbD_clearHtBit])
  · exact .inr rfl

/-- An idle store keeps every table still called built as it was (10_state.md R51, R61). -/
theorem storeAt_tablesCoherent {s : State} {off : Nat} (hs : s.tablesCoherent) (v : Word) (h4 : off % 4 = 0) :
    (storeAt s off v (locate s.params off)).tablesCoherent := by
  refine tablesCoherent_of_kept hs (fun h => storeAt_htValid s off v _ h) fun h h8 hb a ha ha' => ?_
  by_cases hin : 0x2000 + 0x800 * h ≤ off ∧ off < 0x2000 + 0x800 * h + 0x800
  · rcases storeAt_in_table s v h8 hin.1 hin.2 with hc | hc
    · rw [hc] at hb; cases hb
    · rw [hc]
  · obtain ⟨L, hm, hL⟩ := storeAt_stores s off v (locate s.params off)
    rw [hm]
    exact Memory.read_writeAll_other _ _ _ fun c hc e => by have := hL c hc; omega

/-- Positions and lengths are clamped to their buffers (10_state.md R40, R42, R43). -/
theorem storeAt_cursorsInside {s : State} (hs : s.cursorsInside = true) (off : Nat) (v : Word) (l : Loc) :
    (storeAt s off v l).cursorsInside = true := by
  simp only [State.cursorsInside, Bool.and_eq_true, decide_eq_true_eq] at hs ⊢
  obtain ⟨⟨hp, hl⟩, hw⟩ := hs
  cases l
  case rdPos => exact ⟨⟨clampPos_le, hl⟩, hw⟩
  case rdLen => exact ⟨⟨hp, clampPos_le⟩, hw⟩
  case wrPos => exact ⟨⟨hp, hl⟩, clampPos_le⟩
  all_goals exact ⟨⟨hp, hl⟩, hw⟩

theorem storeAt_inv {s : State} (hs : s.Inv) {off : Nat} (v : Word) (h4 : off % 4 = 0) :
    (storeAt s off v (locate s.params off)).Inv where
  legal := by rw [storeAt_frame]; exact hs.legal
  memory := storeAt_mem_wf s off v _ hs.memory
  cursors := storeAt_cursorsInside hs.cursors off v _
  tables := storeAt_tablesCoherent hs.tables v h4
  flags := by rw [storeAt_frame]; exact hs.flags
  errcode := by rw [storeAt_frame]; exact hs.errcode

theorem hostRead_inv {s : State} (hs : s.Inv) (off : Nat) : (hostRead s off).Inv := by
  obtain ⟨v, n, h⟩ := hostRead_frame s off
  rw [h]
  exact ⟨hs.legal, hs.memory, hs.cursors, hs.tables, hs.flags, hs.errcode⟩

theorem hostWrite_inv {s : State} (hs : s.Inv) {off : Nat} (v : Word) (h4 : off % 4 = 0) : (hostWrite s off v).Inv := by
  rcases hostWrite_cases s off v with h | ⟨-, h⟩ | h | h | ⟨-, h⟩ | ⟨-, h⟩ <;> rw [h]
  · exact hs
  · exact writeCtrl_inv hs v
  · exact offerCommand_inv hs v
  · exact writeOneToClear_inv hs v
  · exact ⟨hs.legal, hs.memory, hs.cursors, hs.tables, hs.flags, hs.errcode⟩
  · exact storeAt_inv hs v h4

/-- An accepted access is four bytes wide, aligned, and not below the window (20_memory.md R85). -/
theorem accepted_spec {p : Params} {addr bytes : Nat} (ha : accepted p addr bytes = true) :
    bytes = 4 ∧ addr % 4 = 0 ∧ p.base ≤ addr := by
  simp only [accepted, Bool.and_eq_true, beq_iff_eq, decide_eq_true_eq] at ha
  omega

/-- Every host step keeps the invariant. -/
theorem hostStep_inv {s t : State} (hs : s.Inv) (h : hostStep s = .next t) : t.Inv := by
  rcases hostStep_cases h with ⟨-, rfl⟩ | ⟨_, _, rest, -, -, rfl⟩ | ⟨_, _, v, rest, -, ha, rfl⟩ | ⟨rest, -, rfl⟩ |
    ⟨rest, -, rfl⟩
  · exact hs
  · exact hostRead_inv (inv_inputs hs rest) _
  · obtain ⟨-, halign, hbase⟩ := accepted_spec ha
    have hwindow : s.params.base % 4 = 0 := (legal_bounds hs.legal).1
    exact hostWrite_inv (inv_inputs hs rest) v (by omega)
  · split
    · exact hs
    · exact inv_inputs hs rest
  · exact inv_of_cleared (inv_inputs hs rest) ⟨_, _, rfl, wf_empty _⟩

/-- Settles O59: the invariant is kept by every host step and by every way the engine completes a word. -/
theorem stepKeepsInvariant : Obligations.StepKeepsInvariant := by
  intro s t hs h
  have hs' : (takeTurn s).Inv := takeTurn_inv hs
  rcases step_cases h with ⟨-, hh⟩ | ⟨-, -, rfl⟩ | ⟨_, _, -, -, -, rfl⟩ | ⟨_, _, -, -, -, rfl⟩
  · exact hostStep_inv hs' hh
  · exact hs'
  · exact complete_body_inv hs'
  · exact complete_raise_inv hs' _

/-! ## What a command can do -/

/-- How a command ends: its body's state with DONE set, or the state it started from with one flag set, an error writing ERRCODE
too (60_exceptions.md R351, R352, R354, R355). -/
theorem complete_cases (op : Byte) (i : Instr) (s : State) :
    (∃ t, body i s = .ok t ∧ complete op s (body i s) = doneState t) ∨
    (∃ e d, complete op s (body i s) = errorState s op e d) ∨
    complete op s (body i s) = needDataState s ∨ complete op s (body i s) = outFullState s := by
  rcases body i s with (⟨e, d⟩ | _ | _) | t
  · exact .inr (.inl ⟨e.code, d, rfl⟩)
  · exact .inr (.inr (.inl rfl))
  · exact .inr (.inr (.inr rfl))
  · exact .inl ⟨t, rfl, rfl⟩

/-- What a command changes, at most: besides how it ends, HT_VALID, the cursors but RD_LEN, the predictors, and of memory COEF,
SMP, PIX and the output from WR_POS on (70_reset_and_hazards.md R394). -/
theorem exec_frame {i : Instr} {s t : State} (h : exec i s = .next t) :
    t = { s with
      latch := t.latch, errcode := t.errcode,
      status := { t.status with cmdDropped := s.status.cmdDropped, accDropped := s.status.accDropped },
      htValid := t.htValid, rdPos := t.rdPos, rdBit := t.rdBit, wrPos := t.wrPos, wrBit := t.wrBit, wrAcc := t.wrAcc,
      dcPred := t.dcPred, mem := t.mem } ∧
    ∀ a, ¬(0x6000 ≤ a ∧ a < 0x7C00) → a < 0x20000 + s.wrPos.toNat → t.mem.read a = s.mem.read a := by
  rw [exec_eq] at h
  obtain rfl := Host.Outcome.next.inj h
  rcases complete_cases (opOf i).code i s with ⟨t, hb, ht⟩ | ⟨e, d, ht⟩ | ht | ht <;> rw [ht]
  · obtain ⟨hf, l, hm, hl⟩ := body_ok_frame hb
    constructor
    · rw [hf]; rfl
    · intro a h1 h2
      exact hm ▸ Memory.read_writeAll_other _ _ _ fun c hc e => by have := hl c hc; omega
  · exact ⟨rfl, fun _ _ _ => rfl⟩
  · exact ⟨rfl, fun _ _ _ => rfl⟩
  · exact ⟨rfl, fun _ _ _ => rfl⟩

/-- Settles O10: the frame of every command. -/
theorem engineLeavesInputsAlone : Obligations.EngineLeavesInputsAlone := by
  intro i s t h
  obtain ⟨hf, hm⟩ := exec_frame h
  have hmem (a : Nat) (ha : a < 0x6000 ∨ (0x10000 ≤ a ∧ a < 0x20000)) : t.mem.read a = s.mem.read a :=
    hm a (by omega) (by omega)
  rw [hf]
  exact ⟨rfl, rfl, rfl, rfl, rfl, rfl, rfl, rfl, rfl, hmem⟩

/-- Settles O11: OBUF below WR_POS lies outside every command's stores. -/
theorem writtenOutputIsNeverRewritten : Obligations.WrittenOutputIsNeverRewritten := by
  intro i s t h p hp
  exact (exec_frame h).2 (obufAddr p) (by simp only [obufAddr]; omega) (by simp only [obufAddr]; omega)

/-! ## CTRL and the running command -/

/-- The state with CTRL replaced. -/
def withCtrl (c : Ctrl) (s : State) : State := { s with ctrl := c }

section
variable (c : Ctrl) (s : State)

@[simp] theorem withCtrl_mem : (withCtrl c s).mem = s.mem := rfl
@[simp] theorem withCtrl_dcPred : (withCtrl c s).dcPred = s.dcPred := rfl
@[simp] theorem withCtrl_cursor : (withCtrl c s).cursor = s.cursor := rfl
@[simp] theorem withCtrl_pendingBits : (withCtrl c s).pendingBits = s.pendingBits := rfl
@[simp] theorem withCtrl_checkTables (dct act : Nat) : checkTables (withCtrl c s) dct act = checkTables s dct act := rfl

/-- The reader sees the latched FIN, not CTRL.IN_FINAL (10_state.md R60). -/
@[simp] theorem withCtrl_source : (withCtrl c s).source = s.source := rfl

/-- FlushOut does not read CTRL. -/
theorem flushOut_withCtrl (bits : List Bool) : flushOut (withCtrl c s) bits = (flushOut s bits).map (withCtrl c) := by
  unfold flushOut
  rw [apply_ite (Except.map (withCtrl c))]
  rfl

/-- Nor does the alignment of the reader. -/
theorem alignReader_withCtrl : alignReader (withCtrl c s) = withCtrl c (alignReader s) := by
  unfold alignReader
  rw [apply_ite (withCtrl c)]
  rfl

/-- No body reads CTRL. -/
theorem body_withCtrl (i : Instr) : body i (withCtrl c s) = (body i s).map (withCtrl c) := by
  cases i with
  | nop => rfl
  | dcReset => rfl
  | htBuild cls id =>
    simp only [body, htBuildBody, withCtrl_mem]
    cases checkTable s.mem (htIndex cls id) <;> rfl
  | bsAlignRd => exact congrArg Except.ok (alignReader_withCtrl c s)
  | bsFlushWr => exact flushOut_withCtrl c s (paddedBits s)
  | hdec slot comp dct act =>
    simp only [body, hdecBody, withCtrl_mem, withCtrl_dcPred, withCtrl_cursor, withCtrl_source, withCtrl_checkTables]
    cases checkSlot slot with
    | error r => rfl
    | ok _ =>
      cases checkTables s dct act with
      | error r => rfl
      | ok _ =>
        cases decodeBlock (htTable s.mem (dcTableIndex dct)) (htTable s.mem (acTableIndex act)) s.source
          (s.dcPred.get comp) s.cursor <;> rfl
  | henc slot comp dct act =>
    simp only [body, hencBody, withCtrl_mem, withCtrl_dcPred, withCtrl_pendingBits, withCtrl_checkTables,
      flushOut_withCtrl]
    cases checkSlot slot with
    | error r => rfl
    | ok _ =>
      cases checkTables s dct act with
      | error r => rfl
      | ok _ =>
        cases encodeBlock (htTable s.mem (dcTableIndex dct)) (htTable s.mem (acTableIndex act)) (s.dcPred.get comp)
          (s.mem.coefBlock slot) with
        | error r => rfl
        | ok bits => dsimp only; cases flushOut s (s.pendingBits ++ bits) <;> rfl
  | idct slot q =>
    simp only [body, idctBody, withCtrl_mem]
    cases checkSlot slot <;> cases checkQt s.mem q <;> rfl
  | fdct slot q =>
    simp only [body, fdctBody, withCtrl_mem]
    cases checkSlot slot <;> cases checkQt s.mem q <;> rfl
  | cscInv yh yv ch cv =>
    simp only [body, cscInvBody, withCtrl_mem]
    cases checkFactors yh yv ch cv <;> rfl
  | cscFwd yh yv ch cv =>
    simp only [body, cscFwdBody, withCtrl_mem]
    cases checkFactors yh yv ch cv <;> rfl

end

/-- Completion does not read CTRL. -/
theorem complete_withCtrl (op : Byte) (c : Ctrl) (s : State) (r : Except Raise State) :
    complete op (withCtrl c s) (r.map (withCtrl c)) = withCtrl c (complete op s r) := by
  rcases r with (⟨e, d⟩ | _ | _) | t <;> rfl

/-- Settles O12: neither a command's body nor its completion reads CTRL. -/
theorem runningCommandIgnoresCtrl : Obligations.RunningCommandIgnoresCtrl := by
  intro i s c
  refine ⟨_, exec_eq i s, ?_⟩
  have h := exec_eq i (withCtrl c s)
  rwa [body_withCtrl, complete_withCtrl] at h

/-! ## ERRCODE and HT_VALID over every step -/

/-- ERRCODE is as in `s`, and no bit of HT_VALID is set that was not set in `s`. -/
def RegistersKept (s t : State) : Prop :=
  t.errcode = s.errcode ∧ ∀ k, htBit t.htValid k = true → htBit s.htValid k = true

/-- What both resets clear of these registers (70_reset_and_hazards.md R390, R391). -/
def RegistersCleared (t : State) : Prop :=
  t.errcode = 0#32 ∧ t.htValid = 0#8 ∧ t.status = Status.clear ∧ t.latch = none

/-- A host write keeps the registers unless it is the soft reset (40_host_access.md R148). -/
theorem hostWrite_registers (s : State) (off : Nat) (v : Word) :
    RegistersKept s (hostWrite s off v) ∨
      (RegistersCleared (hostWrite s off v) ∧ off = 0x08 ∧ v.getLsbD 0 = true) := by
  rcases hostWrite_cases s off v with e | ⟨hl, e⟩ | e | e | ⟨-, e⟩ | ⟨-, e⟩ <;> rw [e]
  · exact .inl ⟨rfl, fun _ h => h⟩
  · unfold writeCtrl
    split
    · exact .inr ⟨⟨rfl, rfl, rfl, rfl⟩, locate_ctrl hl, ‹_›⟩
    · exact .inl ⟨rfl, fun _ h => h⟩
  · rw [offerCommand_frame]; exact .inl ⟨rfl, fun _ h => h⟩
  · exact .inl ⟨rfl, fun _ h => h⟩
  · exact .inl ⟨rfl, fun _ h => h⟩
  · exact .inl ⟨by rw [storeAt_frame], fun k => storeAt_htValid _ _ _ _ k⟩

/-- A host step keeps the registers unless it resets the block. -/
theorem hostStep_registers {s t : State} (h : hostStep s = .next t) :
    RegistersKept s t ∨ (RegistersCleared t ∧
      ((∃ rest, s.inputs = .powerOnReset :: rest) ∨
       ∃ v rest, s.inputs = .write (s.params.base + 0x08) 4 v :: rest ∧ v.getLsbD 0 = true)) := by
  rcases hostStep_cases h with ⟨-, rfl⟩ | ⟨addr, _, rest, -, -, rfl⟩ | ⟨addr, bytes, v, rest, hi, ha, rfl⟩ |
    ⟨rest, -, rfl⟩ | ⟨rest, hi, rfl⟩
  · exact .inl ⟨rfl, fun _ h => h⟩
  · obtain ⟨v, n, e⟩ := hostRead_frame { s with inputs := rest } (addr - s.params.base)
    rw [e]
    exact .inl ⟨rfl, fun _ h => h⟩
  · refine (hostWrite_registers { s with inputs := rest } (addr - s.params.base) v).imp_right fun ⟨hc, hoff, hv⟩ => ?_
    obtain ⟨rfl, -, hbase⟩ := accepted_spec ha
    have haddr : addr = s.params.base + 0x08 := by omega
    exact ⟨hc, .inr ⟨v, rest, haddr ▸ hi, hv⟩⟩
  · split <;> exact .inl ⟨rfl, fun _ h => h⟩
  · exact .inr ⟨⟨rfl, rfl, rfl, rfl⟩, .inl ⟨rest, hi⟩⟩

/-- Settles O53: an ok body keeps ERRCODE, an error writes it and nothing else, and of the host's steps only a reset touches
it. -/
theorem errcodeKeepsItsValue : Obligations.ErrcodeKeepsItsValue := by
  intro s t h hne
  rcases step_cases h with ⟨ht, hh⟩ | ⟨-, -, rfl⟩ | ⟨l, i, ht, hl, -, rfl⟩ | ⟨l, r, ht, hl, -, rfl⟩
  · rcases hostStep_registers hh with ⟨he, -⟩ | ⟨⟨he, -, hst, hla⟩, hwhy⟩
    · exact absurd he hne
    · exact .inr ⟨ht, he, hst, by rw [State.busy, hla]; rfl, hwhy⟩
  · exact absurd rfl hne
  · rcases complete_cases (opOf i).code i (takeTurn s) with ⟨t, hb, e⟩ | ⟨c, d, e⟩ | e | e
    · obtain ⟨hf, -⟩ := body_ok_frame hb
      exact absurd (by rw [e, hf]; rfl) hne
    · exact .inl ⟨ht, by rw [State.busy, hl]; rfl, by rw [e]; rfl, _, c, d, e⟩
    · exact absurd (by rw [e]; rfl) hne
    · exact absurd (by rw [e]; rfl) hne
  · exact .inl ⟨ht, by rw [State.busy, hl]; rfl, rfl, opField l.cw, ErrorCode.illegalCommand.code, rejectDetail r, rfl⟩

/-- The index of a Huffman table is 4·CLASS + ID (10_state.md R51). -/
theorem htIndex_eq (cls : HtClass) (id : Nat) : htIndex cls id = 4 * (if cls = .ac then 1 else 0) + id := by
  cases cls <;> rfl

/-- An ok body that sets HT_VALID bit `h` is HT_BUILD's of table `h`, whose checks passed (41_control_commands.md R172). -/
theorem body_sets_htBit {i : Instr} {s t : State} {h : Nat} (hb : body i s = .ok t) (h0 : htBit s.htValid h = false)
    (h1 : htBit t.htValid h = true) : ∃ cls id, i = .htBuild cls id ∧ h = htIndex cls id ∧ checkTable s.mem h = .ok () := by
  rcases body_htValid hb with hv | ⟨cls, id, rfl⟩
  · rw [hv, h0] at h1; cases h1
  · obtain ⟨hc, rfl⟩ := htBuildBody_ok hb
    have he : h = htIndex cls id := by
      simp only [htBit, getLsbD_setHtBit, Bool.or_eq_true, decide_eq_true_eq] at h0 h1
      exact (h1.resolve_left (by simp [h0])).1
    exact ⟨cls, id, rfl, he, he ▸ hc⟩

/-- Settles O54: the host only clears bits of HT_VALID, a command that raises keeps it, and an ok body that sets a bit is
HT_BUILD. -/
theorem onlyHtBuildValidates : Obligations.OnlyHtBuildValidates := by
  intro s t h hst h0 h1
  have hkept {u : State} (e : t = u) (hu : u.htValid = s.htValid) : False := by
    rw [e, hu, h0] at h1; cases h1
  rcases step_cases hst with ⟨-, hh⟩ | ⟨-, -, e⟩ | ⟨l, i, ht, hl, hd, rfl⟩ | ⟨l, r, -, -, -, e⟩
  · rcases hostStep_registers hh with ⟨-, hk⟩ | ⟨⟨-, hz, -⟩, -⟩
    · exact absurd (hk h h1) (by simpa [htBit] using h0)
    · simp [hz] at h1
  · exact (hkept e rfl).elim
  · rcases complete_cases (opOf i).code i (takeTurn s) with ⟨u, hb, e⟩ | ⟨c, d, e⟩ | e | e
    · rw [e] at h1
      obtain ⟨cls, id, rfl, hi, hc⟩ := body_sets_htBit hb h0 h1
      exact ⟨ht, l, cls, id, hl, hd, hi.trans (htIndex_eq cls id), hc⟩
    · exact (hkept e rfl).elim
    · exact (hkept e rfl).elim
    · exact (hkept e rfl).elim
  · exact (hkept e rfl).elim

/-! ## The IRQ line -/

/-- Settles O55: bits 1 to 4 of STATUS are DONE, ERR, NEED_DATA and OUT_FULL. -/
theorem irqIsEnabledCompletionFlag : Obligations.IrqIsEnabledCompletionFlag := by
  intro s
  constructor
  · have hbits : (∃ k, 1 ≤ k ∧ k ≤ 4 ∧ (statusWord s.busy s.status).getLsbD k = true) ↔
        s.status.done = true ∨ s.status.err = true ∨ s.status.needData = true ∨ s.status.outFull = true := by
      simp only [statusWord_getLsbD]
      constructor
      · rintro ⟨k, h1, h4, hk⟩
        interval_cases k <;> simp_all
      · rintro (h | h | h | h)
        exacts [⟨1, by decide, by decide, h⟩, ⟨2, by decide, by decide, h⟩, ⟨3, by decide, by decide, h⟩,
          ⟨4, by decide, by decide, h⟩]
    rw [hbits]
    simp only [State.irq, Bool.and_eq_true, Bool.or_eq_true, or_assoc]
  · intro f hd he hn ho
    simp only [State.irq, hd, he, hn, ho]

/-! ## Idle host accesses -/

/-- Storing a word does not look at the pending inputs. -/
theorem storeAt_inputs (s : State) (i : List Input) (off : Nat) (v : Word) (l : Loc) :
    storeAt { s with inputs := i } off v l = { storeAt s off v l with inputs := i } := by
  cases l <;> rfl

/-- Nor does reading one. -/
theorem wordAt_inputs (s : State) (i : List Input) (off : Nat) (l : Loc) :
    wordAt { s with inputs := i } off l = wordAt s off l := by
  cases l <;> rfl

/-- An idle host read returns the word at its offset. -/
theorem returns_of_wordAt {s : State} (hb : s.busy = false) (hl : s.params.legal = true) {off : Nat} {l : Loc} {w : Word}
    (hloc : locate s.params off = l) (h4 : off % 4 = 0) (hend : off ≤ 0x2FFFF) (hw : wordAt s off l = w) :
    Returns s off w := by
  have h := hostStep_load hb hl h4 hend
  rwa [wordAt_inputs, hloc, hw] at h

/-- An idle host write to protected state stores its datum at its offset. -/
theorem hostStep_of_storeAt {s t : State} (hb : s.busy = false) (hl : s.params.legal = true) {v : Word} {off : Nat} {l : Loc}
    (hloc : locate s.params off = l) (h4 : off % 4 = 0) (hend : off ≤ 0x2FFFF) (hp : l.protectedRead = true)
    (hn : l ≠ .htValid) (ht : storeAt s off v l = t) :
    hostStep { s with inputs := [wr s.params off v] } = .next { t with inputs := [] } := by
  subst hloc
  rw [hostStep_store hb hl v h4 hend hp hn, storeAt_inputs, ht]

/-! ## The cursor and predictor registers -/

/-- The low bits of a word, as a number modulo a power of two. -/
theorem extractLsb'_zero_eq (v : Word) (n : Nat) : v.extractLsb' 0 n = BitVec.ofNat n (v.toNat % 2 ^ n) := by
  apply BitVec.eq_of_toNat_eq
  simp

theorem clampPos_eq (v : Word) (cap : Nat) : clampPos v cap = BitVec.ofNat 17 (min (v.toNat % 2 ^ 17) cap) := by
  rw [clampPos, BitVec.extractLsb'_toNat, Nat.shiftRight_zero]

/-- The register of predictor `c` is at 0x40 + 4·c (10_state.md R46). -/
theorem locate_dcPred (p : Params) {c : Nat} (hc : c < 4) : locate p (0x40 + 4 * c) = .dcPred c := by
  rw [locate_register p (by omega)]
  interval_cases c <;> rfl

/-- Settles O47: each register is stored by `storeAt` and read by `wordAt`. -/
theorem cursorRegistersStoreAsStated : Obligations.CursorRegistersStoreAsStated := by
  intro s v hb hl
  exact ⟨
    hostStep_of_storeAt hb hl (l := .rdPos) rfl rfl (by decide) rfl nofun (by rw [storeAt, clampPos_eq]),
    hostStep_of_storeAt hb hl (l := .rdBit) rfl rfl (by decide) rfl nofun (by rw [storeAt, extractLsb'_zero_eq]),
    hostStep_of_storeAt hb hl (l := .rdLen) rfl rfl (by decide) rfl nofun (by rw [storeAt, clampPos_eq]),
    hostStep_of_storeAt hb hl (l := .wrPos) rfl rfl (by decide) rfl nofun (by rw [storeAt, clampPos_eq]),
    hostStep_of_storeAt hb hl (l := .wrBit) rfl rfl (by decide) rfl nofun (by rw [storeAt, extractLsb'_zero_eq]),
    hostStep_of_storeAt hb hl (l := .wrAcc) rfl rfl (by decide) rfl nofun (by rw [storeAt, extractLsb'_zero_eq]),
    fun c hc => hostStep_of_storeAt hb hl (locate_dcPred _ hc) (by omega) (by omega) rfl nofun
      (by rw [storeAt, extractLsb'_zero_eq]),
    returns_of_wordAt hb hl (l := .htValid) rfl rfl (by decide) (BitVec.ofNat_toNat _ _).symm,
    returns_of_wordAt hb hl (l := .rdPos) rfl rfl (by decide) (BitVec.ofNat_toNat _ _).symm,
    returns_of_wordAt hb hl (l := .rdBit) rfl rfl (by decide) (BitVec.ofNat_toNat _ _).symm,
    returns_of_wordAt hb hl (l := .rdLen) rfl rfl (by decide) (BitVec.ofNat_toNat _ _).symm,
    returns_of_wordAt hb hl (l := .wrPos) rfl rfl (by decide) (BitVec.ofNat_toNat _ _).symm,
    returns_of_wordAt hb hl (l := .wrBit) rfl rfl (by decide) (BitVec.ofNat_toNat _ _).symm,
    returns_of_wordAt hb hl (l := .wrAcc) rfl rfl (by decide) (BitVec.ofNat_toNat _ _).symm,
    fun c hc => returns_of_wordAt hb hl (locate_dcPred _ hc) (by omega) (by omega) rfl⟩

/-! ## The memory words -/

/-- An idle access to a memory word, said once for every memory: if storing `v` makes the listed stores, all within `n` bytes, and
the word read is `f` of the memory, then a write stores and reads back, and a read returns what the memory holds. -/
theorem storesAndReads_and_returns {s : State} (hb : s.busy = false) (hl : s.params.legal = true) {v : Word} {off n : Nat}
    {l : Loc} {valid : BitVec 8} {stores : List Host.Cell} {holds : Memory → Prop} {f : Memory → Word} {new : Word}
    (hloc : locate s.params off = l) (h4 : off % 4 = 0) (hend : off ≤ 0x2FFFF) (hp : l.protectedRead = true)
    (hn : l ≠ .htValid)
    (hst : storeAt s off v l = { s with mem := s.mem.writeAll stores, htValid := valid })
    (hin : ∀ c ∈ stores, off ≤ c.1 ∧ c.1 < off + n) (hw : ∀ t : State, wordAt t off l = f t.mem)
    (hh : holds (s.mem.writeAll stores)) (hf : f (s.mem.writeAll stores) = new) :
    StoresAndReads s off v n valid holds new ∧ Returns s off (f s.mem) := by
  constructor
  · refine ⟨s.mem.writeAll stores, hostStep_of_storeAt hb hl hloc h4 hend hp hn hst, hh, fun a ha => ?_, ?_⟩
    · exact Memory.read_writeAll_other _ _ _ fun c hc e => ha (e ▸ hin c hc)
    · exact returns_of_wordAt (s := { s with mem := s.mem.writeAll stores, htValid := valid }) hb hl hloc h4 hend
        ((hw _).trans hf)
  · exact returns_of_wordAt hb hl hloc h4 hend (hw s)

theorem locate_htByte (p : Params) {h o : Nat} (hh : h < 8) (ho : o < 272) :
    locate p (0x2000 + 0x800 * h + 4 * o) = .htByte h := by
  rw [locate_ht p (by omega) (by omega), locateHt, if_pos (by omega)]
  congr 1; omega

theorem locate_htNsym (p : Params) {h : Nat} (hh : h < 8) : locate p (0x2000 + 0x800 * h + 4 * 272) = .htNsym h := by
  rw [locate_ht p (by omega) (by omega), locateHt, if_neg (by omega), if_pos (by omega)]
  congr 1; omega

section
variable {s : State} (hb : s.busy = false) (hl : s.params.legal = true) (v : Word) {off : Nat} {l : Loc}
  (hloc : locate s.params off = l) (h4 : off % 4 = 0) (hend : off ≤ 0x2FFFF) (hp : l.protectedRead = true)
  (hn : l ≠ .htValid)
include hb hl hloc h4 hend hp hn

/-- A word that holds an 8-bit element. -/
theorem byte_storesAndReads {valid : BitVec 8}
    (hst : storeAt s off v l = { s with mem := s.mem.write off (v.extractLsb' 0 8), htValid := valid })
    (hw : ∀ t : State, wordAt t off l = (t.mem.read off).setWidth 32) :
    StoresAndReads s off v 1 valid (fun m => m.read off = v.extractLsb' 0 8) ((v.extractLsb' 0 8).setWidth 32) ∧
      Returns s off ((s.mem.read off).setWidth 32) :=
  storesAndReads_and_returns hb hl (stores := [(off, v.extractLsb' 0 8)]) (f := fun m => (m.read off).setWidth 32)
    hloc h4 hend hp hn hst (by simp) hw (by simp) (by simp)

/-- A word that holds a 16-bit element, read through the extension `ext`. -/
theorem half_storesAndReads (ext : Half → Word)
    (hst : storeAt s off v l = { s with mem := s.mem.writeAll (stores16 off (v.extractLsb' 0 16)) })
    (hw : ∀ t : State, wordAt t off l = ext (t.mem.read16 off)) :
    StoresAndReads s off v 2 s.htValid (fun m => m.read16 off = v.extractLsb' 0 16) (ext (v.extractLsb' 0 16)) ∧
      Returns s off (ext (s.mem.read16 off)) :=
  storesAndReads_and_returns hb hl (f := fun m => ext (m.read16 off)) hloc h4 hend hp hn hst (by simp [stores16]) hw
    (read16_stores16 _ _ _) (congrArg ext (read16_stores16 _ _ _))

/-- A word of packed bytes. -/
theorem word_storesAndReads (hst : storeAt s off v l = { s with mem := s.mem.writeAll (stores32 off v) })
    (hw : ∀ t : State, wordAt t off l = t.mem.read32 off) :
    StoresAndReads s off v 4 s.htValid (fun m => ∀ j < 4, m.read (off + j) = v.extractLsb' (8 * j) 8) v ∧
      Returns s off (s.mem.read32 off) :=
  storesAndReads_and_returns hb hl (f := fun m => m.read32 off) hloc h4 hend hp hn hst (by simp [stores32]) hw
    (fun j hj => read_stores32 _ _ _ j hj) (read32_stores32 _ _ _)

end

/-- Settles O46: each memory's words are found by `locate`, and an element stored at a word's offset is the one the engine
reads. -/
theorem hostMemoryWriteReadsBack : Obligations.HostMemoryWriteReadsBack := by
  intro s v hb hl
  dsimp only
  obtain ⟨-, hib, hob, hi4, ho4⟩ := legal_bounds hl
  refine ⟨fun t ht k hk => ?_, fun h hh i hi => ?_, fun h hh j hj => ?_, fun h hh => ?_, fun n hn k hk => ?_,
    fun n hn i hi => ?_, fun i hi => ?_, fun p hp => ?_, fun p hp => ?_⟩
  · exact half_storesAndReads hb hl v (locate_qt _ (by omega) (by omega)) (by omega) (by omega) rfl nofun
      (·.setWidth 32) rfl fun _ => rfl
  · exact byte_storesAndReads hb hl v (locate_htByte _ hh (by omega)) (by omega) (by omega) rfl nofun rfl fun _ => rfl
  · exact byte_storesAndReads hb hl v (locate_htByte _ hh (by omega)) (by omega) (by omega) rfl nofun rfl fun _ => rfl
  · exact storesAndReads_and_returns hb hl (f := fun m => (m.htNsym h).setWidth 32) (locate_htNsym _ hh) (by omega)
      (by omega) rfl nofun rfl (by simp [stores9]) (fun _ => rfl) (read9_stores9 _ _ _)
      (congrArg (·.setWidth 32) (read9_stores9 _ _ _))
  · exact half_storesAndReads hb hl v (locate_coef _ (by omega) (by omega)) (by omega) (by omega) rfl nofun
      (·.signExtend 32) rfl fun _ => rfl
  · exact byte_storesAndReads hb hl v (locate_smp _ (by omega) (by omega)) (by omega) (by omega) rfl nofun rfl fun _ => rfl
  · exact byte_storesAndReads hb hl v (locate_pix _ (by omega) (by omega)) (by omega) (by omega) rfl nofun rfl fun _ => rfl
  · have h := word_storesAndReads hb hl v (locate_ibuf _ (off := 0x10000 + 4 * p) (by omega) (by omega)) (by omega)
      (by omega) rfl nofun rfl fun _ => rfl
    simpa only [Memory.read32, Memory.ibuf, ibufAddr, Nat.add_assoc] using h
  · have h := word_storesAndReads hb hl v (locate_obuf _ hib (off := 0x20000 + 4 * p) (by omega) (by omega)) (by omega)
      (by omega) rfl nofun rfl fun _ => rfl
    simpa only [Memory.read32, Memory.obuf, obufAddr, Nat.add_assoc] using h

end Sys2Proof.Proofs
end

section
/-! PROOFS. The register window (20_memory.md): reads are without side effect, reserved offsets read 0 and ignore writes. -/

namespace Sys2Proof.Proofs

open Sys2Proof.Machine Sys2Proof.Claims

/-- Settles O43: of the things a host step can do, a pending read allows only `hostRead`, which moves the datum returned and the
count of draws. -/
theorem readHasNoSideEffect : Obligations.ReadHasNoSideEffect := by
  intro s t addr bytes rest hi h
  rcases hostStep_cases h with ⟨hi', -⟩ | ⟨_, _, _, hi', -, rfl⟩ | ⟨_, _, _, _, hi', -⟩ | ⟨_, hi', -⟩ | ⟨_, hi', -⟩ <;>
    rw [hi] at hi' <;> cases hi'
  exact hostRead_frame { s with inputs := rest } _

/-- The map of 20_memory.md R83 gives every reserved offset no register and no memory word. -/
theorem locate_reservedOffset {p : Params} (hl : p.legal = true) {off : Nat} (h : reservedOffset p off) :
    locate p off = .reserved := by
  obtain ⟨-, hib, -, -, -⟩ := legal_bounds hl
  obtain ⟨-, rfl | rfl | rfl | ⟨h, h'⟩ | ⟨h, h'⟩ | ⟨h, h', hw⟩ | ⟨h, h'⟩ | ⟨h, h'⟩ | ⟨h, h'⟩ | ⟨h, h'⟩ | ⟨h, -⟩⟩ := h
  · rfl
  · rfl
  · rfl
  · rw [locate_register p h', locateRegister_high h]
  · exact locate_gap1 p h h'
  · rw [locate_ht p h h', locateHt, if_neg (by omega), if_neg (by omega)]
  · exact locate_gap2 p h h'
  · exact locate_gap3 p h h'
  · exact locate_gap4 p h h'
  · exact locate_gap5 p h h'
  · exact locate_gap6 p hib h

/-- A reserved offset is the aligned offset of a word inside the window. -/
theorem reservedOffset_bounds {p : Params} {off : Nat} (h : reservedOffset p off) :
    off % 4 = 0 ∧ off ≤ 0x2FFFF := by
  obtain ⟨h4, h⟩ := h
  omega

/-- Settles O48: a reserved offset is located nowhere, and accesses there look at neither BUSY nor the state. -/
theorem reservedOffsetsReadZero : Obligations.ReservedOffsetsReadZero := by
  intro s off v hl h
  obtain ⟨h4, hend⟩ := reservedOffset_bounds h
  have hloc : locate s.params off = .reserved := locate_reservedOffset hl h
  constructor
  · rw [Returns, hostStep_rd s h4 hend hl, hostRead_reserved { s with inputs := [] } off hloc]
  · rw [hostStep_wr s v h4 hend hl, hostWrite_reserved { s with inputs := [] } off v hloc]

end Sys2Proof.Proofs
end

section
/-! PROOFS. The encoding (30_encoding.md): decoding and encoding are inverse to each other, illegal words and bad slots raise
their errors. -/

namespace Sys2Proof.Proofs

open Sys2Proof.Machine Sys2Proof.Claims

/-! ## Fields of a word put together from placed operands -/

theorem testBit_field (w : Word) (lo width k : Nat) :
    (field w lo width).testBit k = (decide (k < width) && w.getLsbD (lo + k)) := by
  rw [field, BitVec.testBit_toNat, BitVec.getLsbD_extractLsb']

theorem getLsbD_place (v lo k : Nat) :
    (place v lo).getLsbD k = (decide (k < 32) && decide (lo ≤ k) && v.testBit (k - lo)) := by
  simp only [place, BitVec.getLsbD_shiftLeft, BitVec.getLsbD_ofNat]
  by_cases hk : k < 32
  · by_cases hlo : lo ≤ k
    · simp [hk, hlo, show k - lo < 32 by omega]
    · simp [hlo, not_le.mp hlo]
  · simp [hk]

/-- A field is taken out of each part of a word by itself. -/
theorem field_or (a b : Word) (lo width : Nat) : field (a ||| b) lo width = field a lo width ||| field b lo width := by
  rw [field, BitVec.extractLsb'_or, BitVec.toNat_or, field, field]

/-- A field taken out is the operand put in. -/
theorem field_place_same {v lo width : Nat} (hv : v < 2 ^ width) (h : lo + width ≤ 32) :
    field (place v lo) lo width = v := by
  refine Nat.eq_of_testBit_eq fun k => ?_
  rw [testBit_field, getLsbD_place, Nat.add_sub_cancel_left]
  by_cases hk : k < width
  · simp [hk, show lo + k < 32 by omega]
  · simp [hk, Nat.testBit_lt_two_pow (hv.trans_le (Nat.pow_le_pow_right two_pos (not_lt.mp hk)))]

/-- An operand of `n` bits placed from bit `pos` up puts nothing into a field outside these bits. -/
theorem field_place_disjoint {v pos n lo width : Nat} (hv : v < 2 ^ n) (h : lo + width ≤ pos ∨ pos + n ≤ lo) :
    field (place v pos) lo width = 0 := by
  refine Nat.eq_of_testBit_eq fun k => ?_
  rw [testBit_field, getLsbD_place, Nat.zero_testBit]
  by_cases hk : k < width ∧ pos ≤ lo + k
  · have hn : n ≤ lo + k - pos := by omega
    simp [Nat.testBit_lt_two_pow (hv.trans_le (Nat.pow_le_pow_right two_pos hn))]
  · simp only [Bool.and_eq_false_iff, decide_eq_false_iff_not]; omega

/-- OP leaves every operand field 0. -/
theorem field_setWidth_byte (c : Byte) {lo : Nat} (width : Nat) (h : 8 ≤ lo) : field (c.setWidth 32) lo width = 0 := by
  rw [show c.setWidth 32 = place c.toNat 0 by simp [place, BitVec.ofNat_toNat]]
  exact field_place_disjoint c.isLt (.inr h)

/-! ## Decoding an encoded command -/

/-- A word with a defined OP and no reserved bit set decodes to its fields (30_encoding.md R118). -/
theorem decode_of_legal {w : Word} {o : Op} (hop : opField w = o.code) (hres : w &&& o.format.reserved = 0#32) :
    decode w = .ok (operandsOf w o) := by
  simp [decode, hop, hres]

/-- The word of a well-formed command has its opcode and no reserved bit. -/
theorem encodesLegally (i : Instr) : Laws.EncodesLegally.Statement i := by
  cases i with
  | nop => exact Laws.EncodesLegally.nop
  | htBuild cls id => exact Laws.EncodesLegally.htBuild cls id
  | dcReset => exact Laws.EncodesLegally.dcReset
  | bsAlignRd => exact Laws.EncodesLegally.bsAlignRd
  | bsFlushWr => exact Laws.EncodesLegally.bsFlushWr
  | hdec slot comp dct act => exact Laws.EncodesLegally.hdec slot comp dct act
  | henc slot comp dct act => exact Laws.EncodesLegally.henc slot comp dct act
  | idct slot qt => exact Laws.EncodesLegally.idct slot qt
  | fdct slot qt => exact Laws.EncodesLegally.fdct slot qt
  | cscInv yh yv ch cv => exact Laws.EncodesLegally.cscInv yh yv ch cv
  | cscFwd yh yv ch cv => exact Laws.EncodesLegally.cscFwd yh yv ch cv

section
variable (c : Byte)

/-- The operands of format H (30_encoding.md R111). -/
theorem fields_h (cls : HtClass) {id : Nat} (hid : id < 2 ^ 2) :
    let w := c.setWidth 32 ||| (place (classBit cls) 8 ||| place id 12)
    field w 8 1 = classBit cls ∧ field w 12 2 = id := by
  have hc : classBit cls < 2 ^ 1 := by cases cls <;> decide
  simp (disch := omega) only [field_or, field_setWidth_byte, field_place_same hc, field_place_disjoint hc,
    field_place_same hid, field_place_disjoint hid, Nat.zero_or, Nat.or_zero, and_self]

/-- The operands of format B (30_encoding.md R111). -/
theorem fields_b {slot comp dct act : Nat} (hs : slot < 2 ^ 3) (hc : comp < 2 ^ 2) (hd : dct < 2 ^ 2) (ha : act < 2 ^ 2) :
    let w := c.setWidth 32 ||| (place slot 8 ||| place comp 12 ||| place dct 16 ||| place act 20)
    field w 8 3 = slot ∧ field w 12 2 = comp ∧ field w 16 2 = dct ∧ field w 20 2 = act := by
  simp (disch := omega) only [field_or, field_setWidth_byte, field_place_same hs, field_place_disjoint hs,
    field_place_same hc, field_place_disjoint hc, field_place_same hd, field_place_disjoint hd,
    field_place_same ha, field_place_disjoint ha, Nat.zero_or, Nat.or_zero, and_self]

/-- The operands of format T (30_encoding.md R111). -/
theorem fields_t {slot qt : Nat} (hs : slot < 2 ^ 3) (hq : qt < 2 ^ 2) :
    let w := c.setWidth 32 ||| (place slot 8 ||| place qt 16)
    field w 8 3 = slot ∧ field w 16 2 = qt := by
  simp (disch := omega) only [field_or, field_setWidth_byte, field_place_same hs, field_place_disjoint hs,
    field_place_same hq, field_place_disjoint hq, Nat.zero_or, Nat.or_zero, and_self]

/-- The operands of format C (30_encoding.md R111). -/
theorem fields_c {yh yv ch cv : Nat} (h1 : yh < 2 ^ 2) (h2 : yv < 2 ^ 2) (h3 : ch < 2 ^ 2) (h4 : cv < 2 ^ 2) :
    let w := c.setWidth 32 ||| (place yh 8 ||| place yv 10 ||| place ch 12 ||| place cv 14)
    field w 8 2 = yh ∧ field w 10 2 = yv ∧ field w 12 2 = ch ∧ field w 14 2 = cv := by
  simp (disch := omega) only [field_or, field_setWidth_byte, field_place_same h1, field_place_disjoint h1,
    field_place_same h2, field_place_disjoint h2, field_place_same h3, field_place_disjoint h3,
    field_place_same h4, field_place_disjoint h4, Nat.zero_or, Nat.or_zero, and_self]

end

/-- The operands of an encoded command are its own. -/
theorem operandsOf_encode {i : Instr} (h : WellFormed i) : operandsOf (encode i) (opOf i) = i := by
  cases i <;> simp only [WellFormed, Instr.wf, fits, Bool.and_eq_true, decide_eq_true_eq] at h <;>
    simp only [opOf, operandsOf, encode, operandBits]
  case htBuild cls id =>
    obtain ⟨hcls, hid⟩ := fields_h Op.htBuild.code cls h
    rw [hcls, hid, classOfBit_classBit]
  case hdec | henc =>
    obtain ⟨⟨⟨hs, hc⟩, hd⟩, ha⟩ := h
    obtain ⟨es, ec, ed, ea⟩ := fields_b _ hs hc hd ha
    rw [es, ec, ed, ea]
  case idct | fdct =>
    obtain ⟨es, eq⟩ := fields_t _ h.1 h.2
    rw [es, eq]
  case cscInv | cscFwd =>
    obtain ⟨⟨⟨h1, h2⟩, h3⟩, h4⟩ := h
    obtain ⟨e1, e2, e3, e4⟩ := fields_c _ h1 h2 h3 h4
    rw [e1, e2, e3, e4]

/-- Settles O1: an encoded command carries its opcode, no reserved bit, and its operands in their fields. -/
theorem decodeOfEncodedCommand : Obligations.DecodeOfEncodedCommand := by
  intro i h
  obtain ⟨hop, hres⟩ := encodesLegally i h
  rw [decode_of_legal hop hres, operandsOf_encode h]

/-! ## Encoding a decoded word -/

/-- A field put back is the word masked to the bits of the field. -/
theorem place_field_eq_and (w : Word) (lo width : Nat) :
    place (field w lo width) lo = w &&& place (2 ^ width - 1) lo := by
  refine BitVec.eq_of_getLsbD_eq fun k hk => ?_
  rw [BitVec.getLsbD_and, getLsbD_place, getLsbD_place, testBit_field, Nat.testBit_two_pow_sub_one]
  by_cases h : lo ≤ k
  · simp [hk, h, Bool.and_comm]
  · simp [h]

/-- OP put back is the word masked to [7:0]. -/
theorem setWidth_opField (w : Word) : (opField w).setWidth 32 = w &&& place (2 ^ 8 - 1) 0 := by
  rw [← place_field_eq_and, place_field, BitVec.shiftLeft_zero, opField]

/-- OP and the operand fields of a word put back are the word without its reserved bits: the fields of each format and its
reserved bits share out the whole word (30_encoding.md R111). -/
theorem opField_or_operandBits (w : Word) (o : Op) :
    (opField w).setWidth 32 ||| operandBits (operandsOf w o) = w &&& ~~~o.format.reserved := by
  cases o <;> simp only [operandsOf, operandBits, classBit_field, place_field_eq_and, setWidth_opField,
    ← BitVec.and_or_distrib_left, BitVec.or_zero] <;> rfl

@[simp] theorem opOf_operandsOf (w : Word) (o : Op) : opOf (operandsOf w o) = o := by cases o <;> rfl

/-- A word with none of the bits of `m` set is kept by masking them out. -/
theorem and_not_eq_self {n : Nat} {w m : BitVec n} (h : w &&& m = 0#n) : w &&& ~~~m = w := by
  have hsplit : w &&& (m ||| ~~~m) = w := by simp
  rwa [BitVec.and_or_distrib_left, h, BitVec.zero_or] at hsplit

/-- Settles O2: the fields of the format put back give every bit that is not reserved, and the reserved bits are 0. -/
theorem encodeOfDecodedWord : Obligations.EncodeOfDecodedWord := by
  intro w i h
  obtain ⟨o, hop, hres, rfl⟩ := decode_ok h
  refine ⟨wf_operandsOf w o, ?_⟩
  calc encode (operandsOf w o)
      = (opField w).setWidth 32 ||| operandBits (operandsOf w o) := by rw [encode, opOf_operandsOf, hop]
    _ = w &&& ~~~o.format.reserved := opField_or_operandBits w o
    _ = w := and_not_eq_self hres

/-- Settles O3: each word is the encoding of its command, which decodes to it. -/
theorem listedWordsDecode : Obligations.ListedWordsDecode :=
  ⟨decodeOfEncodedCommand .nop rfl, decodeOfEncodedCommand (.htBuild .dc 1) rfl,
    decodeOfEncodedCommand (.htBuild .ac 0) rfl, decodeOfEncodedCommand .dcReset rfl,
    decodeOfEncodedCommand .bsAlignRd rfl, decodeOfEncodedCommand .bsFlushWr rfl,
    decodeOfEncodedCommand (.hdec 0 0 3 3) rfl, decodeOfEncodedCommand (.henc 5 2 0 0) rfl,
    decodeOfEncodedCommand (.idct 6 0) rfl, decodeOfEncodedCommand (.fdct 4 1) rfl,
    decodeOfEncodedCommand (.cscInv 1 1 0 0) rfl, decodeOfEncodedCommand (.cscFwd 0 0 1 0) rfl⟩

/-! ## Illegal words -/

/-- The rows of the opcode map are the commands' opcodes with the reserved bits of their formats. -/
theorem mem_opcodeRows {r : Nat × Word} : r ∈ opcodeRows ↔ ∃ o : Op, (o.code.toNat, o.format.reserved) = r := by
  have hrows : opcodeRows = [Op.nop, .htBuild, .dcReset, .bsAlignRd, .bsFlushWr, .hdec, .henc, .idct, .fdct, .cscInv,
      .cscFwd].map fun o => (o.code.toNat, o.format.reserved) := rfl
  rw [hrows, List.mem_map]
  exact ⟨fun ⟨o, _, h⟩ => ⟨o, h⟩, fun ⟨o, h⟩ => ⟨o, by cases o <;> decide, h⟩⟩

/-- A word whose OP has no row in the opcode map is rejected for it. -/
theorem decode_undefinedOp {w : Word} (h : ∀ r ∈ opcodeRows, (opField w).toNat ≠ r.1) :
    decode w = .error .undefinedOp := by
  have hnone : opOfCode (opField w) = none := by
    refine Option.eq_none_iff_forall_ne_some.mpr fun o ho => ?_
    exact h _ (mem_opcodeRows.mpr ⟨o, rfl⟩) (congrArg _ (code_of_opOfCode ho))
  rw [decode, hnone]

/-- A word whose OP has a row, one of whose reserved bits is set, is rejected for that bit. -/
theorem decode_reservedBit {w : Word} {r : Nat × Word} (hr : r ∈ opcodeRows) (hop : (opField w).toNat = r.1)
    (hres : w &&& r.2 ≠ 0#32) : decode w = .error .reservedBit := by
  obtain ⟨o, rfl⟩ := mem_opcodeRows.mp hr
  have hcode : opField w = o.code := BitVec.eq_of_toNat_eq hop
  simp [decode, hcode, hres]

/-- A rejected word ends in ILLEGAL_COMMAND with its CW[7:0] as OP (30_encoding.md R119). -/
theorem illegalCommand_eq_errorState (cw : Word) (r : Reject) (s : State) :
    illegalCommand cw r s = errorState s (opField cw) 7#8 (rejectDetail r) := rfl

/-- Settles O4: the decoder's rejection decides the detail, and the engine's step writes ERRCODE and ERR alone. -/
theorem illegalWordsRaiseIllegalCommand : Obligations.IllegalWordsRaiseIllegalCommand := by
  intro s cw fin ht hl
  constructor
  · intro h
    rw [step_engine_illegal ht hl (decode_undefinedOp h), illegalCommand_eq_errorState]
    rfl
  · intro r hr hop hres
    rw [step_engine_illegal ht hl (decode_reservedBit hr hop hres), illegalCommand_eq_errorState]
    rfl

/-! ## Bad slots -/

theorem checkSlot_of_five_lt {slot : Nat} (h : 5 < slot) : checkSlot slot = .error (.error .invalidArgument 1#8) :=
  if_pos h

/-- A command whose body raises an error ends in that error (60_exceptions.md R352). -/
theorem exec_of_body_error {i : Instr} {s : State} {e : ErrorCode} {d : Byte} (h : body i s = .error (.error e d)) :
    exec i s = .next (errorState s (opOf i).code e.code d) := by
  rw [exec_eq, h]
  rfl

/-- The slot check is the first check of each block command's body (60_exceptions.md R353). -/
theorem blockBodies_badSlot {slot : Nat} (h : 5 < slot) (s : State) (a b c : Nat) :
    let r : Except Raise State := .error (.error .invalidArgument 1#8)
    body (.hdec slot a b c) s = r ∧ body (.henc slot a b c) s = r ∧ body (.idct slot a) s = r ∧
      body (.fdct slot a) s = r := by
  simp only [body, hdecBody, hencBody, idctBody, fdctBody, checkSlot_of_five_lt h, and_self]

/-- Settles O14: SLOT 6 and 7 fail the first check of each block command's body. -/
theorem badSlotRaisesInvalidArgument : Obligations.BadSlotRaisesInvalidArgument := by
  intro s slot a b c hslot
  obtain ⟨hdec, henc, idct, fdct⟩ := blockBodies_badSlot (slot := slot) (by omega) s a b c
  exact ⟨exec_of_body_error hdec, exec_of_body_error henc, exec_of_body_error idct, exec_of_body_error fdct⟩

end Sys2Proof.Proofs
end

section
/-! PROOFS. Host accesses (40_host_access.md): which accesses are answered, what a step runs, what the open registers read, what
writes to the control registers do, and what a busy block protects. -/

namespace Sys2Proof.Proofs

open Sys2Proof.Machine Sys2Proof.Claims

/-! ## Whose turn it is, and what it runs (R140) -/

theorem turnOf_of_cons {s : State} {a : Agent} {rest : List Agent} (h : s.schedule = a :: rest) : turnOf s = a := by
  rw [turnOf, h]

/-- A used-up schedule gives the turn to a busy engine, else to the host. -/
theorem turnOf_of_nil {s : State} (h : s.schedule = []) : turnOf s = if s.busy then .engine else .host := by
  rw [turnOf, h]

/-- A command word has 32 bits. -/
theorem tableWord_32 (w : Nat) : tableWord 32 w = BitVec.ofNat 32 w := by
  apply BitVec.eq_of_toNat_eq
  rw [tableWord, BitVec.toNat_ofNat, BitVec.toNat_ofNat, Nat.mod_mod]

/-- Settles O5: the agent whose turn it is moves; a placed word is latched with the turn given to the engine. -/
theorem stepRunsLatchedCommand : Obligations.StepRunsLatchedCommand := by
  refine ⟨fun s l i ht hl hd => step_engine ht hl hd, fun s ht => step_host ht, fun s ht hl => step_engine_idle ht hl,
    fun s a rest h => turnOf_of_cons h, fun s h => ?_, fun s w i hd => ?_⟩
  · rw [turnOf_of_nil h]
    cases s.busy <;> decide
  · rw [← tableWord_32] at hd ⊢
    exact step_withFetchWord hd

/-! ## Accepted and bad accesses (R141, R142, R149) -/

theorem accepted_iff {p : Params} {addr bytes : Nat} : accepted p addr bytes = true ↔
    ¬(bytes ≠ 4 ∨ addr % 4 ≠ 0 ∨ addr < p.base ∨ p.base + 0x2FFFF < addr) := by
  simp only [accepted, Bool.and_eq_true, beq_iff_eq, decide_eq_true_eq]
  omega

/-- A pending bus access faults when the window does not accept it, and else has a next state. -/
theorem hostStep_access {s : State} {addr bytes : Nat} {v : Word} {rest : List Input}
    (hi : s.inputs = .read addr bytes :: rest ∨ s.inputs = .write addr bytes v :: rest) :
    (accepted s.params addr bytes ≠ true → hostStep s = .fault (.busError addr bytes)) ∧
    (accepted s.params addr bytes = true → ∃ t, hostStep s = .next t) := by
  rcases hi with hi | hi <;> simp only [hostStep, hi] <;>
    exact ⟨fun ha => if_neg ha, fun ha => ⟨_, if_pos ha⟩⟩

/-- Settles O42: an access is bad exactly when the window does not accept it. -/
theorem badAccessFaults : Obligations.BadAccessFaults := by
  intro s addr bytes v rest ht bad hi
  obtain ⟨hfault, hnext⟩ := hostStep_access (s := takeTurn s) hi
  rw [step_host ht]
  exact ⟨fun hb => hfault fun ha => accepted_iff.mp ha hb, fun hb => hnext (accepted_iff.mpr hb)⟩

/-! ## The open registers (R141, R144) -/

/-- A read of a word that is not protected returns it, BUSY or not. -/
theorem returns_of_open {s : State} (hl : s.params.legal = true) {off : Nat} {l : Loc} {w : Word}
    (hloc : locate s.params off = l) (h4 : off % 4 = 0) (hend : off ≤ 0x2FFFF) (hp : l.protectedRead = false)
    (hw : wordAt s off l = w) : Returns s off w := by
  subst hloc
  rw [Returns, hostStep_rd s h4 hend hl, hostRead_open { s with inputs := [] } off hp, wordAt_inputs, hw]

/-- Joining two fields adds their values, the upper one shifted. -/
theorem toNat_append_eq_add {m n : Nat} (x : BitVec m) (y : BitVec n) : (x ++ y).toNat = x.toNat * 2 ^ n + y.toNat := by
  rw [BitVec.toNat_append, ← Nat.shiftLeft_add_eq_or_of_lt y.isLt, Nat.shiftLeft_eq]

/-- The value of flag `f` standing in bit `k`. -/
def flagAt (f : Bool) (k : Nat) : Nat := if f then 2 ^ k else 0

/-- A flag in bit `k` is the flag in bit 0, shifted. -/
theorem flagAt_eq (f : Bool) (k : Nat) : flagAt f k = (bit f).toNat * 2 ^ k := by
  cases f <;> simp [flagAt, bit]

/-- CONFIG as a number (10_state.md R34). -/
theorem configWord_eq {p : Params} (h : p.legal = true) :
    configWord p = BitVec.ofNat 32 (p.ibufLog2 + p.obufLog2 * 2 ^ 8 + flagAt (p.transform == .exact) 16) := by
  simp only [Params.legal, Bool.and_eq_true, decide_eq_true_eq] at h
  apply BitVec.eq_of_toNat_eq
  simp only [configWord, flagAt_eq, BitVec.toNat_setWidth, BitVec.toNat_ofNat, toNat_append_eq_add]
  omega

/-- CTRL as a number (10_state.md R35). -/
theorem ctrlWord_eq (c : Ctrl) : ctrlWord c = BitVec.ofNat 32 (flagAt c.irqEn 1 + flagAt c.inFinal 2) := by
  apply BitVec.eq_of_toNat_eq
  simp only [ctrlWord, flagAt_eq, BitVec.toNat_setWidth, BitVec.toNat_ofNat, toNat_append_eq_add]
  omega

/-- STATUS as a number (10_state.md R37). -/
theorem statusWord_eq (busy : Bool) (f : Status) : statusWord busy f = BitVec.ofNat 32
    (flagAt busy 0 + flagAt f.done 1 + flagAt f.err 2 + flagAt f.needData 3 + flagAt f.outFull 4 + flagAt f.cmdDropped 5 +
      flagAt f.accDropped 6) := by
  apply BitVec.eq_of_toNat_eq
  simp only [statusWord, flagAt_eq, BitVec.toNat_setWidth, BitVec.toNat_ofNat, toNat_append_eq_add]
  omega

/-- Settles O44: the six registers are not protected, and `wordAt` gives their words. -/
theorem openRegistersReadExactly : Obligations.OpenRegistersReadExactly := by
  intro s hl
  exact ⟨
    returns_of_open hl (l := .id) rfl rfl (by decide) rfl rfl,
    returns_of_open hl (l := .config) rfl rfl (by decide) rfl (configWord_eq hl),
    returns_of_open hl (l := .ctrl) rfl rfl (by decide) rfl (ctrlWord_eq s.ctrl),
    returns_of_open hl (l := .cmd) rfl rfl (by decide) rfl rfl,
    returns_of_open hl (l := .status) rfl rfl (by decide) rfl (statusWord_eq s.busy s.status),
    returns_of_open hl (l := .errcode) rfl rfl (by decide) rfl rfl⟩

/-! ## Writes to the control registers (R145–R148) -/

/-- A write to ID, CONFIG, ERRCODE or HT_VALID does nothing (R145). -/
theorem hostWrite_readOnly (s : State) (v : Word) : ∀ off ∈ [0x00, 0x04, 0x14, 0x18], hostWrite s off v = s := by
  simp only [List.forall_mem_cons]
  exact ⟨rfl, rfl, rfl, rfl, nofun⟩

theorem hostWrite_ctrl (s : State) (v : Word) : hostWrite s 0x08 v = writeCtrl s v := rfl

theorem hostWrite_cmd (s : State) (cw : Word) : hostWrite s 0x0C cw = offerCommand s cw := rfl

theorem hostWrite_status (s : State) (v : Word) :
    hostWrite s 0x10 v = { s with status := s.status.writeOneToClear v } := rfl

/-- Settles O49: the four registers ignore the datum. -/
theorem readOnlyRegistersIgnoreWrites : Obligations.ReadOnlyRegistersIgnoreWrites := by
  intro s v off hoff hl
  have hwords : ∀ o ∈ [0x00, 0x04, 0x14, 0x18], o % 4 = 0 ∧ o ≤ 0x2FFFF := by decide
  obtain ⟨h4, hend⟩ := hwords off hoff
  rw [hostStep_wr s v h4 hend hl, hostWrite_readOnly _ v off hoff]

/-- While BUSY or ERR an offered command is dropped (R146). -/
theorem offerCommand_dropped {s : State} (h : s.busy = true ∨ s.status.err = true) (cw : Word) :
    offerCommand s cw = { s with status := { s.status with cmdDropped := true } } :=
  if_pos (by simpa using h)

/-- An idle block without ERR accepts the command offered (R146). -/
theorem offerCommand_accepted {s : State} (hb : s.busy = false) (he : s.status.err = false) (cw : Word) :
    offerCommand s cw = accept s cw :=
  if_neg (by simp [hb, he])

/-- Settles O50: a CMD write offers its word as a command. -/
theorem commandIssue : Obligations.CommandIssue := by
  intro s cw hl
  rw [hostStep_wr s cw (by decide) (by decide) hl, hostWrite_cmd]
  constructor
  · intro h
    rw [offerCommand_dropped (s := { s with inputs := [] }) h]
  · intro hb he
    rw [offerCommand_accepted (s := { s with inputs := [] }) hb he]
    rfl

/-- A STATUS write, bit by bit: bits 1 to 6 are cleared where the datum has a 1, the others are kept (R147). -/
theorem statusWord_writeOneToClear (busy : Bool) (f : Status) (v : Word) (k : Nat) :
    (statusWord busy (f.writeOneToClear v)).getLsbD k =
      ((statusWord busy f).getLsbD k && !(decide (1 ≤ k ∧ k ≤ 6) && v.getLsbD k)) := by
  rw [statusWord_getLsbD, statusWord_getLsbD]
  match k with
  | 0 => exact (Bool.and_true _).symm
  | 1 | 2 | 3 | 4 | 5 | 6 => rfl
  | _ + 7 => rfl

/-- Settles O51: a STATUS write replaces the flags by those its datum does not clear. -/
theorem statusWriteOneClears : Obligations.StatusWriteOneClears := by
  intro s v hl
  refine ⟨s.status.writeOneToClear v, ?_, statusWord_writeOneToClear s.busy s.status v⟩
  rw [hostStep_wr s v (by decide) (by decide) hl, hostWrite_status]

/-- Without SOFT_RESET a CTRL write stores its two bits (R148). -/
theorem writeCtrl_store {v : Word} (h : v.getLsbD 0 = false) (s : State) :
    writeCtrl s v = { s with ctrl := ⟨v.getLsbD 1, v.getLsbD 2⟩ } := by
  rw [writeCtrl, h]
  rfl

/-- With SOFT_RESET it resets the block first (R148, 70_reset_and_hazards.md R391). -/
theorem writeCtrl_reset {v : Word} (h : v.getLsbD 0 = true) (s : State) :
    writeCtrl s v = { softReset s with ctrl := ⟨v.getLsbD 1, v.getLsbD 2⟩ } := by
  rw [writeCtrl, h]
  rfl

/-- Settles O52: bit 0 decides whether the soft reset comes before the store. -/
theorem ctrlWriteAndSoftReset : Obligations.CtrlWriteAndSoftReset := by
  intro s v hl
  rw [hostStep_wr s v (by decide) (by decide) hl, hostWrite_ctrl]
  constructor
  · intro h
    rw [writeCtrl_store h]
  · intro h
    rw [writeCtrl_reset h]
    rfl

/-! ## What a busy block protects (R143) -/

/-- An aligned offset past the registers that is not reserved is a word of QT, HT, COEF, SMP, PIX, IBUF or OBUF
(20_memory.md R83). -/
theorem used_regions {p : Params} {off : Nat} (h4 : off % 4 = 0) (hlo : 0x1000 ≤ off) (hend : off < 0x30000)
    (hr : ¬reservedOffset p off) :
    (0x1000 ≤ off ∧ off < 0x1400) ∨ (0x2000 ≤ off ∧ off < 0x6000 ∧ (off - 0x2000) % 0x800 / 4 < 273) ∨
    (0x6000 ≤ off ∧ off < 0x6600) ∨ (0x6800 ≤ off ∧ off < 0x6E00) ∨ (0x7000 ≤ off ∧ off < 0x7C00) ∨
    (0x10000 ≤ off ∧ off < 0x10000 + p.ibufBytes) ∨ (0x20000 ≤ off ∧ off < 0x20000 + p.obufBytes) := by
  unfold reservedOffset at hr
  unfold Params.ibufBytes Params.obufBytes
  omega

/-- A used word of the Huffman regions holds a byte or NSYM of a table. -/
theorem locateHt_protected {o : Nat} (h : o % 0x800 / 4 < 273) :
    (locateHt o).protectedRead = true ∧ locateHt o ≠ .htValid := by
  unfold locateHt
  split_ifs
  · exact ⟨rfl, nofun⟩
  · exact ⟨rfl, nofun⟩
  · omega

/-- Every used memory word is protected. -/
theorem memory_protected {p : Params} (hl : p.legal = true) {off : Nat} (h4 : off % 4 = 0) (hlo : 0x1000 ≤ off)
    (hend : off < 0x30000) (hr : ¬reservedOffset p off) :
    (locate p off).protectedRead = true ∧ locate p off ≠ .htValid := by
  obtain ⟨-, hib, -, -, -⟩ := legal_bounds hl
  rcases used_regions h4 hlo hend hr with ⟨h, h'⟩ | ⟨h, h', hw⟩ | ⟨h, h'⟩ | ⟨h, h'⟩ | ⟨h, h'⟩ | ⟨h, h'⟩ | ⟨h, h'⟩
  · rw [locate_qt p h h']; exact ⟨rfl, nofun⟩
  · rw [locate_ht p h h']; exact locateHt_protected hw
  · rw [locate_coef p h h']; exact ⟨rfl, nofun⟩
  · rw [locate_smp p h h']; exact ⟨rfl, nofun⟩
  · rw [locate_pix p h h']; exact ⟨rfl, nofun⟩
  · rw [locate_ibuf p h h']; exact ⟨rfl, nofun⟩
  · rw [locate_obuf p hib h h']; exact ⟨rfl, nofun⟩

/-- The cursors and the predictors are protected (10_state.md R32). -/
theorem cursorRegisters_protected (p : Params) :
    ∀ off ∈ [0x20, 0x24, 0x28, 0x30, 0x34, 0x38, 0x40, 0x44, 0x48, 0x4C],
      (locate p off).protectedRead = true ∧ locate p off ≠ .htValid := by
  have hreg : ∀ off ∈ [0x20, 0x24, 0x28, 0x30, 0x34, 0x38, 0x40, 0x44, 0x48, 0x4C],
      off < 0x1000 ∧ (locateRegister off).protectedRead = true ∧ locateRegister off ≠ .htValid := by decide
  intro off h
  obtain ⟨hlt, hp⟩ := hreg off h
  rwa [locate_register p hlt]

/-- A write to a protected word of a busy block is dropped. -/
theorem hostWrite_busy {s : State} {off : Nat} (v : Word) (hp : (locate s.params off).protectedRead = true)
    (hn : locate s.params off ≠ .htValid) (hb : s.busy = true) :
    hostWrite s off v = { s with status := { s.status with accDropped := true } } := by
  rw [hostWrite_protected s off v hp hn, writeProtected, if_pos hb]

/-- Settles O45: the words named are the protected ones, HT_VALID among them for reads alone. -/
theorem busyBlockProtectsItsState : Obligations.BusyBlockProtectsItsState := by
  intro s off v hb hl h4 hend hr
  have hmem (hlo : 0x1000 ≤ off) := memory_protected hl h4 hlo hend hr
  constructor
  · intro h
    obtain ⟨hp, hn⟩ := h.elim (cursorRegisters_protected s.params off) hmem
    rw [hostStep_wr s v h4 (by omega) hl, hostWrite_busy (s := { s with inputs := [] }) v hp hn hb]
  · intro h
    have hp : (locate s.params off).protectedRead = true := by
      rcases h with h | h
      · rcases List.mem_cons.mp h with rfl | h
        · rfl
        · exact (cursorRegisters_protected s.params off h).1
      · exact (hmem h).1
    rw [hostStep_rd s h4 (by omega) hl, hostRead_busy { s with inputs := [] } off hp hb]

end Sys2Proof.Proofs
end

section
/-! PROOFS. Control commands (41_control_commands.md): NOP and DC_RESET, the checks of HT_BUILD and the codes of the tables that pass
them, and the alignment commands of the reader and the writer. -/

namespace Sys2Proof.Proofs

open Sys2Proof.Machine Sys2Proof.Claims

/-! ## Commands that end ok or with OUT_FULL -/

/-- A command whose body ends ok commits what the body made and sets DONE (60_exceptions.md R351). -/
theorem exec_of_body_ok {i : Instr} {s t : State} (h : body i s = .ok t) : exec i s = .next (doneState t) := by
  rw [exec_eq, h]
  rfl

/-- A command whose output does not fit ends with OUT_FULL (60_exceptions.md R355). -/
theorem exec_of_body_outFull {i : Instr} {s : State} (h : body i s = .error .outFull) :
    exec i s = .next (outFullState s) := by
  rw [exec_eq, h]
  rfl

/-- Settles O18: NOP's body keeps the state. -/
theorem nopOnlyCompletes : Obligations.NopOnlyCompletes := fun _ => exec_of_body_ok (i := .nop) rfl

/-- Settles O19: DC_RESET's body clears the predictors alone. -/
theorem dcResetClearsPredictors : Obligations.DcResetClearsPredictors := fun _ => exec_of_body_ok (i := .dcReset) rfl

/-! ## What the checks of HT_BUILD say (R171, R172) -/

/-- BITS[d+1] is entry `d` of the list of counts. -/
theorem htCounts_getD (m : Memory) (h : Nat) {d : Nat} (hd : d < 16) :
    (htCounts m h).getD d 0 = (m.htBits h (d + 1)).toNat := by
  simp [htCounts, hd]

theorem htCounts_sum (m : Memory) (h : Nat) : (htCounts m h).sum = ∑ l ∈ Finset.Icc 1 16, (m.htBits h l).toNat := by
  rw [← Finset.Ico_succ_right_eq_Icc, Finset.sum_Ico_eq_sum_range]
  simp only [add_comm 1]
  rfl

/-- A weighted sum of BITS[1..d] is one of the first `d` counts. -/
theorem sum_htBits_mul (m : Memory) (h : Nat) {d : Nat} (hd : d ≤ 16) (w : Nat → Nat) :
    ∑ l ∈ Finset.Ico 1 (d + 1), (m.htBits h l).toNat * w l =
      ∑ e ∈ Finset.range d, (htCounts m h).getD e 0 * w (e + 1) := by
  rw [Finset.sum_Ico_eq_sum_range]
  refine Finset.sum_congr rfl fun e he => ?_
  rw [Finset.mem_range] at he
  rw [htCounts_getD m h (by omega), add_comm 1 e]

/-- The running code overflows some length exactly when the codes up to that length, each shifted to it, do. -/
theorem overSubscribed_iff {counts : List Nat} {l code : Nat} : overSubscribed counts l code = true ↔
    ∃ d < counts.length, 2 ^ (l + d) < code * 2 ^ d + ∑ e ∈ Finset.range (d + 1), counts.getD e 0 * 2 ^ (d - e) := by
  induction counts generalizing l code with
  | nil => simp [overSubscribed]
  | cons n rest ih =>
    rw [List.length_cons, Nat.exists_lt_succ_left, overSubscribed, Bool.or_eq_true, ih, decide_eq_true_eq]
    refine or_congr (by simp) (exists_congr fun d => and_congr_right fun _ => ?_)
    rw [Finset.sum_range_succ' _ (d + 1)]
    simp only [List.getD_cons_succ, List.getD_cons_zero, Nat.add_sub_add_right, Nat.sub_zero]
    rw [show l + 1 + d = l + (d + 1) by omega, pow_succ 2 d]
    ring_nf

/-- Check (c): some length has more codes than its code space. -/
theorem overSubscribed_htCounts_iff (m : Memory) (h : Nat) : overSubscribed (htCounts m h) 1 0 = true ↔
    ∃ l ∈ Finset.Icc 1 16, 2 ^ l < ∑ i ∈ Finset.Icc 1 l, (m.htBits h i).toNat * 2 ^ (l - i) := by
  have hsum (d : Nat) (hd : d < 16) : ∑ i ∈ Finset.Icc 1 (d + 1), (m.htBits h i).toNat * 2 ^ (d + 1 - i) =
      ∑ e ∈ Finset.range (d + 1), (htCounts m h).getD e 0 * 2 ^ (d - e) := by
    rw [← Finset.Ico_succ_right_eq_Icc, Order.succ_eq_add_one, sum_htBits_mul m h hd fun i => 2 ^ (d + 1 - i)]
    simp only [Nat.add_sub_add_right]
  have hlen : (htCounts m h).length = 16 := by simp [htCounts]
  rw [overSubscribed_iff, hlen]
  simp only [Nat.zero_mul, Nat.zero_add, Nat.add_comm 1]
  constructor
  · rintro ⟨d, hd, hlt⟩
    exact ⟨d + 1, Finset.mem_Icc.mpr (by omega), by rwa [hsum d hd]⟩
  · rintro ⟨l, hl, hlt⟩
    rw [Finset.mem_Icc] at hl
    obtain ⟨d, rfl⟩ : ∃ d, l = d + 1 := ⟨l - 1, by omega⟩
    exact ⟨d, by omega, by rwa [← hsum d (by omega)]⟩

theorem hasDuplicate_iff {l : List Byte} : hasDuplicate l = true ↔ ¬l.Nodup := by
  induction l with
  | nil => simp [hasDuplicate]
  | cons x rest ih =>
    rw [hasDuplicate, Bool.or_eq_true, ih, List.nodup_cons, not_and_or, not_not, List.contains_iff_mem]

/-- Check (d): some symbol is listed twice. -/
theorem hasDuplicate_htSymbols_iff (m : Memory) (h : Nat) : hasDuplicate (htSymbols m h) = true ↔
    ∃ i j, i < j ∧ j < (m.htNsym h).toNat ∧ m.htVal h i = m.htVal h j := by
  rw [hasDuplicate_iff, htSymbols, List.Nodup, List.pairwise_map, List.pairwise_iff_getElem]
  simp only [List.length_range, List.getElem_range]
  push Not
  exact ⟨fun ⟨i, j, _, hj, hij, e⟩ => ⟨i, j, hij, hj, e⟩, fun ⟨i, j, hij, hj, e⟩ => ⟨i, j, hij.trans hj, hj, hij, e⟩⟩

/-! ## HT_BUILD (R172) -/

theorem exec_htBuild_error {s : State} {cls : HtClass} {id h : Nat} (hidx : htIndex cls id = h) {d : Byte}
    (hc : checkTable s.mem h = .error (.error .malformedTable d)) :
    exec (.htBuild cls id) s = .next (errorState s 0x01#8 2#8 d) :=
  exec_of_body_error (i := .htBuild cls id) (by rw [body, hidx, htBuildBody, hc])

theorem exec_htBuild_ok {s : State} {cls : HtClass} {id h : Nat} (hidx : htIndex cls id = h)
    (hc : checkTable s.mem h = .ok ()) :
    exec (.htBuild cls id) s = .next (doneState { s with htValid := s.htValid ||| 1#8 <<< h }) :=
  exec_of_body_ok (i := .htBuild cls id) (by rw [body, hidx, htBuildBody, hc]; rfl)

/-- Settles O20: HT_BUILD ends as the first failing check says. -/
theorem htBuildChecksThenValidates : Obligations.HtBuildChecksThenValidates := by
  intro s cls id h n sum tooMany dup
  have hidx : htIndex cls id = h := htIndex_eq cls id
  have hsum : (htCounts s.mem h).sum = sum := htCounts_sum s.mem h
  have hmany : overSubscribed (htCounts s.mem h) 1 0 = true ↔ tooMany := overSubscribed_htCounts_iff s.mem h
  have hdup : hasDuplicate (htSymbols s.mem h) = true ↔ dup := hasDuplicate_htSymbols_iff s.mem h
  rw [← hsum, ← hmany, ← hdup]
  refine ⟨fun hn => exec_htBuild_error hidx ?_, fun hn hs => exec_htBuild_error hidx ?_,
    fun hn hs hm => exec_htBuild_error hidx ?_, fun hn hs hm hd => exec_htBuild_error hidx ?_,
    fun hn hs hm hd => exec_htBuild_ok hidx ?_⟩
  · rw [checkTable, if_pos hn]
  · rw [checkTable, if_neg hn, if_pos hs]
  · rw [checkTable, if_neg hn, if_neg (not_not.mpr hs), if_pos hm]
  · rw [checkTable, if_neg hn, if_neg (not_not.mpr hs), if_neg hm, if_pos hd]
  · rw [checkTable, if_neg hn, if_neg (not_not.mpr hs), if_neg hm, if_neg hd]

/-! ## The codes of a built table (R171) -/

/-- Code number `j` stands for HUFFVAL number `j`. -/
theorem htTable_of_code {m : Memory} {h j l c : Nat} (hc : checkTable m h = .ok ())
    (hj : (canonicalCodes (htCounts m h) 1 0)[j]? = some (l, c)) : (htTable m h)[j]? = some ⟨l, c, m.htVal h j⟩ := by
  obtain ⟨-, -, hsum, -, -⟩ := checkTable_ok hc
  have hlt : j < (m.htNsym h).toNat := by
    obtain ⟨hlt, -⟩ := List.getElem?_eq_some_iff.mp hj
    rwa [canonicalCodes_length, hsum] at hlt
  simp [htTable, List.getElem?_zipWith, hj, htSymbols, hlt]

theorem htTable_sym (m : Memory) (h j : Nat) (hj : j < (htTable m h).length) : (htTable m h)[j].sym = m.htVal h j := by
  simp [htTable, htSymbols]

/-- No entry is listed twice: each code is past the ones before it. -/
theorem htTable_nodup (m : Memory) (h : Nat) : (htTable m h).Nodup := by
  refine (htTable_pairwise m h).imp fun {a b} hab e => ?_
  obtain ⟨-, hlt⟩ := hab
  rw [e, Nat.sub_self, pow_zero] at hlt
  omega

/-- Settles O21: the entries are the canonical codes with their symbols. -/
theorem builtCodesArePrefixFree : Obligations.BuiltCodesArePrefixFree := by
  intro m h hc count
  refine ⟨fun l hl i hi => ?_, htTable_length hc, fun j hj => ?_, fun i j hi hj hij hs hpre => ?_⟩
  · rw [Finset.mem_Icc] at hl
    obtain ⟨d, rfl⟩ : ∃ d, l = d + 1 := ⟨l - 1, by omega⟩
    have hcode := canonicalCodes_get (htCounts m h) 1 0 d i (by rwa [htCounts_getD m h (by omega)])
    have hidx := sum_htBits_mul m h (d := d) (by omega) fun _ => 1
    have hval := sum_htBits_mul m h (d := d) (by omega) fun n => 2 ^ (d + 1 - n)
    simp only [mul_one] at hidx
    simp only [Nat.add_sub_add_right] at hval
    rw [Nat.zero_mul, Nat.zero_add, ← hidx, ← hval, add_comm 1 d] at hcode
    exact htTable_of_code hc hcode
  · obtain ⟨h1, h16, hlt⟩ := htTable_entry (List.getElem_mem hj)
    exact ⟨htTable_sym m h j hj, h1, h16, hlt hc⟩
  · have heq := htTable_prefixFree (List.getElem_mem hi) (List.getElem_mem hj) hs hpre
    exact hij ((htTable_nodup m h).getElem_inj_iff.mp heq)

/-! ## BS_ALIGN_RD (R174) -/

theorem alignReader_of_aligned {s : State} (h : s.rdBit = 0#3) : alignReader s = s := if_neg (not_not.mpr h)

theorem alignReader_inside {s : State} (h : s.rdBit ≠ 0#3) :
    alignReader s = { s with rdPos := BitVec.ofNat 17 (alignedPos s), rdBit := 0#3 } := if_pos h

/-- Settles O22: the new RD_POS is at most the size of IBUF, so its register holds it. -/
theorem alignMovesToNextByte : Obligations.AlignMovesToNextByte := by
  intro s hcap
  refine ⟨fun h => ?_, fun h => ⟨BitVec.ofNat 17 (alignedPos s), ?_, ?_⟩⟩
  · exact exec_of_body_ok (i := .bsAlignRd) (by rw [body, alignReader_of_aligned h])
  · exact exec_of_body_ok (i := .bsAlignRd) (by rw [body, alignReader_inside h])
  · have hle : alignedPos s ≤ 2 ^ 16 := (min_le_right _ _).trans (Nat.pow_le_pow_right (by omega) hcap)
    rw [BitVec.toNat_ofNat, Nat.mod_eq_of_lt (by omega)]
    rfl

/-! ## BS_FLUSH_WR (R175) -/

theorem bitsValue_singleton (b : Bool) : bitsValue [b] = b.toNat := bitsValue_append_singleton [] b |>.trans (Nat.zero_add _)

/-- The value of the `n` bits of `v` is `v` modulo 2^n. -/
theorem bitsValue_bitsOf (v n : Nat) : bitsValue (bitsOf v n) = v % 2 ^ n := by
  induction n with
  | zero => rw [pow_zero, Nat.mod_one]; rfl
  | succ n ih =>
    rw [bitsOf, ← List.singleton_append, bitsValue_append, ih, bitsOf_length, Nat.mod_pow_succ, ← Nat.toNat_testBit,
      bitsValue_singleton, mul_comm, add_comm]

/-- Eight bits pack into one byte, with none left. -/
theorem packBytes_eight {bits : List Bool} (h : bits.length = 8) :
    packBytes bits = ([BitVec.ofNat 8 (bitsValue bits)], []) :=
  match bits, h with
  | [_, _, _, _, _, _, _, _], _ => rfl

/-- With nothing pending there is nothing to pad. -/
theorem paddedBits_nil {s : State} (h : s.wrBit.toNat = 0) : paddedBits s = [] := by
  have h0 : s.wrBit = 0#3 := BitVec.eq_of_toNat_eq h
  rw [paddedBits, if_neg (not_not.mpr h0), State.pendingBits, h, bitsOf]

/-- Pending bits are padded to the eight bits of one byte: the pending value, then 1-bits. -/
theorem paddedBits_byte {s : State} (h : s.wrBit.toNat ≠ 0) : (paddedBits s).length = 8 ∧
    bitsValue (paddedBits s) =
      s.wrAcc.toNat % 2 ^ s.wrBit.toNat * 2 ^ (8 - s.wrBit.toNat) + (2 ^ (8 - s.wrBit.toNat) - 1) := by
  have h0 : s.wrBit ≠ 0#3 := fun e => h (congrArg BitVec.toNat e)
  have hones : (2 ^ (8 - s.wrBit.toNat) - 1) % 2 ^ (8 - s.wrBit.toNat) = 2 ^ (8 - s.wrBit.toNat) - 1 :=
    Nat.mod_eq_of_lt (Nat.sub_lt (Nat.two_pow_pos _) Nat.one_pos)
  rw [paddedBits, if_pos h0, State.pendingBits]
  constructor
  · rw [List.length_append, bitsOf_length, bitsOf_length]
    omega
  · rw [bitsValue_append, bitsValue_bitsOf, bitsValue_bitsOf, bitsOf_length, hones]

theorem stuff_singleton (b : Byte) : stuff [b] = if b = 0xFF#8 then [b, 0x00#8] else [b] := rfl

/-- What BS_FLUSH_WR puts out: the padded byte with its stuffing, and no bit is left pending. -/
theorem outBytes_paddedBits (s : State) :
    let n := s.wrBit.toNat
    let b : Byte := BitVec.ofNat 8 (s.wrAcc.toNat % 2 ^ n * 2 ^ (8 - n) + (2 ^ (8 - n) - 1))
    outBytes (paddedBits s) = (if n = 0 then [] else if b = 0xFF#8 then [b, 0x00#8] else [b]) ∧
      (packBytes (paddedBits s)).2 = [] := by
  intro n b
  by_cases h : n = 0
  · rw [paddedBits_nil h, if_pos h]
    exact ⟨rfl, rfl⟩
  · obtain ⟨hlen, hval⟩ := paddedBits_byte h
    rw [outBytes, packBytes_eight hlen, hval, if_neg h]
    exact ⟨stuff_singleton b, rfl⟩

/-- Output that fits is stored from WR_POS on, and the bits left are pending (42_huffman.md R221). -/
theorem flushOut_fits {s : State} {bits : List Bool} (h : s.wrPos.toNat + (outBytes bits).length ≤ s.params.obufBytes) :
    flushOut s bits = .ok { s with
      mem := s.mem.writeAll (obufStores s.wrPos.toNat (outBytes bits)),
      wrPos := BitVec.ofNat 17 (s.wrPos.toNat + (outBytes bits).length),
      wrBit := BitVec.ofNat 3 (packBytes bits).2.length,
      wrAcc := BitVec.ofNat 7 (bitsValue (packBytes bits).2) } :=
  if_neg (Nat.not_lt.mpr h)

/-- Output that does not fit is OUT_FULL (42_huffman.md R222). -/
theorem flushOut_full {s : State} {bits : List Bool} (h : s.params.obufBytes < s.wrPos.toNat + (outBytes bits).length) :
    flushOut s bits = .error .outFull := if_pos h

/-- Settles O23: the padded byte is flushed. -/
theorem flushPadsWithOnes : Obligations.FlushPadsWithOnes := by
  intro s _ n b bytes
  obtain ⟨hout, hleft⟩ : outBytes (paddedBits s) = bytes ∧ (packBytes (paddedBits s)).2 = [] := outBytes_paddedBits s
  rw [← hout]
  refine ⟨fun hfit => ⟨_, exec_of_body_ok (i := .bsFlushWr) ?_, read_obufStores s.mem _ _, read_obufStores_other s.mem _ _⟩,
    fun hfull => exec_of_body_outFull (i := .bsFlushWr) (flushOut_full hfull)⟩
  rw [body, flushOut_fits hfit, hleft]
  rfl

end Sys2Proof.Proofs
end

section
/-! PROOFS. The bitstream (42_huffman.md): the bit reader, categories and magnitudes, the bytes of the writer, and symbol
decoding. -/

namespace Sys2Proof.Proofs

open Sys2Proof.Machine Sys2Proof.Claims

/-! ## The bit reader (R210, R211, R212, R213) -/

/-- The data end at a byte past RD_LEN, and at a 0xFF whose next byte is past RD_LEN. -/
theorem checkByte_of_end {src : Source} {p : Nat} (h : src.len ≤ p ∨ (src.mem.ibuf p = 0xFF#8 ∧ src.len ≤ p + 1)) :
    checkByte src p = .error (endOfData src) := by
  by_cases hp : src.len ≤ p
  · rw [checkByte, if_pos hp]
  · obtain ⟨hff, hnext⟩ := h.resolve_left hp
    rw [checkByte, if_neg hp, if_pos hff, if_pos hnext]

/-- A 0xFF before any byte but 0x00 is a marker's. -/
theorem checkByte_of_marker {src : Source} {p : Nat} (hlen : p + 1 < src.len) (hff : src.mem.ibuf p = 0xFF#8)
    (hnext : src.mem.ibuf (p + 1) ≠ 0x00#8) : checkByte src p = .error (.error .malformedStream 1#8) := by
  rw [checkByte, if_neg (by omega), if_pos hff, if_neg (by omega), if_pos hnext]

theorem checkByte_of_data {src : Source} {p : Nat} (hlen : p < src.len)
    (hff : src.mem.ibuf p = 0xFF#8 → p + 1 < src.len ∧ src.mem.ibuf (p + 1) = 0x00#8) : checkByte src p = .ok () := by
  rw [checkByte, if_neg (by omega)]
  split_ifs with h h1 h2
  · exact absurd (hff h).1 (by omega)
  · exact absurd (hff h).2 h2
  · rfl
  · rfl

theorem readBit_of_checkByte_error {src : Source} {c : Cursor} {r : Raise} (h : checkByte src c.pos = .error r) :
    readBit src c = .error r := by
  rw [readBit, h]

theorem readBit_of_checkByte_ok {src : Source} {c : Cursor} (h : checkByte src c.pos = .ok ()) :
    readBit src c = .ok ((src.mem.ibuf c.pos).getLsbD (7 - c.bit), advance src c) := by
  rw [readBit, h]

/-- Settles O24: each clause is one outcome of ReadBit's checks. -/
theorem readBitFollowsStuffing : Obligations.ReadBitFollowsStuffing := by
  intro src p b _ atEnd bit
  refine ⟨fun h => ?_, fun h hne => ?_, fun h hff hend => ?_, fun h hff hm => ?_, fun h hff h0 => ?_⟩
  · exact readBit_of_checkByte_error (checkByte_of_end (.inl h))
  · rw [readBit_of_checkByte_ok (checkByte_of_data h fun e => absurd e hne), advance, if_neg hne]
  · exact readBit_of_checkByte_error (checkByte_of_end (.inr ⟨hff, hend⟩))
  · exact readBit_of_checkByte_error (checkByte_of_marker h hff hm)
  · rw [readBit_of_checkByte_ok (checkByte_of_data (Nat.lt_of_succ_lt h) fun _ => ⟨h, h0⟩), advance, if_pos hff]

/-! ## Categories and magnitudes (R217, R223, R224) -/

theorem cat_zero : cat 0 = 0 := rfl

/-- The magnitude of a nonzero value has its highest 1-bit at position Cat - 1. -/
theorem cat_bounds {v : Int} (hv : v ≠ 0) : 2 ^ (cat v - 1) ≤ v.natAbs ∧ v.natAbs < 2 ^ cat v := by
  have hn : v.natAbs ≠ 0 := Int.natAbs_ne_zero.mpr hv
  refine ⟨?_, lt_two_pow_bitlen v.natAbs⟩
  rw [cat, bitlen, if_neg hn, Nat.add_sub_cancel]
  exact Nat.log2_self_le hn

theorem cat_pos {v : Int} (hv : v ≠ 0) : 1 ≤ cat v := by
  have hn : v.natAbs ≠ 0 := Int.natAbs_ne_zero.mpr hv
  rw [cat, bitlen, if_neg hn]
  omega

/-- Settles O25: a nonzero value's Cat is the number of bits of its magnitude. -/
theorem catIsMagnitudeBitLength : Obligations.CatIsMagnitudeBitLength := ⟨cat_zero, fun _ => cat_bounds⟩

/-- Settles O26: the raw bits of a negative value are below 2^(s-1), those of a positive one are not. -/
theorem extendInvertsMag : Obligations.ExtendInvertsMag := by
  intro v hv
  obtain ⟨n, hn⟩ : ∃ n, cat v = n + 1 := ⟨cat v - 1, by have := cat_pos hv; omega⟩
  obtain ⟨hlo, hhi⟩ := cat_bounds hv
  rw [hn, Nat.add_sub_cancel] at hlo
  rw [hn, pow_succ] at hhi
  have hz : ((2 ^ n : ℕ) : ℤ) = 2 ^ n := by push_cast; rfl
  simp only [hn, mag, extend, Nat.add_sub_cancel, pow_succ, ← hz, Nat.add_eq_zero_iff, one_ne_zero, and_false, if_false]
  split_ifs <;> omega

/-- The magnitude of a value that is 0 or not fits its category's bits. -/
theorem mag_cat_lt (v : Int) : mag v (cat v) < 2 ^ cat v := by
  by_cases hv : v = 0
  · rw [hv]; decide
  · exact (extendInvertsMag v hv).2.1

theorem signedValue_eq_extend (raw n : Nat) : signedValue raw n = extend raw n := rfl

theorem signedValue_mag (v : Int) : signedValue (mag v (cat v)) (cat v) = v := by
  by_cases hv : v = 0
  · rw [hv]; rfl
  · exact (extendInvertsMag v hv).2.2

/-! ## The writer (R220, R221) -/

/-- The first bit of a bit string counts most. -/
theorem bitsValue_cons (b : Bool) (bs : List Bool) : bitsValue (b :: bs) = b.toNat * 2 ^ bs.length + bitsValue bs := by
  rw [← List.singleton_append, bitsValue_append, bitsValue_singleton]

theorem bitsValue_eq_sum (bits : List Bool) : bitsValue bits =
    ∑ i ∈ Finset.range bits.length, (if bits[i]? = some true then 2 ^ (bits.length - 1 - i) else 0) := by
  induction bits with
  | nil => rfl
  | cons b bs ih =>
    rw [bitsValue_cons, ih, List.length_cons, Finset.sum_range_succ', add_comm]
    congr 1
    · refine Finset.sum_congr rfl fun i _ => ?_
      rw [List.getElem?_cons_succ, show bs.length + 1 - 1 - (i + 1) = bs.length - 1 - i by omega]
    · cases b <;> simp

theorem stuff_eq_flatMap (l : List Byte) : stuff l = l.flatMap fun b => if b = 0xFF#8 then [b, 0x00#8] else [b] := by
  induction l with
  | nil => rfl
  | cons b rest ih =>
    rw [stuff, List.flatMap_cons, ih]
    split_ifs <;> rfl

/-- After stuffing every 0xFF stands before a 0x00. -/
theorem stuff_no_marker {l : List Byte} {j : Nat} (h : (stuff l)[j]? = some 0xFF#8) : (stuff l)[j + 1]? = some 0x00#8 := by
  induction l generalizing j with
  | nil => simp [stuff] at h
  | cons b rest ih =>
    rw [stuff] at h ⊢
    split_ifs at h ⊢ with hb
    · match j, h with
      | 0, _ => rfl
      | 1, h => simp at h
      | j + 2, h => exact ih h
    · match j, h with
      | 0, h => exact absurd (by simpa using h) hb
      | j + 1, h => exact ih h

/-- Settles O27: the laws of `bitsOf`, `packBytes`, `bitsValue` and `stuff`, put together. -/
theorem outputHoldsNoMarker : Obligations.OutputHoldsNoMarker := by
  refine ⟨fun v n => ⟨bitsOf_length v n, bitsOf_get v n⟩, fun s => ⟨bitsOf_length _ _, bitsOf_get _ _⟩, fun bits => ?_⟩
  refine ⟨?_, packBytes_get bits, packBytes_drop bits, bitsValue_eq_sum bits, stuff_eq_flatMap _, fun j => stuff_no_marker⟩
  have hlen := packBytes_length bits
  have hleft := packBytes_left bits
  omega

/-! ## Symbol decoding (R216) -/

/-- DecodeSym on a built table returns the symbol whose code comes next. -/
theorem decodeSym_entry {m : Memory} {h : Nat} {e : Entry} (he : e ∈ htTable m h) (hc : checkTable m h = .ok ())
    {src : Source} {c c' : Cursor} (ht : takeBits src e.size c = .ok (bitsOf e.code e.size, c')) :
    decodeSym (htTable m h) src c = .ok (e.sym, c') := by
  obtain ⟨h1, h16, hlt⟩ := htTable_entry he
  obtain ⟨k, hk⟩ : ∃ k, e.size = k + 1 := ⟨e.size - 1, by omega⟩
  have hcode := hlt hc
  rw [hk] at ht hcode
  have hsym := decodeSymFrom_code (fun _ ha _ hb => htTable_prefixFree ha hb) he k 16 0 c (by omega) (by omega) ht
  rwa [Nat.div_eq_of_lt hcode] at hsym

/-- Settles O28: the three endings of DecodeSym. -/
theorem decodeSymMatchesOneCode : Obligations.DecodeSymMatchesOneCode := by
  intro m h src c c' bits hc
  refine ⟨fun e he ht => decodeSym_entry he hc ht, fun ht hno => ?_, fun n hn r ht hno hr => ?_⟩
  · have hlen := takeBits_length ht
    exact decodeSym_none (hlen ▸ ht) (fun e he _ => hno e he) hlen
  · have hlen := takeBits_length ht
    subst hlen
    exact decodeSym_stop ht hno hn hr

end Sys2Proof.Proofs
end

section
/-! PROOFS. HDEC (42_huffman.md R230 to R233): the tables it needs, the symbols and magnitudes of a coded block, how the block
decoder reads a front of a block, and every ending of the command. -/

namespace Sys2Proof.Proofs

open Sys2Proof.Machine Sys2Proof.Claims

/-! ## The table precondition (R231) -/

@[simp] theorem dcTableIndex_eq (dct : Nat) : dcTableIndex dct = dct := Nat.zero_add dct

@[simp] theorem acTableIndex_eq (act : Nat) : acTableIndex act = 4 + act := rfl

theorem checkTables_of_built {s : State} {dct act : Nat} (hd : s.htValid.getLsbD dct = true)
    (ha : s.htValid.getLsbD (4 + act) = true) : checkTables s dct act = .ok () :=
  checkTables_ok ((dcTableIndex_eq dct).symm ▸ hd) ha

theorem checkTables_of_unbuilt {s : State} {dct act : Nat}
    (h : s.htValid.getLsbD dct = false ∨ s.htValid.getLsbD (4 + act) = false) :
    checkTables s dct act = .error (.error .malformedTable 5#8) := by
  rw [checkTables, dcTableIndex_eq, acTableIndex_eq, htBit, htBit]
  rcases h with h | h <;> simp [h]

/-- The slot passes, a table does not: the second check of both Huffman commands. -/
theorem huffmanBodies_unbuilt {s : State} {slot dct act : Nat} (comp : Nat) (hslot : slot ≤ 5)
    (h : s.htValid.getLsbD dct = false ∨ s.htValid.getLsbD (4 + act) = false) :
    let r : Except Raise State := .error (.error .malformedTable 5#8)
    body (.hdec slot comp dct act) s = r ∧ body (.henc slot comp dct act) s = r := by
  simp only [body, hdecBody, hencBody, checkSlot_ok hslot, checkTables_of_unbuilt h, and_self]

/-- Settles O16: the slot check comes first, the table check second. -/
theorem unbuiltTableRaisesMalformedTable : Obligations.UnbuiltTableRaisesMalformedTable := by
  intro s slot comp dct act h
  constructor
  · intro hslot
    obtain ⟨hdec, henc⟩ := huffmanBodies_unbuilt comp hslot h
    exact ⟨exec_of_body_error hdec, exec_of_body_error henc⟩
  · intro hslot
    obtain ⟨hdec, henc, -, -⟩ := blockBodies_badSlot hslot s comp dct act
    exact ⟨exec_of_body_error hdec, exec_of_body_error henc⟩

/-! ## Codes and the bits that come next -/

theorem emitSym_of_hasCode {tab : List Entry} {x : Byte} (h : HasCode tab x) : emitSym tab x = .ok (codeOf tab x) := by
  obtain ⟨e, he, hx⟩ := h
  rw [emitSym, codeOf]
  cases hf : tab.find? fun e => e.sym == x with
  | some e' => rfl
  | none => exact absurd hx (by simpa using List.find?_eq_none.mp hf e he)

theorem emitSym_of_missing {tab : List Entry} {x : Byte} (h : ¬HasCode tab x) :
    emitSym tab x = .error (.error .invalidCode 2#8) :=
  emitSym_missing.mpr fun e he hx => h ⟨e, he, hx⟩

theorem hasCode_of_emitSym {tab : List Entry} {x : Byte} {bits : List Bool} (h : emitSym tab x = .ok bits) :
    HasCode tab x ∧ bits = codeOf tab x := by
  obtain ⟨e, he, hx, -⟩ := emitSym_ok h
  have hc : HasCode tab x := ⟨e, he, hx⟩
  exact ⟨hc, Except.ok.inj (h.symm.trans (emitSym_of_hasCode hc))⟩

/-- `bits` are the bits of `src` from the cursor `c` on, and `c'` is the cursor after them. -/
def BitsAt (src : Source) (bits : List Bool) (c c' : Cursor) : Prop := takeBits src bits.length c = .ok (bits, c')

theorem bitsAt_nil {src : Source} {c c' : Cursor} (h : BitsAt src [] c c') : c' = c := by
  cases h
  rfl

theorem bitsAt_append {src : Source} {xs ys : List Bool} {c c' : Cursor} (h : BitsAt src (xs ++ ys) c c') :
    ∃ c1, BitsAt src xs c c1 ∧ BitsAt src ys c1 c' := takeBits_append h

theorem readBits_bitsAt {src : Source} {raw n : Nat} {c c' : Cursor} (hraw : raw < 2 ^ n)
    (h : BitsAt src (bitsOf raw n) c c') : readBits src n c = .ok (raw, c') := by
  rw [BitsAt, bitsOf_length] at h
  exact readBits_bitsOf hraw h

/-- DecodeSym reads back every code of `tab`. -/
def ReadsCodes (tab : List Entry) : Prop :=
  ∀ (x : Byte), HasCode tab x → ∀ (src : Source) (c c' : Cursor), BitsAt src (codeOf tab x) c c' →
    decodeSym tab src c = .ok (x, c')

/-- The tables that pass the checks of HT_BUILD do. -/
theorem readsCodes_of_checkTable {m : Memory} {h : Nat} (hc : checkTable m h = .ok ()) : ReadsCodes (htTable m h) := by
  intro x hx src c c' ht
  obtain ⟨e, he, rfl, hcode⟩ := emitSym_ok (emitSym_of_hasCode hx)
  rw [BitsAt, hcode, bitsOf_length] at ht
  exact decodeSym_entry he hc ht

/-! ## The DC part of a block (R230, R232) -/

section
variable {tab : List Entry} {src : Source} {pred : Half} {c c1 : Cursor} {t : Byte} {r : Raise}

theorem decodeDc_of_symbol_error (h : decodeSym tab src c = .error r) : decodeDc tab src pred c = .error r := by
  rw [decodeDc, h]

theorem decodeDc_of_large (h : decodeSym tab src c = .ok (t, c1)) (ht : 11 < t.toNat) :
    decodeDc tab src pred c = .error (.error .malformedStream 2#8) := by
  rw [decodeDc, h]
  exact if_pos ht

theorem decodeDc_of_magnitude_error (h : decodeSym tab src c = .ok (t, c1)) (ht : t.toNat ≤ 11)
    (hr : readBits src t.toNat c1 = .error r) : decodeDc tab src pred c = .error r := by
  simp only [decodeDc, h, if_neg (Nat.not_lt.mpr ht), hr]

theorem decodeDc_of_value (h : decodeSym tab src c = .ok (t, c1)) (ht : t.toNat ≤ 11) {raw : Nat} {c2 : Cursor}
    (hr : readBits src t.toNat c1 = .ok (raw, c2)) :
    decodeDc tab src pred c = .ok (pred + BitVec.ofInt 16 (signedValue raw t.toNat), c2) := by
  simp only [decodeDc, h, if_neg (Nat.not_lt.mpr ht), hr, wrap16, BitVec.ofInt_add, BitVec.ofInt_toInt,
    signedValue_eq_extend]

end

theorem decodeBlock_of_dc_error {dcTab acTab : List Entry} {src : Source} {pred : Half} {c : Cursor} {r : Raise}
    (h : decodeDc dcTab src pred c = .error r) : decodeBlock dcTab acTab src pred c = .error r := by
  rw [decodeBlock, h]

/-! ## One AC symbol (R230) -/

section
variable {tab : List Entry} {src : Source} {n k : Nat} {z : List Half} {c c1 : Cursor} {rs : Byte} {r : Raise}

/-- At the end of the block no symbol is read. -/
theorem decodeAc_of_full (hk : 64 ≤ k) : decodeAc tab src n k z c = .ok (z, c) := by
  cases n with
  | zero => rfl
  | succ n => rw [decodeAc, if_pos (by omega)]

theorem decodeAc_of_symbol_error (hk : k ≤ 63) (h : decodeSym tab src c = .error r) :
    decodeAc tab src (n + 1) k z c = .error r := by
  rw [decodeAc, if_neg (by omega), h]

variable (hk : k ≤ 63) (h : decodeSym tab src c = .ok (rs, c1))
include hk h

theorem decodeAc_of_eob (hs : rs.toNat % 16 = 0) (hr : rs.toNat / 16 = 0) :
    decodeAc tab src (n + 1) k z c = .ok (z, c1) := by
  rw [decodeAc, if_neg (by omega), h]
  simp only [hs, hr, if_true]

theorem decodeAc_of_zrl (hs : rs.toNat % 16 = 0) (hr : rs.toNat / 16 = 15) :
    decodeAc tab src (n + 1) k z c =
      if 48 < k then .error (.error .malformedStream 4#8) else decodeAc tab src n (k + 16) z c1 := by
  rw [decodeAc, if_neg (by omega), h]
  simp only [hs, hr, if_true]
  rw [if_neg (by omega), if_congr (show k + 16 > 64 ↔ 48 < k by omega) rfl rfl]

theorem decodeAc_of_bad_symbol
    (hs : (rs.toNat % 16 = 0 ∧ 1 ≤ rs.toNat / 16 ∧ rs.toNat / 16 ≤ 14) ∨ 10 < rs.toNat % 16) :
    decodeAc tab src (n + 1) k z c = .error (.error .malformedStream 3#8) := by
  rw [decodeAc, if_neg (by omega), h]
  rcases hs with ⟨hs, h1, h14⟩ | hs
  · simp only [hs, if_true]
    rw [if_neg (by omega), if_neg (by omega)]
  · simp only
    rw [if_neg (by omega), if_pos hs]

theorem decodeAc_of_past_end (hs : 1 ≤ rs.toNat % 16) (hs' : rs.toNat % 16 ≤ 10) (hr : 63 < k + rs.toNat / 16) :
    decodeAc tab src (n + 1) k z c = .error (.error .malformedStream 4#8) := by
  rw [decodeAc, if_neg (by omega), h]
  simp only
  rw [if_neg (by omega), if_neg (by omega), if_pos hr]

variable (hs : 1 ≤ rs.toNat % 16) (hs' : rs.toNat % 16 ≤ 10) (hr : k + rs.toNat / 16 ≤ 63)
include hs hs' hr

theorem decodeAc_of_magnitude_error (hm : readBits src (rs.toNat % 16) c1 = .error r) :
    decodeAc tab src (n + 1) k z c = .error r := by
  rw [decodeAc, if_neg (by omega), h]
  simp only [hm]
  rw [if_neg (by omega), if_neg (by omega), if_neg (by omega)]

theorem decodeAc_of_value {raw : Nat} {c2 : Cursor} (hm : readBits src (rs.toNat % 16) c1 = .ok (raw, c2)) :
    decodeAc tab src (n + 1) k z c = decodeAc tab src n (k + rs.toNat / 16 + 1)
      (z.set (k + rs.toNat / 16) (BitVec.ofInt 16 (signedValue raw (rs.toNat % 16)))) c2 := by
  rw [decodeAc, if_neg (by omega), h]
  simp only [hm]
  rw [if_neg (by omega), if_neg (by omega), if_neg (by omega)]
  rfl

end

/-! ## A front of a block -/

/-- The block the decoder holds after the front `z`: zeros follow (R230). -/
def padBlock (z : List Half) : List Half := z ++ List.replicate (64 - z.length) 0#16

theorem padBlock_of_full {z : List Half} (h : z.length = 64) : padBlock z = z := by
  rw [padBlock, h]
  exact List.append_nil z

/-- Zeros inside the block change nothing. -/
theorem padBlock_zeros {z : List Half} {r : Nat} (h : z.length + r ≤ 64) :
    padBlock (z ++ List.replicate r 0#16) = padBlock z := by
  rw [padBlock, padBlock, List.append_assoc, List.replicate_append_replicate, List.length_append, List.length_replicate]
  congr 2
  omega

/-- Storing a value `r` positions on extends the front by `r` zeros and the value. -/
theorem padBlock_set {z : List Half} {r : Nat} (v : Half) (h : z.length + r ≤ 63) :
    (padBlock z).set (z.length + r) v = padBlock (z ++ (List.replicate r 0#16 ++ [v])) := by
  have hsplit : 64 - z.length = r + (1 + (63 - (z.length + r))) := by omega
  have hrest : 64 - (z ++ (List.replicate r 0#16 ++ [v])).length = 63 - (z.length + r) := by simp; omega
  rw [padBlock, padBlock, hrest, hsplit, ← List.replicate_append_replicate, List.set_append_right _ _ (by omega),
    Nat.add_sub_cancel_left, List.set_append_right _ _ (by simp)]
  simp [List.replicate_add]

theorem acValues_zrl {p : Byte × Nat} (h : p = (0xF0#8, 0)) : acValues p = List.replicate 16 0#16 := by
  rw [h, acValues, if_pos rfl]

theorem acValues_value {p : Byte × Nat} (h : 1 ≤ p.1.toNat % 16) : acValues p =
    List.replicate (p.1.toNat / 16) 0#16 ++ [BitVec.ofInt 16 (signedValue p.2 (p.1.toNat % 16))] := by
  rw [acValues, if_neg]
  rintro e
  rw [e] at h
  exact absurd h (by decide)

theorem one_le_length_acValues (p : Byte × Nat) : 1 ≤ (acValues p).length := by
  rw [acValues]
  split_ifs <;> simp

/-- The decoder reads one AC item: its values follow the front. -/
theorem decodeAc_item {tab : List Entry} (hr : ReadsCodes tab) {p : Byte × Nat} (hp : AcItem tab p) {src : Source}
    {c c' : Cursor} (hb : BitsAt src (symbolBits tab p) c c') {z : List Half}
    (hlen : (z ++ acValues p).length ≤ 64) (n : Nat) :
    decodeAc tab src (n + 1) z.length (padBlock z) c =
      decodeAc tab src n (z ++ acValues p).length (padBlock (z ++ acValues p)) c' := by
  obtain ⟨hcode, hp⟩ := hp
  obtain ⟨c1, hsym, hmag⟩ := bitsAt_append hb
  have hdec := hr _ hcode _ _ _ hsym
  rcases hp with rfl | ⟨hs, hs', hraw⟩
  · rw [acValues_zrl rfl] at hlen ⊢
    obtain rfl := bitsAt_nil hmag
    simp only [List.length_append, List.length_replicate] at hlen ⊢
    rw [padBlock_zeros hlen, decodeAc_of_zrl (by omega) hdec (by decide) (by decide), if_neg (by omega)]
  · rw [acValues_value hs] at hlen ⊢
    simp only [List.length_append, List.length_replicate, List.length_singleton] at hlen ⊢
    rw [decodeAc_of_value (by omega) hdec hs hs' (by omega) (readBits_bitsAt hraw hmag), padBlock_set _ (by omega)]
    rfl

/-- The decoder reads the AC items of a front one after the other; its fuel lasts for the rest of the block. -/
theorem decodeAc_items {tab : List Entry} (hr : ReadsCodes tab) {items : List (Byte × Nat)}
    (hp : ∀ p ∈ items, AcItem tab p) {src : Source} {c c' : Cursor}
    (hb : BitsAt src (items.flatMap (symbolBits tab)) c c') {z : List Half}
    (hlen : (z ++ items.flatMap acValues).length ≤ 64) {n : Nat} (hn : 64 ≤ n + z.length) :
    ∃ n', 64 ≤ n' + (z ++ items.flatMap acValues).length ∧
      decodeAc tab src n z.length (padBlock z) c =
        decodeAc tab src n' (z ++ items.flatMap acValues).length (padBlock (z ++ items.flatMap acValues)) c' := by
  induction items generalizing z c n with
  | nil =>
    obtain rfl := bitsAt_nil hb
    exact ⟨n, by simpa using hn, by simp⟩
  | cons p items ih =>
    obtain ⟨c1, h1, h2⟩ := bitsAt_append hb
    rw [List.flatMap_cons, ← List.append_assoc] at hlen ⊢
    have hle : (z ++ acValues p).length ≤ 64 := by
      rw [List.length_append] at hlen
      omega
    have h1le := one_le_length_acValues p
    obtain ⟨n, rfl⟩ : ∃ m, n = m + 1 := ⟨n - 1, by rw [List.length_append] at hle; omega⟩
    rw [decodeAc_item hr (hp p (by simp)) h1 hle n]
    exact ih (fun q hq => hp q (by simp [hq])) h2 hlen (by rw [List.length_append]; omega)

/-- After a front the block decoder stands at the next AC symbol. -/
theorem decodeBlock_front {dcTab acTab : List Entry} (hdr : ReadsCodes dcTab) (har : ReadsCodes acTab) {pred : Half}
    {z : List Half} {front : List Bool} (hf : CodedFront dcTab acTab pred z front) (hz : z.length ≤ 64) {src : Source}
    {c c' : Cursor} (hb : BitsAt src front c c') :
    ∃ n, 64 ≤ n + z.length ∧
      decodeBlock dcTab acTab src pred c = decodeAc acTab src n z.length (padBlock z) c' := by
  obtain ⟨t, raw, items, ⟨hcode, ht, hraw, hitems, rfl⟩, rfl⟩ := hf
  obtain ⟨c2, hdc, hac⟩ := bitsAt_append hb
  obtain ⟨c1, hsym, hmag⟩ := bitsAt_append hdc
  rw [show t.toNat % 16 = t.toNat by omega] at hmag
  rw [decodeBlock, decodeDc_of_value (hdr t hcode _ _ _ hsym) ht (readBits_bitsAt hraw hmag)]
  exact decodeAc_items har hitems hac (z := [_]) hz (n := 63) (by simp)

/-- A front of a whole block is the block. -/
theorem decodeBlock_whole {dcTab acTab : List Entry} (hdr : ReadsCodes dcTab) (har : ReadsCodes acTab) {pred : Half}
    {z : List Half} {front : List Bool} (hf : CodedFront dcTab acTab pred z front) (hz : z.length = 64) {src : Source}
    {c c' : Cursor} (hb : BitsAt src front c c') : decodeBlock dcTab acTab src pred c = .ok (z, c') := by
  obtain ⟨n, -, h⟩ := decodeBlock_front hdr har hf hz.le hb
  rw [h, decodeAc_of_full hz.ge, padBlock_of_full hz]

/-- After a front that leaves room the decoder has fuel for one more symbol at least. -/
theorem decodeBlock_next {dcTab acTab : List Entry} (hdr : ReadsCodes dcTab) (har : ReadsCodes acTab) {pred : Half}
    {z : List Half} {front : List Bool} (hf : CodedFront dcTab acTab pred z front) (hz : z.length ≤ 63) {src : Source}
    {c c' : Cursor} (hb : BitsAt src front c c') :
    ∃ n, decodeBlock dcTab acTab src pred c = decodeAc acTab src (n + 1) z.length (padBlock z) c' := by
  obtain ⟨n, hn, h⟩ := decodeBlock_front hdr har hf (by omega) hb
  exact ⟨n - 1, by rw [h, Nat.sub_add_cancel (by omega)]⟩

/-- EOB after a front ends the block with zeros. -/
theorem decodeBlock_eob {dcTab acTab : List Entry} (hdr : ReadsCodes dcTab) (har : ReadsCodes acTab) {pred : Half}
    {z : List Half} {front : List Bool} (hf : CodedFront dcTab acTab pred z front) (hz : z.length ≤ 63)
    (heob : HasCode acTab 0x00#8) {src : Source} {c c' : Cursor} (hb : BitsAt src (front ++ codeOf acTab 0x00#8) c c') :
    decodeBlock dcTab acTab src pred c = .ok (padBlock z, c') := by
  obtain ⟨c1, hfront, hcode⟩ := bitsAt_append hb
  obtain ⟨n, h⟩ := decodeBlock_next hdr har hf hz hfront
  rw [h, decodeAc_of_eob hz (har _ heob _ _ _ hcode) (by decide) (by decide)]

/-! ## How HDEC ends (R230, R352, R354) -/

section
variable {s : State} {slot comp dct act : Nat} (hslot : slot ≤ 5) (hd : s.htValid.getLsbD dct = true)
  (ha : s.htValid.getLsbD (4 + act) = true)
include hslot hd ha

/-- With its operands checked, HDEC is the block decoder, committed. -/
theorem hdecBody_of_built : hdecBody slot comp dct act s =
    (decodeBlock (htTable s.mem dct) (htTable s.mem (4 + act)) s.source (s.dcPred.get comp) s.cursor).map
      fun p => storeBlock s slot comp p.1 p.2 := by
  rw [hdecBody, checkSlot_ok hslot, checkTables_of_built hd ha, dcTableIndex_eq, acTableIndex_eq]
  cases decodeBlock (htTable s.mem dct) (htTable s.mem (4 + act)) s.source (s.dcPred.get comp) s.cursor <;> rfl

theorem exec_hdec_ok {z : List Half} {c : Cursor}
    (h : decodeBlock (htTable s.mem dct) (htTable s.mem (4 + act)) s.source (s.dcPred.get comp) s.cursor = .ok (z, c)) :
    exec (.hdec slot comp dct act) s = .next (hdecDone s slot comp z c) :=
  exec_of_body_ok (i := .hdec slot comp dct act) (by rw [body, hdecBody_of_built hslot hd ha, h]; rfl)

theorem exec_hdec_error {r : Raise}
    (h : decodeBlock (htTable s.mem dct) (htTable s.mem (4 + act)) s.source (s.dcPred.get comp) s.cursor = .error r) :
    exec (.hdec slot comp dct act) s = .next (complete 0x10#8 s (.error r)) := by
  rw [exec_eq, body, hdecBody_of_built hslot hd ha, h]
  rfl

end

/-- The reader raises the error or the request that a stop stands for. -/
theorem readBit_of_readerStops {s t : State} {c : Cursor} (h : ReaderStops s c t) :
    ∃ r, readBit s.source c = .error r ∧ t = complete 0x10#8 s (.error r) := by
  rcases h with ⟨hend, rfl⟩ | ⟨hlen, hff, hnext, rfl⟩
  · refine ⟨endOfData s.source, readBit_of_checkByte_error (checkByte_of_end hend), ?_⟩
    rw [endOfData, show s.source.fin = s.fin from rfl]
    split_ifs <;> rfl
  · exact ⟨_, readBit_of_checkByte_error (checkByte_of_marker hlen hff hnext), rfl⟩

section
variable {s : State} {front : List Bool} {out : Host.Outcome State Fault Refusal}

/-- Where what DecodeSym raises after `front` is the outcome, the stops of the symbol are. -/
theorem symbolStops_of_decodeSym {tab : List Entry} (h : ∀ c r, NextBits s front c → decodeSym tab s.source c = .error r →
    out = .next (complete 0x10#8 s (.error r))) : SymbolStops s tab front out := by
  intro bits c hb hno
  obtain ⟨c1, hfront, hbits⟩ := bitsAt_append hb
  constructor
  · intro hlt t hst
    obtain ⟨r, hr, rfl⟩ := readBit_of_readerStops hst
    exact h c1 r hfront (decodeSym_stop hbits hno hlt hr)
  · intro h16
    exact h c1 _ hfront (decodeSym_none hbits hno h16)

/-- Where what ReadBits raises after `front` is the outcome, the stops of the magnitude are. -/
theorem magnitudeStops_of_readBits {n : Nat} (h : ∀ c r, NextBits s front c → readBits s.source n c = .error r →
    out = .next (complete 0x10#8 s (.error r))) : MagnitudeStops s n front out := by
  intro raw c hlt hb t hst
  obtain ⟨c1, hfront, hraw⟩ := bitsAt_append hb
  obtain ⟨r, hr, rfl⟩ := readBit_of_readerStops hst
  exact h c1 r hfront (readBitsFrom_stop hraw hr hlt)

end

/-- Settles O30: each clause is one ending of the block decoder, after the DC symbol's code or after a front of the block. -/
theorem hdecCommitsDecodedBlock : Obligations.HdecCommitsDecodedBlock := by
  intro s slot comp dct act hslot hd ha dcTab acTab pred hdec
  have ok {z c} (h : decodeBlock dcTab acTab s.source pred s.cursor = .ok (z, c)) : hdec = .next (hdecDone s slot comp z c) :=
    exec_hdec_ok hslot hd ha h
  have err {r} (h : decodeBlock dcTab acTab s.source pred s.cursor = .error r) :
      hdec = .next (complete 0x10#8 s (.error r)) := exec_hdec_error hslot hd ha h
  refine ⟨fun z c => ok, fun e d => err, err, fun htab _ _ _ => ?_⟩
  have hdr : ReadsCodes dcTab := readsCodes_of_checkTable (htab dct (by omega) hd)
  have har : ReadsCodes acTab := readsCodes_of_checkTable (htab (4 + act) (by omega) ha)
  refine ⟨symbolStops_of_decodeSym fun c r hc h => ?_, fun t ht => ⟨fun c hc hlarge => ?_, fun ht11 =>
    magnitudeStops_of_readBits fun c r hc h => ?_⟩, fun z front hf => ?_⟩
  · obtain rfl := bitsAt_nil hc
    exact err (decodeBlock_of_dc_error (decodeDc_of_symbol_error h))
  · exact err (decodeBlock_of_dc_error (decodeDc_of_large (hdr t ht _ _ _ hc) hlarge))
  · exact err (decodeBlock_of_dc_error (decodeDc_of_magnitude_error (hdr t ht _ _ _ hc) ht11 h))
  intro k
  refine ⟨fun hk c hc => ok (decodeBlock_whole hdr har hf hk hc), fun hk => ⟨symbolStops_of_decodeSym fun c r hc h => ?_,
    fun rs hrs => ?_⟩⟩
  · obtain ⟨n, hn⟩ := decodeBlock_next hdr har hf hk hc
    exact err (hn.trans (decodeAc_of_symbol_error hk h))
  intro run size
  refine ⟨fun c hc => ?_, fun hsize hrun => magnitudeStops_of_readBits fun c r hc h => ?_⟩
  · obtain ⟨c1, hfront, hcode⟩ := bitsAt_append hc
    obtain ⟨n, hn⟩ := decodeBlock_next hdr har hf hk hfront
    have hsym := har rs hrs _ _ _ hcode
    refine ⟨fun hbad => err (hn.trans (decodeAc_of_bad_symbol hk hsym hbad)), ?_, ?_⟩
    · rintro (⟨hs, hr, hlarge⟩ | ⟨hs, hs', hr⟩)
      · exact err (by rw [hn, decodeAc_of_zrl hk hsym hs hr, if_pos hlarge])
      · exact err (hn.trans (decodeAc_of_past_end hk hsym hs hs' hr))
    · rintro ⟨hs, hr⟩
      exact ok (hn.trans (decodeAc_of_eob hk hsym hs hr))
  · obtain ⟨c1, hfront, hcode⟩ := bitsAt_append hc
    obtain ⟨n, hn⟩ := decodeBlock_next hdr har hf hk hfront
    rcases Nat.eq_zero_or_pos size with hs | hs
    · rw [hs] at h
      cases h
    · exact err (hn.trans (decodeAc_of_magnitude_error hk (har rs hrs _ _ _ hcode) hs hsize hrun h))

/-! ## The frame of HDEC (R230, 70_reset_and_hazards.md R394) -/

/-- A command that does not end ok moves the latch, STATUS and ERRCODE alone (60_exceptions.md R352, R354, R355). -/
theorem complete_error_frame (op : Byte) (s : State) (r : Raise) : complete op s (.error r) =
    { s with latch := none, status := (complete op s (.error r)).status, errcode := (complete op s (.error r)).errcode } := by
  rcases r with ⟨e, d⟩ | _ | _ <;> rfl

theorem get_set_other (d : DcPreds) (v : Half) {c k : Nat} (hc : c ≤ 3) (hk : k ≤ 3) (h : k ≠ c) :
    (d.set c v).get k = d.get k := by
  interval_cases c <;> interval_cases k <;> simp_all [DcPreds.get, DcPreds.set]

/-- Settles O31: an ok HDEC stores the block, the predictor and the cursor; any other moves no data. -/
theorem hdecFrame : Obligations.HdecFrame := by
  intro s t slot comp dct act hcomp h
  rw [exec_eq] at h
  obtain rfl := Host.Outcome.next.inj h
  cases hb : body (.hdec slot comp dct act) s with
  | error r =>
    rw [complete_error_frame]
    exact ⟨rfl, fun _ _ _ => rfl, fun _ _ => rfl⟩
  | ok u =>
    obtain ⟨-, -, z, c, hz, rfl⟩ := hdecBody_ok hb
    obtain ⟨-, -, hlen⟩ := decodeBlock_ok hz (Nat.le_of_lt_succ s.rdBit.isLt)
    exact ⟨rfl, fun k hk hne => get_set_other _ _ hcomp hk hne, read_coefStores_other s.mem slot z hlen⟩

end Sys2Proof.Proofs
end

section
/-! PROOFS. HENC (42_huffman.md R240): what the encoder sends for the DC difference, for one AC coefficient and for a front of a
block, how HDEC reads it back, and every ending of the command. -/

namespace Sys2Proof.Proofs

open Sys2Proof.Machine Sys2Proof.Claims

/-! ## Symbols and magnitudes (R223, R224, R225) -/

/-- Category and raw bits of the value that `n` magnitude bits stand for. -/
theorem cat_mag_signedValue {raw n : Nat} (h : raw < 2 ^ n) :
    cat (signedValue raw n) = n ∧ mag (signedValue raw n) n = raw := by
  rw [signedValue_eq_extend]
  rcases Nat.eq_zero_or_pos n with rfl | hn
  · rw [pow_zero, Nat.lt_one_iff] at h
    subst h
    exact ⟨rfl, rfl⟩
  · exact (cat_mag_extend hn h).2

/-- A value of category 1 to 10 is a nonzero s16. -/
theorem ofInt_signedValue {raw n : Nat} (h : raw < 2 ^ n) (hpos : 1 ≤ n) (hn : n ≤ 10) :
    BitVec.ofInt 16 (signedValue raw n) ≠ 0#16 ∧ (BitVec.ofInt 16 (signedValue raw n)).toInt = signedValue raw n := by
  obtain ⟨hcat, -⟩ := cat_mag_signedValue h
  have hlt : (signedValue raw n).natAbs < 2 ^ n := by
    have := lt_two_pow_bitlen (signedValue raw n).natAbs
    rwa [← cat, hcat] at this
  have hpow : 2 ^ n ≤ 2 ^ 10 := Nat.pow_le_pow_right (by omega) hn
  have hint : (BitVec.ofInt 16 (signedValue raw n)).toInt = signedValue raw n := by
    rw [BitVec.toInt_ofInt, Int.bmod_eq_of_le] <;> omega
  refine ⟨fun e => ?_, hint⟩
  rw [← hint, e, BitVec.toInt_zero, cat_zero] at hcat
  omega

/-- The DC symbol of a category and its magnitude bits. -/
theorem symbolBits_dc (tab : List Entry) {n : Nat} (raw : Nat) (hn : n ≤ 11) :
    symbolBits tab (BitVec.ofNat 8 n, raw) = codeOf tab (BitVec.ofNat 8 n) ++ bitsOf raw n := by
  rw [symbolBits, BitVec.toNat_ofNat, Nat.mod_eq_of_lt (show n < 2 ^ 8 by omega), Nat.mod_eq_of_lt (show n < 16 by omega)]

/-- The symbol of a run and a size. -/
def acSymbol (run size : Nat) : Byte := BitVec.ofNat 8 (16 * run + size)

theorem acSymbol_parts {run size : Nat} (hr : run < 16) (hs : size < 16) :
    (acSymbol run size).toNat / 16 = run ∧ (acSymbol run size).toNat % 16 = size := by
  rw [acSymbol, BitVec.toNat_ofNat, Nat.mod_eq_of_lt (by omega)]
  omega

theorem acSymbol_of_parts (x : Byte) : acSymbol (x.toNat / 16) (x.toNat % 16) = x := by
  rw [acSymbol, Nat.div_add_mod, BitVec.ofNat_toNat, BitVec.setWidth_eq]

/-! ## The DC difference (R240) -/

section
variable {tab : List Entry} {diff : Int}

theorem encodeDc_of_wide (h : 11 < cat diff) : encodeDc tab diff = .error (.error .invalidArgument 2#8) := if_pos h

theorem encodeDc_of_missing (h : cat diff ≤ 11) (hc : ¬HasCode tab (BitVec.ofNat 8 (cat diff))) :
    encodeDc tab diff = .error (.error .invalidCode 2#8) := by
  rw [encodeDc, if_neg (by omega), emitSym_of_missing hc]

theorem encodeDc_of_hasCode (h : cat diff ≤ 11) (hc : HasCode tab (BitVec.ofNat 8 (cat diff))) :
    encodeDc tab diff = .ok (symbolBits tab (BitVec.ofNat 8 (cat diff), mag diff (cat diff))) := by
  rw [encodeDc, if_neg (by omega), emitSym_of_hasCode hc, symbolBits_dc tab _ h]

theorem encodeDc_inv {bits : List Bool} (h : encodeDc tab diff = .ok bits) : cat diff ≤ 11 ∧
    HasCode tab (BitVec.ofNat 8 (cat diff)) ∧ bits = symbolBits tab (BitVec.ofNat 8 (cat diff), mag diff (cat diff)) := by
  by_cases hw : 11 < cat diff
  · rw [encodeDc_of_wide hw] at h
    cases h
  · by_cases hc : HasCode tab (BitVec.ofNat 8 (cat diff))
    · rw [encodeDc_of_hasCode (by omega) hc] at h
      exact ⟨by omega, hc, (Except.ok.inj h).symm⟩
    · rw [encodeDc_of_missing (by omega) hc] at h
      cases h

end

/-! ## One AC coefficient (R240) -/

/-- A ZRL, sent for sixteen zeros before a nonzero coefficient. -/
def zrlItem : Byte × Nat := (0xF0#8, 0)

/-- The items that a nonzero coefficient `v` after `r` zeros is sent as: a ZRL for each full sixteen zeros, then its symbol. -/
def acItems (r : Nat) (v : Int) : List (Byte × Nat) :=
  List.replicate (r / 16) zrlItem ++ [(acSymbol (r % 16) (cat v), mag v (cat v))]

theorem emitZrls_of_hasCode {tab : List Entry} {n : Nat} (h : n = 0 ∨ HasCode tab 0xF0#8) :
    emitZrls tab n = .ok ((List.replicate n zrlItem).flatMap (symbolBits tab)) := by
  induction n with
  | zero => rfl
  | succ n ih =>
    have hc : HasCode tab 0xF0#8 := h.resolve_left (Nat.succ_ne_zero n)
    rw [emitZrls, emitSym_of_hasCode hc, ih (.inr hc), List.replicate_succ, List.flatMap_cons,
      show symbolBits tab zrlItem = codeOf tab 0xF0#8 from List.append_nil _]

theorem emitZrls_of_missing {tab : List Entry} {n : Nat} (hn : n ≠ 0) (h : ¬HasCode tab 0xF0#8) :
    emitZrls tab n = .error (.error .invalidCode 2#8) := by
  obtain ⟨n, rfl⟩ := Nat.exists_eq_succ_of_ne_zero hn
  rw [emitZrls, emitSym_of_missing h]

section
variable {tab : List Entry} {r : Nat} {v : Int}

theorem emitAc_of_zrl_missing (hr : r / 16 ≠ 0) (h : ¬HasCode tab 0xF0#8) :
    emitAc tab r v = .error (.error .invalidCode 2#8) := by
  rw [emitAc, emitZrls_of_missing hr h]

variable (hz : r / 16 = 0 ∨ HasCode tab 0xF0#8)
include hz

theorem emitAc_of_wide (h : 10 < cat v) : emitAc tab r v = .error (.error .invalidArgument 3#8) := by
  rw [emitAc, emitZrls_of_hasCode hz]
  exact if_pos h

theorem emitAc_of_missing (h : cat v ≤ 10) (hc : ¬HasCode tab (acSymbol (r % 16) (cat v))) :
    emitAc tab r v = .error (.error .invalidCode 2#8) := by
  rw [emitAc, emitZrls_of_hasCode hz]
  simp only
  rw [if_neg (by omega), ← acSymbol, emitSym_of_missing hc]

theorem emitAc_of_hasCode (h : cat v ≤ 10) (hc : HasCode tab (acSymbol (r % 16) (cat v))) :
    emitAc tab r v = .ok ((acItems r v).flatMap (symbolBits tab)) := by
  obtain ⟨-, hsize⟩ := acSymbol_parts (show r % 16 < 16 by omega) (show cat v < 16 by omega)
  rw [emitAc, emitZrls_of_hasCode hz]
  simp only
  rw [if_neg (by omega), ← acSymbol, emitSym_of_hasCode hc, acItems, List.flatMap_append, List.flatMap_singleton,
    symbolBits, hsize]
  exact congrArg Except.ok (List.append_assoc _ _ _)

end

theorem emitAc_inv {tab : List Entry} {r : Nat} {v : Int} {bits : List Bool} (h : emitAc tab r v = .ok bits) :
    (r / 16 = 0 ∨ HasCode tab 0xF0#8) ∧ cat v ≤ 10 ∧ HasCode tab (acSymbol (r % 16) (cat v)) ∧
      bits = (acItems r v).flatMap (symbolBits tab) := by
  by_cases hz : r / 16 = 0 ∨ HasCode tab 0xF0#8
  · by_cases hw : 10 < cat v
    · rw [emitAc_of_wide hz hw] at h
      cases h
    · by_cases hc : HasCode tab (acSymbol (r % 16) (cat v))
      · rw [emitAc_of_hasCode hz (by omega) hc] at h
        exact ⟨hz, by omega, hc, (Except.ok.inj h).symm⟩
      · rw [emitAc_of_missing hz (by omega) hc] at h
        cases h
  · obtain ⟨hr, hc⟩ := not_or.mp hz
    rw [emitAc_of_zrl_missing hr hc] at h
    cases h

/-- What is sent for a coefficient is a list of AC items. -/
theorem acItem_of_mem_acItems {tab : List Entry} {r : Nat} {v : Int} (hv : v ≠ 0)
    (hz : r / 16 = 0 ∨ HasCode tab 0xF0#8) (hw : cat v ≤ 10) (hc : HasCode tab (acSymbol (r % 16) (cat v)))
    {p : Byte × Nat} (hp : p ∈ acItems r v) : AcItem tab p := by
  rcases List.mem_append.mp hp with hp | hp
  · obtain ⟨hne, rfl⟩ := List.mem_replicate.mp hp
    exact ⟨hz.resolve_left hne, .inl rfl⟩
  · obtain rfl := List.mem_singleton.mp hp
    obtain ⟨-, hsize⟩ := acSymbol_parts (show r % 16 < 16 by omega) (show cat v < 16 by omega)
    refine ⟨hc, .inr ?_⟩
    rw [hsize]
    exact ⟨cat_pos hv, hw, mag_cat_lt v⟩

/-- It stands for the zeros and the coefficient. -/
theorem acItems_values {r : Nat} {z : Half} (hz : z ≠ 0#16) (hw : cat z.toInt ≤ 10) :
    (acItems r z.toInt).flatMap acValues = List.replicate r 0#16 ++ [z] := by
  have hv : z.toInt ≠ 0 := fun e => hz (BitVec.eq_of_toInt_eq e)
  obtain ⟨hrun, hsize⟩ := acSymbol_parts (show r % 16 < 16 by omega) (show cat z.toInt < 16 by omega)
  have hzrls : (List.replicate (r / 16) zrlItem).flatMap acValues = List.replicate (r / 16 * 16) 0#16 := by
    rw [List.flatMap_replicate, acValues_zrl (p := zrlItem) rfl, List.flatten_replicate_replicate]
  have hone : 1 ≤ (acSymbol (r % 16) (cat z.toInt)).toNat % 16 := hsize.symm ▸ cat_pos hv
  rw [acItems, List.flatMap_append, List.flatMap_singleton, hzrls, acValues_value hone, hrun, hsize,
    signedValue_mag, BitVec.ofInt_toInt, ← List.append_assoc, List.replicate_append_replicate,
    Nat.div_add_mod']

/-- An item of size 1 to 10 after `q` ZRLs is what its coefficient is sent as. -/
theorem acItems_of_item {p : Byte × Nat} (h : p.2 < 2 ^ (p.1.toNat % 16)) (q : Nat) :
    acItems (16 * q + p.1.toNat / 16) (signedValue p.2 (p.1.toNat % 16)) = List.replicate q zrlItem ++ [p] := by
  have hrun : p.1.toNat / 16 < 16 := by omega
  obtain ⟨hcat, hmag⟩ := cat_mag_signedValue h
  rw [acItems, hcat, hmag, show (16 * q + p.1.toNat / 16) / 16 = q by omega,
    show (16 * q + p.1.toNat / 16) % 16 = p.1.toNat / 16 by omega, acSymbol_of_parts]

theorem emitAc_item {tab : List Entry} {p : Byte × Nat} (hc : HasCode tab p.1) (hraw : p.2 < 2 ^ (p.1.toNat % 16))
    (hs : p.1.toNat % 16 ≤ 10) {q : Nat} (hq : q = 0 ∨ HasCode tab 0xF0#8) :
    emitAc tab (16 * q + p.1.toNat / 16) (signedValue p.2 (p.1.toNat % 16)) =
      .ok ((List.replicate q zrlItem ++ [p]).flatMap (symbolBits tab)) := by
  obtain ⟨hcat, -⟩ := cat_mag_signedValue hraw
  rw [← acItems_of_item hraw q]
  refine emitAc_of_hasCode (hq.imp_left fun h => by omega) (hcat.trans_le hs) ?_
  rwa [hcat, show (16 * q + p.1.toNat / 16) % 16 = p.1.toNat / 16 by omega, acSymbol_of_parts]

/-! ## The AC coefficients (R240) -/

theorem encodeAc_cons_ok {tab : List Entry} {z : Half} {l : List Half} {r : Nat} {bits : List Bool} (hz : z ≠ 0#16)
    (h : emitAc tab r z.toInt = .ok bits) :
    encodeAc tab (z :: l) r = (encodeAc tab l 0).map (bits ++ ·) := by
  rw [encodeAc, if_neg hz, h]
  cases encodeAc tab l 0 <;> rfl

theorem encodeAc_cons_error {tab : List Entry} {z : Half} {l : List Half} {r : Nat} {e : Raise} (hz : z ≠ 0#16)
    (h : emitAc tab r z.toInt = .error e) : encodeAc tab (z :: l) r = .error e := by
  rw [encodeAc, if_neg hz, h]

theorem encodeAc_cons_inv {tab : List Entry} {z : Half} {l : List Half} {r : Nat} {bits : List Bool} (hz : z ≠ 0#16)
    (h : encodeAc tab (z :: l) r = .ok bits) :
    ∃ zbits more, emitAc tab r z.toInt = .ok zbits ∧ encodeAc tab l 0 = .ok more ∧ bits = zbits ++ more := by
  rw [encodeAc, if_neg hz] at h
  split at h
  · cases h
  · split at h <;> cases h
    exact ⟨_, _, ‹_›, ‹_›, rfl⟩

/-- AC items that do not end in a ZRL are sent as they are, after the `q` ZRLs that the zeros before them are due. -/
theorem encodeAc_items {tab : List Entry} (l : List Half) {items : List (Byte × Nat)} (hp : ∀ p ∈ items, AcItem tab p)
    (hlast : items.getLast?.map Prod.fst ≠ some 0xF0#8) {q : Nat} (hq : q = 0 ∨ (HasCode tab 0xF0#8 ∧ items ≠ [])) :
    encodeAc tab (items.flatMap acValues ++ l) (16 * q) =
      (encodeAc tab l 0).map ((List.replicate q zrlItem ++ items).flatMap (symbolBits tab) ++ ·) := by
  induction items generalizing q with
  | nil =>
    obtain rfl := hq.resolve_right fun h => h.2 rfl
    change encodeAc tab l 0 = _
    cases encodeAc tab l 0 <;> rfl
  | cons p items ih =>
    obtain ⟨hcode, hpv⟩ := hp p (by simp)
    have hp' : ∀ p ∈ items, AcItem tab p := fun p hm => hp p (by simp [hm])
    rw [List.flatMap_cons, List.append_assoc]
    rcases hpv with rfl | ⟨hs, hs', hraw⟩
    · have hne : items ≠ [] := by
        rintro rfl
        exact hlast rfl
      have hlast' : items.getLast?.map Prod.fst ≠ some 0xF0#8 := by
        rwa [List.getLast?_cons_of_ne_nil hne] at hlast
      rw [acValues_zrl rfl, encodeAc_zeros, ← Nat.mul_succ, ih hp' hlast' (.inr ⟨hcode, hne⟩), List.replicate_succ',
        List.append_assoc]
      rfl
    · obtain ⟨hne, hv⟩ := ofInt_signedValue hraw hs hs'
      have hlast' : items.getLast?.map Prod.fst ≠ some 0xF0#8 := by
        rcases items with _ | ⟨p', items⟩
        · simp
        · rwa [List.getLast?_cons_cons] at hlast
      have hemit := emitAc_item hcode hraw hs' (hq.imp_right And.left)
      rw [acValues_value hs, List.append_assoc, encodeAc_zeros, List.singleton_append,
        encodeAc_cons_ok hne (hv.symm ▸ hemit), ih (q := 0) hp' hlast' (.inl rfl)]
      cases encodeAc tab l 0 <;> simp [Except.map]

/-- What the encoder sends for the AC coefficients after `r` zeros: AC items, and one EOB if zeros follow them. -/
theorem encodeAc_inv {tab : List Entry} {l : List Half} {r : Nat} {bits : List Bool} (h : encodeAc tab l r = .ok bits) :
    ∃ (items : List (Byte × Nat)) (n : Nat), (∀ p ∈ items, AcItem tab p) ∧
      List.replicate r 0#16 ++ l = items.flatMap acValues ++ List.replicate n 0#16 ∧
      ((n = 0 ∧ bits = items.flatMap (symbolBits tab)) ∨
        (0 < n ∧ HasCode tab 0x00#8 ∧ bits = items.flatMap (symbolBits tab) ++ codeOf tab 0x00#8)) := by
  induction l generalizing r bits with
  | nil =>
    refine ⟨[], r, by simp, by simp, ?_⟩
    rw [encodeAc] at h
    split_ifs at h with hr
    · obtain ⟨hc, rfl⟩ := hasCode_of_emitSym h
      exact .inr ⟨hr, hc, rfl⟩
    · cases h
      exact .inl ⟨by omega, rfl⟩
  | cons z l ih =>
    by_cases hz : z = 0#16
    · rw [encodeAc, if_pos hz] at h
      have hsplit : List.replicate r 0#16 ++ z :: l = List.replicate (r + 1) 0#16 ++ l := by
        rw [hz, List.replicate_succ', List.append_assoc, List.singleton_append]
      rw [hsplit]
      exact ih h
    · obtain ⟨zbits, more, hb, hm, rfl⟩ := encodeAc_cons_inv hz h
      obtain ⟨items, n, hp, hl, hbits⟩ := ih hm
      rw [List.replicate_zero, List.nil_append] at hl
      obtain ⟨hzrl, hw, hc, rfl⟩ := emitAc_inv hb
      refine ⟨acItems r z.toInt ++ items, n, fun p hpm => ?_, ?_, ?_⟩
      · rcases List.mem_append.mp hpm with hpm | hpm
        · exact acItem_of_mem_acItems (fun e => hz (BitVec.eq_of_toInt_eq e)) hzrl hw hc hpm
        · exact hp p hpm
      · rw [hl, List.flatMap_append, acItems_values hz hw]
        simp
      · rw [List.flatMap_append, List.append_assoc]
        exact hbits.imp (fun h => ⟨h.1, by rw [h.2]⟩) fun h => ⟨h.1, h.2.1, by rw [h.2.2]⟩

/-! ## What HDEC reads back (R230, R241) -/

/-- What the encoder sends for a block is a front that stands for the block, or for all but its last zeros, which EOB gives. -/
theorem encodeBlock_inv {dcTab acTab : List Entry} {pred : Half} {z : List Half} {bits : List Bool} (hz : z.length = 64)
    (h : encodeBlock dcTab acTab pred z = .ok bits) :
    CodedFront dcTab acTab pred z bits ∨
    ∃ z' front, CodedFront dcTab acTab pred z' front ∧ z'.length ≤ 63 ∧ HasCode acTab 0x00#8 ∧ z = padBlock z' ∧
      bits = front ++ codeOf acTab 0x00#8 := by
  obtain ⟨dc, l, rfl⟩ := List.exists_cons_of_length_pos (show 0 < z.length by omega)
  rw [encodeBlock] at h
  split at h
  · cases h
  rename_i dcBits hdc
  split at h <;> cases h
  rename_i acBits hac
  obtain ⟨hcat, hcode, rfl⟩ := encodeDc_inv hdc
  obtain ⟨items, n, hp, hl, hbits⟩ := encodeAc_inv hac
  generalize hdiff : (List.getD (dc :: l) 0 0#16).toInt - pred.toInt = diff at hcat hcode
  have ht : (BitVec.ofNat 8 (cat diff)).toNat = cat diff := by
    rw [BitVec.toNat_ofNat]
    omega
  have hval : dc = pred + BitVec.ofInt 16 (signedValue (mag diff (cat diff)) (BitVec.ofNat 8 (cat diff)).toNat) := by
    rw [ht, signedValue_mag, ← hdiff, ← BitVec.ofInt_toInt (x := pred), ← BitVec.ofInt_add]
    simp
  have hfront : CodedFront dcTab acTab pred (dc :: items.flatMap acValues)
      (symbolBits dcTab (BitVec.ofNat 8 (cat diff), mag diff (cat diff)) ++ items.flatMap (symbolBits acTab)) :=
    ⟨BitVec.ofNat 8 (cat diff), mag diff (cat diff), items, ⟨hcode, by omega, by rw [ht]; exact mag_cat_lt diff, hp, rfl⟩,
      congrArg (· :: _) hval⟩
  rw [List.replicate_zero, List.nil_append, List.drop_one, List.tail_cons] at hl
  rcases hbits with ⟨rfl, rfl⟩ | ⟨hn, heob, rfl⟩
  · rw [List.replicate_zero, List.append_nil] at hl
    exact .inl (hl ▸ hfront)
  · have hlen := congrArg List.length hl
    rw [List.length_append, List.length_replicate] at hlen
    rw [List.length_cons] at hz
    refine .inr ⟨_, _, hfront, by rw [List.length_cons]; omega, heob, ?_, (List.append_assoc _ _ _).symm⟩
    rw [padBlock, hl, List.length_cons, List.cons_append]
    congr 3
    omega

/-- The block decoder reads back what the encoder sent. -/
theorem decodeBlock_encodeBlock {dcTab acTab : List Entry} (hdr : ReadsCodes dcTab) (har : ReadsCodes acTab) {pred : Half}
    {z : List Half} {bits : List Bool} (hz : z.length = 64) (h : encodeBlock dcTab acTab pred z = .ok bits) {src : Source}
    {c c' : Cursor} (hb : BitsAt src bits c c') : decodeBlock dcTab acTab src pred c = .ok (z, c') := by
  rcases encodeBlock_inv hz h with hf | ⟨z', front, hf, hz', heob, rfl, rfl⟩
  · exact decodeBlock_whole hdr har hf hz hb
  · exact decodeBlock_eob hdr har hf hz' heob hb

/-- Settles O29: the decoded block is stored. -/
theorem hdecDecodesEncodedBlock : Obligations.HdecDecodesEncodedBlock := by
  intro s slot comp dct act z bits c hslot _ hdct hact hz hd ha htab henc hb
  have hdr := readsCodes_of_checkTable (htab dct (by omega) hd)
  have har := readsCodes_of_checkTable (htab (4 + act) (by omega) ha)
  refine ⟨_, exec_hdec_ok hslot hd ha (decodeBlock_encodeBlock hdr har hz henc hb), fun k hk => ?_,
    read_coefStores_other s.mem slot z hz⟩
  rw [coef_coefStores s.mem slot z k (by omega), List.getD_eq_getElem]

/-! ## A front of a block, and what follows it (R240) -/

theorem encodeBlock_of_dc_error {dcTab acTab : List Entry} {pred : Half} {z : List Half} {r : Raise}
    (h : encodeDc dcTab ((z.getD 0 0#16).toInt - pred.toInt) = .error r) : encodeBlock dcTab acTab pred z = .error r := by
  rw [encodeBlock, h]

/-- After a front the encoder sends what the remaining coefficients need. -/
theorem encodeBlock_front {dcTab acTab : List Entry} {pred : Half} {z : List Half} {bits : List Bool}
    (hf : EncodedFront dcTab acTab pred z bits) (l : List Half) :
    encodeBlock dcTab acTab pred (z ++ l) = (encodeAc acTab l 0).map (bits ++ ·) := by
  obtain ⟨t, raw, items, dc, ⟨hcode, ht, hraw, hp, rfl⟩, hdiff, hlast, rfl⟩ := hf
  obtain ⟨hcat, hmag⟩ := cat_mag_signedValue hraw
  have hsym : BitVec.ofNat 8 t.toNat = t := by rw [BitVec.ofNat_toNat, BitVec.setWidth_eq]
  have hdc : encodeDc dcTab (dc.toInt - pred.toInt) = .ok (symbolBits dcTab (t, raw)) := by
    rw [← hdiff, encodeDc_of_hasCode (by omega) (by rwa [hcat, hsym]), hcat, hmag, hsym]
  have hac := encodeAc_items (tab := acTab) l hp hlast (q := 0) (.inl rfl)
  rw [Nat.mul_zero, List.replicate_zero, List.nil_append] at hac
  rw [encodeBlock, List.cons_append, List.getD_cons_zero, hdc, List.drop_one, List.tail_cons, hac]
  cases encodeAc acTab l 0 <;> simp [Except.map]

@[simp] theorem coefBlock_length (m : Memory) (slot : Nat) : (m.coefBlock slot).length = 64 := by
  rw [Memory.coefBlock, List.length_map, List.length_range]

theorem coefBlock_getElem (m : Memory) (slot : Nat) {k : Nat} (hk : k < (m.coefBlock slot).length) :
    (m.coefBlock slot)[k] = m.coef slot k := by
  simp [Memory.coefBlock]

/-- The coefficients from `i + 1` on, when those before `k` are zeros. -/
theorem coefBlock_drop {m : Memory} {slot i k : Nat} (hik : i < k) (hk : k ≤ 64)
    (h : ∀ j, i < j → j < k → m.coef slot j = 0#16) :
    (m.coefBlock slot).drop (i + 1) = List.replicate (k - 1 - i) 0#16 ++ (m.coefBlock slot).drop k := by
  refine List.ext_getElem (by simp; omega) fun j h1 h2 => ?_
  rw [List.getElem_drop, coefBlock_getElem]
  by_cases hj : j < k - 1 - i
  · rw [List.getElem_append_left (by simpa using hj), List.getElem_replicate, h _ (by omega) (by omega)]
  · rw [List.getElem_append_right (by simp; omega), List.getElem_drop, coefBlock_getElem, List.length_replicate]
    congr 1
    omega

section
variable {dcTab acTab : List Entry} {pred : Half} {m : Memory} {slot i : Nat} {bits : List Bool}
  (hf : EncodedFront dcTab acTab pred ((m.coefBlock slot).take (i + 1)) bits)
include hf

/-- With only zeros after the front, the encoder sends the front and what ends a run of zeros. -/
theorem encodeBlock_zeros (hi : i ≤ 63) (h : ∀ j, i < j → j < 64 → m.coef slot j = 0#16) :
    encodeBlock dcTab acTab pred (m.coefBlock slot) = (encodeAc acTab [] (63 - i)).map (bits ++ ·) := by
  have henc := encodeBlock_front hf ((m.coefBlock slot).drop (i + 1))
  rwa [List.take_append_drop, coefBlock_drop (by omega) le_rfl h, encodeAc_zeros, Nat.zero_add,
    List.drop_of_length_le (by simp)] at henc

/-- What the next nonzero coefficient raises is raised. -/
theorem encodeBlock_coef_error {k : Nat} (hik : i < k) (hk : k < 64)
    (h : ∀ j, i < j → j < k → m.coef slot j = 0#16) (hne : m.coef slot k ≠ 0#16) {r : Raise}
    (he : emitAc acTab (k - 1 - i) (m.coef slot k).toInt = .error r) :
    encodeBlock dcTab acTab pred (m.coefBlock slot) = .error r := by
  have henc := encodeBlock_front hf ((m.coefBlock slot).drop (i + 1))
  rw [List.take_append_drop, coefBlock_drop hik hk.le h, encodeAc_zeros, Nat.zero_add,
    List.drop_eq_getElem_cons (by simpa using hk), coefBlock_getElem, encodeAc_cons_error hne he] at henc
  exact henc

end

/-! ## How HENC ends (R221, R222, R240, R352) -/

section
variable {s : State} {slot comp dct act : Nat} (hslot : slot ≤ 5) (hd : s.htValid.getLsbD dct = true)
  (ha : s.htValid.getLsbD (4 + act) = true)
include hslot hd ha

theorem exec_henc_error {e : ErrorCode} {d : Byte}
    (h : encodeBlock (htTable s.mem dct) (htTable s.mem (4 + act)) (s.dcPred.get comp) (s.mem.coefBlock slot) =
      .error (.error e d)) : exec (.henc slot comp dct act) s = .next (errorState s 0x11#8 e.code d) :=
  exec_of_body_error (i := .henc slot comp dct act) (by
    rw [body, hencBody, checkSlot_ok hslot, checkTables_of_built hd ha, dcTableIndex_eq, acTableIndex_eq, h])

variable {bits : List Bool}
  (h : encodeBlock (htTable s.mem dct) (htTable s.mem (4 + act)) (s.dcPred.get comp) (s.mem.coefBlock slot) = .ok bits)
include h

/-- With its operands checked and its block encoded, HENC is FlushOut and the new predictor. -/
theorem hencBody_of_encoded : hencBody slot comp dct act s = (flushOut s (s.pendingBits ++ bits)).map
    fun t => { t with dcPred := t.dcPred.set comp (s.mem.coef slot 0) } := by
  rw [hencBody, checkSlot_ok hslot, checkTables_of_built hd ha, dcTableIndex_eq, acTableIndex_eq, h]
  simp only
  cases flushOut s (s.pendingBits ++ bits) <;> rfl

theorem exec_henc_fits
    (hfit : s.wrPos.toNat + (outBytes (s.pendingBits ++ bits)).length ≤ s.params.obufBytes) :
    exec (.henc slot comp dct act) s = .next (doneState
      { s with
        mem := s.mem.writeAll (obufStores s.wrPos.toNat (outBytes (s.pendingBits ++ bits))),
        dcPred := s.dcPred.set comp (s.mem.coef slot 0),
        wrPos := BitVec.ofNat 17 (s.wrPos.toNat + (outBytes (s.pendingBits ++ bits)).length),
        wrBit := BitVec.ofNat 3 (packBytes (s.pendingBits ++ bits)).2.length,
        wrAcc := BitVec.ofNat 7 (bitsValue (packBytes (s.pendingBits ++ bits)).2) }) :=
  exec_of_body_ok (i := .henc slot comp dct act)
    (by rw [body, hencBody_of_encoded hslot hd ha h, flushOut_fits hfit]; rfl)

theorem exec_henc_full
    (hfull : s.params.obufBytes < s.wrPos.toNat + (outBytes (s.pendingBits ++ bits)).length) :
    exec (.henc slot comp dct act) s = .next (outFullState s) :=
  exec_of_body_outFull (i := .henc slot comp dct act)
    (by rw [body, hencBody_of_encoded hslot hd ha h, flushOut_full hfull]; rfl)

end

/-- Settles O32: FlushOut of an encoded block, or what the encoder raises for the DC difference or after a front. -/
theorem hencWritesEncodedBlock : Obligations.HencWritesEncodedBlock := by
  intro s slot comp dct act hslot hd ha dcTab acTab pred z henc missing diff
  have err {e d} (h : encodeBlock dcTab acTab pred z = .error (.error e d)) :
      henc = .next (errorState s 0x11#8 e.code d) := exec_henc_error hslot hd ha h
  refine ⟨fun bits hb => ?_, fun e d => err, fun hw => ?_, fun hcat hmiss => ?_, fun i bits hi hf => ?_⟩
  · intro out left
    exact ⟨fun hfit => ⟨_, exec_henc_fits hslot hd ha hb hfit, packBytes_left _, read_obufStores s.mem _ _,
      read_obufStores_other s.mem _ _⟩, exec_henc_full hslot hd ha hb⟩
  · exact err (encodeBlock_of_dc_error (encodeDc_of_wide hw))
  · exact err (encodeBlock_of_dc_error (encodeDc_of_missing hcat hmiss))
  refine ⟨?_, fun hi hzero => ?_, fun k hik hk hzero hne => ?_⟩
  · rintro rfl
    rw [encodeBlock_zeros hf le_rfl (fun j h1 h2 => by omega)]
    exact congrArg Except.ok (List.append_nil bits)
  · have henc : encodeBlock dcTab acTab pred z = (emitSym acTab 0x00#8).map (bits ++ ·) := by
      rw [encodeBlock_zeros hf hi.le hzero, encodeAc, if_pos (by omega)]
    constructor
    · intro hc
      rw [henc, emitSym_of_hasCode hc]
      rfl
    · intro hc
      exact err (by rw [henc, emitSym_of_missing hc]; rfl)
  · have errAt {e d} (h : emitAc acTab (k - 1 - i) (s.mem.coef slot k).toInt = .error (.error e d)) :
        henc = .next (errorState s 0x11#8 e.code d) := err (encodeBlock_coef_error hf hik hk hzero hne h)
    intro run size
    refine ⟨fun hr hmiss => errAt (emitAc_of_zrl_missing (by omega) hmiss), fun hz => ?_⟩
    have hz' : run / 16 = 0 ∨ HasCode acTab 0xF0#8 := by
      by_cases hr : 16 ≤ run
      · exact .inr (not_not.mp (hz hr))
      · exact .inl (by omega)
    exact ⟨fun hw => errAt (emitAc_of_wide hz' hw), fun hw hmiss => errAt (emitAc_of_missing hz' hw hmiss)⟩

/-! ## The frame of HENC (R240, 70_reset_and_hazards.md R394) -/

/-- Settles O33: an ok HENC stores the output, the writer's registers and the predictor; any other moves no data. -/
theorem hencFrame : Obligations.HencFrame := by
  intro s t slot comp dct act hcomp h
  rw [exec_eq] at h
  obtain rfl := Host.Outcome.next.inj h
  cases hb : body (.henc slot comp dct act) s with
  | error r =>
    rw [complete_error_frame]
    exact ⟨rfl, fun _ _ _ => rfl, fun _ _ => rfl⟩
  | ok u =>
    obtain ⟨-, -, bits, v, henc, hflush, rfl⟩ := hencBody_ok hb
    obtain ⟨-, rfl⟩ := flushOut_ok hflush
    rw [dcTableIndex_eq, acTableIndex_eq] at henc
    exact ⟨rfl, fun k hk hne => get_set_other _ _ hcomp hk hne,
      fun a hout => read_obufStores_other s.mem _ _ a (hout bits henc)⟩

end Sys2Proof.Proofs
end

section
/-! PROOFS. IDCT and FDCT (43_transform.md R260 to R270): the table check, what each command writes under the exact and under a
supplied transform, the closed forms of constant blocks, and the round trip. -/

namespace Sys2Proof.Proofs

open Sys2Proof.Machine Sys2Proof.Claims

/-! ## The quantization-table check (R261) -/

theorem checkQt_of_zero {m : Memory} {q : Nat} (h : ∃ k < 64, m.qt q k = 0#16) :
    checkQt m q = .error (.error .malformedTable 6#8) := by
  cases hc : checkQt m q with
  | error r => rw [(checkQt_error hc).2]
  | ok u =>
    obtain ⟨k, hk, hzero⟩ := h
    exact absurd hzero (checkQt_ok.mp hc k hk)

/-- The slot passes, the table does not: the second check of both transform commands. -/
theorem transformBodies_zeroQt {s : State} {slot q : Nat} (hslot : slot ≤ 5) (h : ∃ k < 64, s.mem.qt q k = 0#16) :
    let r : Except Raise State := .error (.error .malformedTable 6#8)
    body (.idct slot q) s = r ∧ body (.fdct slot q) s = r := by
  simp only [body, idctBody, fdctBody, checkSlot_ok hslot, checkQt_of_zero h, and_self]

/-- Settles O17: the slot check comes first, the table check second. -/
theorem zeroQuantizerRaisesMalformedTable : Obligations.ZeroQuantizerRaisesMalformedTable := by
  intro s slot q h
  constructor
  · intro hslot
    obtain ⟨idct, fdct⟩ := transformBodies_zeroQt hslot h
    exact ⟨exec_of_body_error idct, exec_of_body_error fdct⟩
  · intro hslot
    obtain ⟨-, -, idct, fdct⟩ := blockBodies_badSlot hslot s q 0 0
    exact ⟨exec_of_body_error idct, exec_of_body_error fdct⟩

/-! ## What the commands store, in every transform model (R263, R264) -/

section
variable {s : State} {slot q : Nat} (hslot : slot ≤ 5) (hq : ∀ k < 64, s.mem.qt q k ≠ 0#16)
include hslot hq

/-- IDCT with a table without a zero stores its samples in the slot and nothing else. -/
theorem exec_idct_ok : ∃ m, exec (.idct slot q) s = .next (doneState { s with mem := m }) ∧
    (∀ i < 64, m.smp slot i = (idctSamples s.params.transform (dequantize s.mem slot q)).getD i 0#8) ∧
    (∀ a, (∀ i < 64, a ≠ smpAddr slot i) → m.read a = s.mem.read a) := by
  have hbody : body (.idct slot q) s = .ok { s with
      mem := s.mem.writeAll (smpStores slot (idctSamples s.params.transform (dequantize s.mem slot q))) } := by
    simp only [body, idctBody, checkSlot_ok hslot, checkQt_ok.mpr hq]
  refine ⟨_, exec_of_body_ok hbody, fun i hi => ?_, read_smpStores_other _ slot _ (idctSamples_length _ _)⟩
  have hlen : i < (idctSamples s.params.transform (dequantize s.mem slot q)).length := by rwa [idctSamples_length]
  rw [smp_smpStores _ _ _ _ hlen, List.getD_eq_getElem _ _ hlen]

/-- FDCT with a table without a zero stores its coefficients in the slot and nothing else. -/
theorem exec_fdct_ok : ∃ m, exec (.fdct slot q) s = .next (doneState { s with mem := m }) ∧
    (∀ k < 64, m.coef slot k =
      (fdctCoefs s.params.transform (levelShift s.mem slot) (s.mem.qtTable q)).getD k 0#16) ∧
    (∀ a, (∀ k < 64, a ≠ coefAddr slot k ∧ a ≠ coefAddr slot k + 1) → m.read a = s.mem.read a) := by
  have hbody : body (.fdct slot q) s = .ok { s with
      mem := s.mem.writeAll
        (coefStores slot (fdctCoefs s.params.transform (levelShift s.mem slot) (s.mem.qtTable q))) } := by
    simp only [body, fdctBody, checkSlot_ok hslot, checkQt_ok.mpr hq]
  refine ⟨_, exec_of_body_ok hbody, fun k hk => ?_, read_coefStores_other _ slot _ (fdctCoefs_length _ _ _)⟩
  have hlen : k < (fdctCoefs s.params.transform (levelShift s.mem slot) (s.mem.qtTable q)).length := by
    rwa [fdctCoefs_length]
  rw [coef_coefStores _ _ _ _ hlen, List.getD_eq_getElem _ _ hlen]

end

/-! ## The elements the transforms read and write (R269) -/

theorem getD_map_range64 {α : Type} (f : Nat → α) (d : α) {k : Nat} (hk : k < 64) :
    ((List.range 64).map f).getD k d = f k := by
  rw [List.getD_eq_getElem _ _ (by simpa using hk), List.getElem_map, List.getElem_range]

theorem qtTable_getD (m : Memory) (q : Nat) {k : Nat} (hk : k < 64) : (m.qtTable q).getD k 0#16 = m.qt q k :=
  getD_map_range64 _ _ hk

/-- Dequantization pairs coefficient and table entry by zig-zag position (R263, R265). -/
theorem dequantize_getD_zz (m : Memory) (slot q : Nat) {k : Nat} (hk : k < 64) :
    (dequantize m slot q).getD (zz k) 0 = (m.coef slot k).toInt * ((m.qt q k).toNat : ℤ) := by
  rw [dequantize, getD_map_range64 _ _ (zz_lt k hk), izz_zz k hk]

theorem levelShift_getD (m : Memory) (slot : Nat) {i : Nat} (hi : i < 64) :
    (levelShift m slot).getD i 0 = ((m.smp slot i).toNat : ℤ) - 128 := by
  rw [levelShift, Memory.smpBlock, List.map_map, getD_map_range64 _ _ hi]
  rfl

/-- Quantization pairs transform output and table entry by zig-zag position (R264). -/
theorem quantize_getD (quotient : Nat → Nat → Int) (m : Memory) (q : Nat) {k : Nat} (hk : k < 64) :
    (quantize quotient (m.qtTable q)).getD k 0#16 = wrap16 (quotient (zz k) (m.qt q k).toNat) := by
  rw [quantize, getD_map_range64 _ _ hk, qtTable_getD m q hk]

/-! ## Under a supplied transform (R268) -/

theorem idctSamples_supplied (d : List Int) {i : Nat} (hi : i < 64) :
    (idctSamples .supplied d).getD i 0#8 = Config.idctImpl d i :=
  getD_map_range64 _ _ hi

theorem fdctCoefs_supplied (g : List Int) {m : Memory} {q k : Nat} (hk : k < 64) (hq : m.qt q k ≠ 0#16) :
    (fdctCoefs .supplied g (m.qtTable q)).getD k 0#16 =
      wrap16 (rndReal ((Config.fdctTransform g (m.qtTable q) (zz k) : ℝ) / (m.qt q k).toNat)) := by
  rw [fdctCoefs, fdctSupplied, quantize_getD _ _ _ hk, suppliedQuotient_eq _ _ _ _ (BitVec.toNat_pos_of_ne_zero hq)]

/-- Settles O37: both commands store what the supplied functions give, FDCT after the division and its rounding. -/
theorem suppliedTransformIsUsed : Obligations.SuppliedTransformIsUsed := by
  intro s slot q hslot _ hmodel hq
  obtain ⟨m, hidct, hsmp, hframe⟩ := exec_idct_ok hslot hq
  obtain ⟨m', hfdct, hcoef, hframe'⟩ := exec_fdct_ok hslot hq
  refine ⟨⟨m, hidct, fun i hi => ?_, hframe⟩, m', hfdct, fun k hk => ?_, hframe'⟩
  · rw [hsmp i hi, hmodel, idctSamples_supplied _ hi]
  · rw [hcoef k hk, hmodel, fdctCoefs_supplied _ hk (hq k hk)]

/-! ## Under EXACT: the inverse transform (R262, R263) -/

/-- IDCT_ref looks at the 64 integers of the block alone. -/
theorem idctRef_congr {d d' : Nat → ℤ} (h : ∀ n < 64, d n = d' n) (x y : Nat) : idctRef d x y = idctRef d' x y := by
  unfold idctRef
  congr 1
  refine Finset.sum_congr rfl fun u hu => Finset.sum_congr rfl fun v hv => ?_
  rw [Finset.mem_range] at hu hv
  rw [h (8 * v + u) (by omega)]

theorem idctSamples_exact (d : List Int) {x y : Nat} (hx : x < 8) (hy : y < 8) :
    (((idctSamples .exact d).getD (8 * y + x) 0#8).toNat : ℤ) =
      clamp255 (rndReal (idctRef (fun n => d.getD n 0) x y) + 128) := by
  have hlen : 8 * y + x < (idct16 d).length := by simp [idct16, idctColumns]; omega
  have hvalue := idct16_value d x y hx hy
  rw [List.getD_eq_getElem _ _ hlen] at hvalue
  rw [idctSamples, idctExact, List.getD_eq_getElem _ _ (by rwa [List.length_map]), List.getElem_map, toNat_clampByte,
    rndDiv_toQuad _ _ (by norm_num), hvalue, Nat.cast_ofNat, mul_div_cancel_left₀ _ (by norm_num)]

/-- Every natural index is the index of a zig-zag position, so `d` is the dequantized block. -/
theorem eq_dequantize {m : Memory} {slot q : Nat} {d : Nat → ℤ}
    (hd : ∀ k < 64, d (zz k) = (m.coef slot k).toInt * ((m.qt q k).toNat : ℤ)) :
    ∀ n < 64, (dequantize m slot q).getD n 0 = d n := by
  intro n hn
  have hk := izz_lt n hn
  rw [← zz_izz n hn, dequantize_getD_zz m slot q hk, hd _ hk]

/-- Settles O35: the separable passes give 16 · IDCT_ref of the dequantized block, rounded and clamped once. -/
theorem idctIsRoundedExactTransform : Obligations.IdctIsRoundedExactTransform := by
  intro s slot q d hslot _ hmodel hq hd
  obtain ⟨m, hidct, hsmp, hframe⟩ := exec_idct_ok hslot hq
  refine ⟨m, hidct, fun x hx y hy => ?_, hframe⟩
  rw [hsmp _ (by omega), hmodel, idctSamples_exact _ hx hy, idctRef_congr (eq_dequantize hd)]

/-! ## Under EXACT: the forward transform (R264, R266) -/

/-- FDCT_ref looks at the 64 integers of the block alone. -/
theorem fdctRef_congr {g g' : Nat → ℤ} (h : ∀ i < 64, g i = g' i) (u v : Nat) : fdctRef g u v = fdctRef g' u v := by
  unfold fdctRef
  congr 1
  refine Finset.sum_congr rfl fun x hx => Finset.sum_congr rfl fun y hy => ?_
  rw [Finset.mem_range] at hx hy
  rw [h (8 * y + x) (by omega)]

theorem abs_cos2_le_two (k : ℤ) : |cos2 k| ≤ 2 := by
  rw [cos2, abs_mul, abs_two]
  linarith [Real.abs_cos_le_one (k * Real.pi / 16)]

/-- A bound that keeps the coefficients inside s16; R266's own, 1024, is sharper. -/
theorem abs_fdctRef_le {g : Nat → ℤ} (hg : ∀ i < 64, |g i| ≤ 128) (u v : Nat) : |fdctRef g u v| ≤ 2048 := by
  have hterm : ∀ x ∈ Finset.range 8, ∀ y ∈ Finset.range 8,
      |(g (8 * y + x) : ℝ) * (cos2 (angle x u) * cos2 (angle y v))| ≤ 128 * (2 * 2) := by
    intro x hx y hy
    rw [Finset.mem_range] at hx hy
    have hsample : |(g (8 * y + x) : ℝ)| ≤ 128 := by exact_mod_cast hg (8 * y + x) (by omega)
    rw [abs_mul, abs_mul]
    gcongr <;> exact abs_cos2_le_two _
  have hsum : |∑ x ∈ Finset.range 8, ∑ y ∈ Finset.range 8,
        (g (8 * y + x) : ℝ) * (cos2 (angle x u) * cos2 (angle y v))| ≤
      ∑ _x ∈ Finset.range 8, ∑ _y ∈ Finset.range 8, (128 * (2 * 2) : ℝ) :=
    (Finset.abs_sum_le_sum_abs _ _).trans <| Finset.sum_le_sum fun x hx =>
      (Finset.abs_sum_le_sum_abs _ _).trans <| Finset.sum_le_sum fun y hy => hterm x hx y hy
  rw [fdctRef_eq, abs_mul, abs_of_pos (by norm_num : (0 : ℝ) < 1 / 16)]
  norm_num at hsum
  linarith

/-- Quotients of coefficients no larger than 2048 round to s16 values, whatever the divisor (R266). -/
theorem toInt_wrap16_rndReal {v : ℝ} (hv : |v| ≤ 2048) {d : Nat} (hd : 0 < d) :
    (wrap16 (rndReal (v / d))).toInt = rndReal (v / d) := by
  have hquot : |v / d| ≤ 2048 := by
    rw [abs_div, Nat.abs_cast]
    exact (div_le_self (abs_nonneg v) (by exact_mod_cast hd)).trans hv
  have hnear := abs_le.mp (abs_sub_rndReal (v / d))
  have hbound := abs_le.mp hquot
  have hlow : (-32768 : ℝ) ≤ rndReal (v / d) := by linarith
  have hhigh : (rndReal (v / d) : ℝ) ≤ 32767 := by linarith
  exact toInt_wrap16 _ (by exact_mod_cast hlow) (by exact_mod_cast hhigh)

theorem exactQuotient_eq (g : List Int) {n d : Nat} (hn : n < 64) (hd : 0 < d) :
    exactQuotient (fdct16 g) n d = rndReal (fdctRef (fun i => g.getD i 0) (n % 8) (n / 8) / d) := by
  have hvalue := fdct16_value g (n % 8) (n / 8) (by omega) (by omega)
  rw [Nat.div_add_mod] at hvalue
  rw [exactQuotient, rndDiv_toQuad _ _ (by omega), hvalue]
  push_cast
  rw [mul_div_mul_left _ _ (by norm_num)]

theorem fdctCoefs_exact (g : List Int) {m : Memory} {q k : Nat} (hk : k < 64) (hq : m.qt q k ≠ 0#16) :
    (fdctCoefs .exact g (m.qtTable q)).getD k 0#16 =
      wrap16 (rndReal (fdctRef (fun i => g.getD i 0) (zz k % 8) (zz k / 8) / (m.qt q k).toNat)) := by
  rw [fdctCoefs, fdctExact, quantize_getD _ _ _ hk, exactQuotient_eq _ (zz_lt k hk) (BitVec.toNat_pos_of_ne_zero hq)]

/-- Level-shifted samples lie in -128..127. -/
theorem abs_shifted_le (b : Byte) : |((b.toNat : ℤ) - 128)| ≤ 128 := by
  have := b.isLt
  rw [abs_le]
  omega

/-- Settles O36: the separable passes give 16 · FDCT_ref of the shifted samples, divided and rounded once, and s16 holds it. -/
theorem fdctIsRoundedExactTransform : Obligations.FdctIsRoundedExactTransform := by
  intro s slot q hslot _ hmodel hq
  obtain ⟨m, hfdct, hcoef, hframe⟩ := exec_fdct_ok hslot hq
  refine ⟨m, hfdct, fun k hk => ?_, hframe⟩
  rw [hcoef k hk, hmodel, fdctCoefs_exact _ hk (hq k hk), fdctRef_congr fun i hi => levelShift_getD s.mem slot hi]
  exact toInt_wrap16_rndReal (abs_fdctRef_le (fun i _ => abs_shifted_le _) _ _) (BitVec.toNat_pos_of_ne_zero (hq k hk))

/-! ## Constant blocks (R267) -/

/-- Only position 0 stands for the natural index 0. -/
theorem zz_eq_zero_iff {k : Nat} (hk : k < 64) : zz k = 0 ↔ k = 0 := by
  constructor
  · intro h
    rw [← izz_zz k hk, h]
    rfl
  · rintro rfl
    rfl

/-- The dequantized block of which only the DC coefficient `c` is not 0, natural order. -/
def dcBlock (c : ℤ) (n : Nat) : ℤ := if n = 0 then c else 0

/-- A block with only a DC coefficient has the constant transform D[0]/8 (R267 (a)). -/
theorem idctRef_dcBlock (c : ℤ) (x y : Nat) : idctRef (dcBlock c) x y = c / 8 := by
  have hzero (u v : Nat) (hne : 8 * v + u ≠ 0) :
      (dcBlock c (8 * v + u) : ℝ) * (cos2 (angle x u) * cos2 (angle y v)) = 0 := by
    rw [dcBlock, if_neg hne, Int.cast_zero, zero_mul]
  have hdc : cos2 (angle x 0) * cos2 (angle y 0) = 2 := by
    rw [angle, angle, if_pos rfl, if_pos rfl, Nat.cast_ofNat, cos2_four, rootS_sq]
  rw [idctRef_eq, idctReal,
    Finset.sum_eq_single 0 (fun u _ h0 => Finset.sum_eq_zero fun v _ => hzero u v (by omega)) (by simp),
    Finset.sum_eq_single 0 (fun v _ h0 => hzero 0 v (by omega)) (by simp), hdc, dcBlock, if_pos rfl]
  ring

/-- The exact sum of each cosine of the basis over the eight positions. -/
theorem basisColumn_sums : ∀ u < 8, (List.range 8).foldl (fun a x => a.addTerm 1 (angle x u)) CosSum.zero =
    { CosSum.zero with c4 := if u = 0 then 8 else 0 } := by decide +kernel

/-- A basis cosine of nonzero frequency sums to 0 (R267). -/
theorem sum_basisColumn {u : Nat} (hu : u < 8) :
    ∑ x ∈ Finset.range 8, cos2 (angle x u) = if u = 0 then 8 * rootS else 0 := by
  have hsum := CosSum.value_foldl (fun _ => 1) (fun x => angle x u) (List.range 8) CosSum.zero
  rw [basisColumn_sums u hu, sum_map_range8, CosSum.value_zero, zero_add] at hsum
  simp only [Int.cast_one, one_mul] at hsum
  rw [← hsum, CosSum.value_eq]
  split_ifs <;> simp [CosSum.zero, cos2_four]

/-- A constant block has the DC coefficient 8·c' and no other (R267 (b)). -/
theorem fdctRef_of_constant (c : ℤ) {u v : Nat} (hu : u < 8) (hv : v < 8) :
    fdctRef (fun _ => c) u v = if u = 0 ∧ v = 0 then 8 * (c : ℝ) else 0 := by
  rw [fdctRef_eq]
  simp only [← Finset.mul_sum, ← Finset.sum_mul]
  rw [sum_basisColumn hu, sum_basisColumn hv, ite_zero_mul_ite_zero]
  split_ifs
  · linear_combination 4 * (c : ℝ) * rootS_sq
  · ring

/-- R263 corner case (c). -/
theorem exec_idct_dc {s : State} {slot q : Nat} (hslot : slot ≤ 5) (hq3 : q ≤ 3) (hmodel : s.params.transform = .exact)
    (hq : ∀ k < 64, s.mem.qt q k ≠ 0#16) (hac : ∀ k, 1 ≤ k → k < 64 → s.mem.coef slot k = 0#16) :
    ∃ m, exec (.idct slot q) s = .next (doneState { s with mem := m }) ∧
      ∀ i < 64, ((m.smp slot i).toNat : ℤ) =
        clamp255 (rndDiv ((s.mem.coef slot 0).toInt * ((s.mem.qt q 0).toNat : ℤ)) 8 + 128) := by
  have hblock : ∀ k < 64, dcBlock ((s.mem.coef slot 0).toInt * ((s.mem.qt q 0).toNat : ℤ)) (zz k) =
      (s.mem.coef slot k).toInt * ((s.mem.qt q k).toNat : ℤ) := by
    intro k hk
    by_cases h0 : k = 0
    · subst h0
      rfl
    · rw [dcBlock, if_neg (mt (zz_eq_zero_iff hk).mp h0), hac k (by omega) hk, BitVec.toInt_zero, zero_mul]
  obtain ⟨m, hidct, hsmp, -⟩ := idctIsRoundedExactTransform s slot q _ hslot hq3 hmodel hq hblock
  refine ⟨m, hidct, fun i hi => ?_⟩
  have hi' := hsmp (i % 8) (by omega) (i / 8) (by omega)
  rw [Nat.div_add_mod, idctRef_dcBlock] at hi'
  rw [hi', rndDiv_eq_rndReal _ _ (by norm_num), Nat.cast_ofNat]

theorem rndReal_zero : rndReal 0 = 0 := by
  rw [rndReal, if_pos le_rfl]
  norm_num

/-- R264 corner case (c). -/
theorem exec_fdct_constant {s : State} {slot q : Nat} {c : Byte} (hslot : slot ≤ 5) (hq3 : q ≤ 3)
    (hmodel : s.params.transform = .exact) (hq : ∀ k < 64, s.mem.qt q k ≠ 0#16) (hc : ∀ i < 64, s.mem.smp slot i = c) :
    ∃ m, exec (.fdct slot q) s = .next (doneState { s with mem := m }) ∧
      (m.coef slot 0).toInt = rndDiv (8 * ((c.toNat : ℤ) - 128)) (s.mem.qt q 0).toNat ∧
      ∀ k, 1 ≤ k → k < 64 → m.coef slot k = 0#16 := by
  obtain ⟨m, hfdct, hcoef, -⟩ := fdctIsRoundedExactTransform s slot q hslot hq3 hmodel hq
  have hconst : ∀ k < 64, (m.coef slot k).toInt =
      rndReal ((if k = 0 then 8 * (((c.toNat : ℤ) - 128 : ℤ) : ℝ) else 0) / (s.mem.qt q k).toNat) := by
    intro k hk
    have hlt := zz_lt k hk
    have hdc : (zz k % 8 = 0 ∧ zz k / 8 = 0) ↔ k = 0 := by
      rw [← zz_eq_zero_iff hk]
      omega
    rw [hcoef k hk, fdctRef_congr (g' := fun _ => (c.toNat : ℤ) - 128) (fun i hi => by rw [hc i hi]),
      fdctRef_of_constant _ (by omega) (by omega)]
    simp only [hdc]
  refine ⟨m, hfdct, ?_, fun k h1 hk => ?_⟩
  · rw [hconst 0 (by norm_num), if_pos rfl, rndDiv_eq_rndReal _ _ (BitVec.toNat_pos_of_ne_zero (hq 0 (by norm_num)))]
    push_cast
    rfl
  · refine BitVec.eq_of_toInt_eq ?_
    rw [hconst k hk, if_neg (by omega), zero_div, rndReal_zero, BitVec.toInt_zero]

/-- Settles O38: the closed forms of both transforms, rounded. -/
theorem constantBlocksTransformExactly : Obligations.ConstantBlocksTransformExactly :=
  ⟨fun _ _ _ => exec_idct_dc, fun _ _ _ _ => exec_fdct_constant⟩

/-! ## The round trip (R270) -/

/-- The quantization tables lie outside every slot's coefficients (10_state.md R50, R54). -/
theorem qt_of_coef_frame {m m' : Memory} {slot q : Nat} (hq : q ≤ 3)
    (h : ∀ a, (∀ k < 64, a ≠ coefAddr slot k ∧ a ≠ coefAddr slot k + 1) → m'.read a = m.read a) :
    ∀ k < 64, m'.qt q k = m.qt q k := by
  intro k hk
  have hread : ∀ a ≤ qtAddr q k + 1, m'.read a = m.read a := by
    intro a ha
    refine h a fun j _ => ?_
    simp only [qtAddr, coefAddr] at *
    omega
  rw [Memory.qt, Memory.qt, Memory.read16, Memory.read16, hread _ le_rfl, hread _ (Nat.le_succ _)]

theorem idctReal_sub (d e : Nat → ℝ) (x y : Nat) :
    idctReal (fun n => d n - e n) x y = idctReal d x y - idctReal e x y := by
  simp only [idctReal, sub_mul, Finset.sum_sub_distrib, mul_sub]

/-- FDCT_ref with every coefficient rounded, natural order. -/
noncomputable def roundedFdct (g : Nat → ℤ) (n : Nat) : ℤ := rndReal (fdctRef g (n % 8) (n / 8))

/-- What rounding moves each coefficient by, natural order. -/
noncomputable def fdctError (g : Nat → ℤ) (n : Nat) : ℝ := roundedFdct g n - fdctRef g (n % 8) (n / 8)

theorem abs_fdctError_le (g : Nat → ℤ) (n : Nat) : |fdctError g n| ≤ 1 / 2 := by
  rw [fdctError, abs_sub_comm]
  exact abs_sub_rndReal _

/-- The rounded coefficients give back the samples and the transform of the errors. -/
theorem idctRef_roundedFdct (g : Nat → ℤ) {x y : Nat} (hx : x < 8) (hy : y < 8) :
    idctRef (roundedFdct g) x y = g (8 * y + x) + idctReal (fdctError g) x y := by
  have herr : idctReal (fdctError g) x y = idctReal (fun n => roundedFdct g n) x y - g (8 * y + x) := by
    rw [← idctReal_fdctRef g x y hx hy, ← idctReal_sub]
    rfl
  rw [idctRef_eq, herr, add_sub_cancel]

/-- Rounding each coefficient moves a sample by at most 3 after its own rounding. -/
theorem idctRef_roundedFdct_near (g : Nat → ℤ) {x y : Nat} (hx : x < 8) (hy : y < 8) :
    |rndReal (idctRef (roundedFdct g) x y) - g (8 * y + x)| ≤ 3 := by
  rw [idctRef_roundedFdct g hx hy]
  exact rndReal_near _ _ (idctReal_lt _ (fun n _ => abs_fdctError_le g n) hx hy)

/-- The level shift back and the clamp bring no byte further from a byte (R270). -/
theorem abs_clamp255_sub_le {v r : ℤ} {b : Byte} (h : |v - ((b.toNat : ℤ) - 128)| ≤ r) :
    |clamp255 (v + 128) - b.toNat| ≤ r := by
  have := b.isLt
  rw [abs_le] at h ⊢
  unfold clamp255
  omega

/-- Settles O39: with a table of ones the coefficients are the rounded transform, and their errors move no sample by more than 3. -/
theorem transformRoundTripWithinThree : Obligations.TransformRoundTripWithinThree := by
  intro s slot q hslot hq3 hmodel hones
  have nonzero {m : Memory} (h : ∀ k < 64, m.qt q k = 1#16) : ∀ k < 64, m.qt q k ≠ 0#16 :=
    fun k hk => by rw [h k hk]; decide
  obtain ⟨m, hfdct, hcoef, hframe⟩ := fdctIsRoundedExactTransform s slot q hslot hq3 hmodel (nonzero hones)
  refine ⟨m, hfdct, fun u hparams hqt hkept => ?_⟩
  have huones : ∀ k < 64, u.mem.qt q k = 1#16 :=
    fun k hk => by rw [hqt k hk, qt_of_coef_frame hq3 hframe k hk, hones k hk]
  have hblock : ∀ k < 64, roundedFdct (fun i => ((s.mem.smp slot i).toNat : ℤ) - 128) (zz k) =
      (u.mem.coef slot k).toInt * ((u.mem.qt q k).toNat : ℤ) := by
    intro k hk
    rw [hkept k hk, hcoef k hk, huones k hk, hones k hk]
    simp [roundedFdct]
  obtain ⟨m', hidct, hsmp, -⟩ :=
    idctIsRoundedExactTransform u slot q _ hslot hq3 (hparams ▸ hmodel) (nonzero huones) hblock
  refine ⟨m', hidct, fun i hi => ?_⟩
  have hi' := hsmp (i % 8) (by omega) (i / 8) (by omega)
  have hnear := idctRef_roundedFdct_near (fun i => ((s.mem.smp slot i).toNat : ℤ) - 128) (x := i % 8) (y := i / 8)
    (by omega) (by omega)
  simp only [Nat.div_add_mod] at hi' hnear
  rw [hi']
  exact abs_clamp255_sub_le hnear

end Sys2Proof.Proofs
end

section
/-! PROOFS. CSC_INV and CSC_FWD (44_color.md R300 to R307): the sampling-factor check, the colour equations over the reals, the
chroma mean, and what each command stores for the three legal formats. -/

namespace Sys2Proof.Proofs

open Sys2Proof.Machine Sys2Proof.Claims

/-! ## The sampling factors (R300) -/

theorem mem_legalLuma {yh yv : Nat} :
    (yh, yv) ∈ legalLuma ↔ (yh = 1 ∧ yv = 1) ∨ (yh = 2 ∧ yv = 1) ∨ (yh = 2 ∧ yv = 2) := by
  simp [legalLuma]

theorem checkFactors_of_legal {yh yv : Nat} (h : (yh, yv) ∈ legalLuma) :
    checkFactors (yh - 1) (yv - 1) 0 0 = .ok (yh, yv) := by
  obtain ⟨rfl, rfl⟩ | ⟨rfl, rfl⟩ | ⟨rfl, rfl⟩ := mem_legalLuma.mp h <;> rfl

theorem checkFactors_of_illegal {a b c d : Nat} (h : ¬((a + 1, b + 1) ∈ legalLuma ∧ c + 1 = 1 ∧ d + 1 = 1)) :
    checkFactors a b c d = .error (.error .unsupportedFormat 1#8) := by
  cases hc : checkFactors a b c d with
  | error r => rw [checkFactors_error hc]
  | ok factors =>
    have hlegal := checkFactors_ok hc
    rw [mem_legalLuma] at h
    omega

/-- Settles O15: the sampling-factor check is the whole body of both commands where it fails. -/
theorem badFactorsRaiseUnsupportedFormat : Obligations.BadFactorsRaiseUnsupportedFormat := by
  intro s a b c d h
  have hinv : body (.cscInv a b c d) s = .error (.error .unsupportedFormat 1#8) := by
    simp only [body, cscInvBody, checkFactors_of_illegal h]
  have hfwd : body (.cscFwd a b c d) s = .error (.error .unsupportedFormat 1#8) := by
    simp only [body, cscFwdBody, checkFactors_of_illegal h]
  exact ⟨exec_of_body_error hinv, exec_of_body_error hfwd⟩

/-! ## The colour equations over the reals (R301, R307) -/

/-- A rounded and clamped quotient is that of the real number it stands for. -/
theorem toNat_clampByte_rndDiv {n : ℤ} {d : Nat} {v : ℝ} (hd : 0 < d) (hv : (n : ℝ) / d = v) :
    ((clampByte (rndDiv n d)).toNat : ℤ) = clamp255 (rndReal v) := by
  rw [toNat_clampByte, rndDiv_eq_rndReal _ _ hd, hv]

section
variable (r g b y cb cr : Byte)

theorem toNat_rgbToY :
    ((rgbToY r g b).toNat : ℤ) = clamp255 (rndReal ((299 * r.toNat + 587 * g.toNat + 114 * b.toNat) / 1000)) :=
  toNat_clampByte_rndDiv (by norm_num) (by push_cast; ring)

theorem toNat_rgbToCb : ((rgbToCb r g b).toNat : ℤ) =
    clamp255 (rndReal (128 + (-299 * r.toNat - 587 * g.toNat + 886 * b.toNat) / 1772)) :=
  toNat_clampByte_rndDiv (by norm_num) (by push_cast; ring)

theorem toNat_rgbToCr : ((rgbToCr r g b).toNat : ℤ) =
    clamp255 (rndReal (128 + (701 * r.toNat - 587 * g.toNat - 114 * b.toNat) / 1402)) :=
  toNat_clampByte_rndDiv (by norm_num) (by push_cast; ring)

theorem toNat_yccToR : ((yccToR y cb cr).toNat : ℤ) = clamp255 (rndReal (y.toNat + 1.402 * (cr.toNat - 128))) :=
  toNat_clampByte_rndDiv (by norm_num) (by push_cast; ring)

theorem toNat_yccToG : ((yccToG y cb cr).toNat : ℤ) =
    clamp255 (rndReal (y.toNat - (202008 * (cb.toNat - 128) + 419198 * (cr.toNat - 128)) / 587000)) :=
  toNat_clampByte_rndDiv (by norm_num) (by push_cast; ring)

theorem toNat_yccToB : ((yccToB y cb cr).toNat : ℤ) = clamp255 (rndReal (y.toNat + 1.772 * (cb.toNat - 128))) :=
  toNat_clampByte_rndDiv (by norm_num) (by push_cast; ring)

end

/-! ## What CSC_INV stores (R303, R306) -/

/-- CSC_INV with legal factors ends ok with its stores made. -/
theorem exec_cscInv_legal {yh yv : Nat} (h : (yh, yv) ∈ legalLuma) (s : State) :
    exec (.cscInv (yh - 1) (yv - 1) 0 0) s =
      .next (doneState { s with mem := s.mem.writeAll (cscInvStores s.mem yh yv) }) :=
  exec_of_body_ok (by simp only [body, cscInvBody, checkFactors_of_legal h])

/-- A pixel of the MCU reads as the inverse equations of its luma sample and its nearest chroma samples. -/
theorem pix_cscInvStores (m : Memory) {yh yv x y : Nat} (h : (yh, yv) ∈ legalLuma) (hx : x < 8 * yh) (hy : y < 8 * yv) :
    let m' := m.writeAll (cscInvStores m yh yv)
    let l := m.smp (lumaSlot yh x y) (lumaPos x y)
    let cb := m.smp 4 (y / yv * 8 + x / yh)
    let cr := m.smp 5 (y / yv * 8 + x / yh)
    m'.pix (3 * (16 * y + x)) = yccToR l cb cr ∧ m'.pix (3 * (16 * y + x) + 1) = yccToG l cb cr ∧
      m'.pix (3 * (16 * y + x) + 2) = yccToB l cb cr := by
  have hwidth : yh ≤ 2 := by have := mem_legalLuma.mp h; omega
  have hread : ∀ c ∈ invPixelStores m yh yv x y, (m.writeAll (cscInvStores m yh yv)).read c.1 = c.2 := fun c hc =>
    Memory.read_writeAll_mem _ _ _ _ (cscInvStores_nodup m yh yv hwidth)
      (List.mem_flatMap.mpr ⟨(x, y), mem_tile.mpr ⟨hx, hy⟩, hc⟩)
  simp only [invPixelStores, List.forall_mem_cons] at hread
  obtain ⟨hr, hg, hb, -⟩ := hread
  exact ⟨hr, hg, hb⟩

/-- Settles O40: each pixel's three stores hold the inverse equations, and no store lies outside the MCU. -/
theorem cscInvConvertsMcu : Obligations.CscInvConvertsMcu := by
  intro s yh yv h
  refine ⟨_, exec_cscInv_legal h s, fun x hx y hy => ?_, fun a ha => ?_⟩
  · obtain ⟨hr, hg, hb⟩ := pix_cscInvStores s.mem h hx hy
    rw [hr, hg, hb]
    exact ⟨toNat_yccToR .., toNat_yccToG .., toNat_yccToB ..⟩
  · refine Memory.read_writeAll_other _ _ _ fun c hc e => ?_
    obtain ⟨x, hx, y, hy, k, hk, e'⟩ := mem_cscInvStores hc
    exact ha x hx y hy k hk (e.symm.trans e')

/-! ## The chroma mean (R305) -/

theorem length_tile (w h : Nat) : (tile w h).length = w * h := by
  simp [tile, mul_comm]

/-- A sum over a tile is the sum over its rows of the sums over its columns. -/
theorem sum_map_tile (w h : Nat) (f : Nat × Nat → Nat) :
    ((tile w h).map f).sum = ∑ y ∈ Finset.range h, ∑ x ∈ Finset.range w, f (x, y) := by
  have hrange (n : Nat) (g : Nat → Nat) : ((List.range n).map g).sum = ∑ i ∈ Finset.range n, g i := by
    rw [← List.toFinset_range, List.sum_toFinset _ List.nodup_range]
  simp only [tile, List.flatMap_def, List.map_flatten, List.sum_flatten, List.map_map, hrange, Function.comp_apply]

/-- The mean of bytes, halves up, is a byte. -/
theorem toNat_chromaMean (f : Byte → Byte → Byte → Byte) (m : Memory) {hs vs : Nat} (hpos : 0 < hs * vs) (i j : Nat) :
    ((chromaMean f m hs vs i j).toNat : ℤ) =
      (∑ dy ∈ Finset.range vs, ∑ dx ∈ Finset.range hs, ((pixelTo f m (i * hs + dx) (j * vs + dy)).toNat : ℤ) +
        (hs * vs / 2 : ℕ)) / (hs * vs : ℕ) := by
  let g (d : Nat × Nat) := (pixelTo f m (i * hs + d.1) (j * vs + d.2)).toNat
  have hsum : ((tile hs vs).map g).sum ≤ hs * vs * 255 := by
    have := List.sum_le_card_nsmul ((tile hs vs).map g) 255
    simp only [List.mem_map, List.length_map, length_tile, smul_eq_mul] at this
    refine this ?_
    rintro _ ⟨d, -, rfl⟩
    exact Nat.le_of_lt_succ (BitVec.isLt _)
  have hbyte : (((tile hs vs).map g).sum + hs * vs / 2) / (hs * vs) < 2 ^ 8 := by
    rw [Nat.div_lt_iff_lt_mul hpos]
    omega
  rw [chromaMean, BitVec.toNat_ofNat, Nat.mod_eq_of_lt hbyte, sum_map_tile]
  push_cast
  rfl

/-! ## What CSC_FWD stores (R302, R304) -/

/-- CSC_FWD with legal factors ends ok with its stores made. -/
theorem exec_cscFwd_legal {yh yv : Nat} (h : (yh, yv) ∈ legalLuma) (s : State) :
    exec (.cscFwd (yh - 1) (yv - 1) 0 0) s =
      .next (doneState { s with mem := s.mem.writeAll (cscFwdStores s.mem yh yv) }) :=
  exec_of_body_ok (by simp only [body, cscFwdBody, checkFactors_of_legal h])

/-- An SMP address tells its slot. -/
theorem slot_eq_of_smpAddr_eq {s t k l : Nat} (hk : k < 64) (hl : l < 64) (e : smpAddr s k = smpAddr t l) : s = t := by
  simp only [smpAddr] at e
  omega

theorem lumaPos_lt (x y : Nat) : lumaPos x y < 64 := by
  unfold lumaPos
  omega

theorem fwdChromaStores_addr {f : Byte → Byte → Byte → Byte} {slot : Nat} {m : Memory} {yh yv a : Nat}
    (ha : a ∈ (fwdChromaStores f slot m yh yv).map Prod.fst) : ∃ k < 64, a = smpAddr slot k := by
  simp only [fwdChromaStores, List.map_map, List.mem_map, mem_tile] at ha
  obtain ⟨p, hp, rfl⟩ := ha
  exact ⟨8 * p.2 + p.1, by omega, rfl⟩

theorem fwdChromaStores_nodup (f : Byte → Byte → Byte → Byte) (slot : Nat) (m : Memory) (yh yv : Nat) :
    ((fwdChromaStores f slot m yh yv).map Prod.fst).Nodup := by
  rw [fwdChromaStores, List.map_map]
  refine (tile_nodup _ _).map_on fun p hp q hq e => ?_
  rw [mem_tile] at hp hq
  simp only [Function.comp, smpAddr] at e
  exact Prod.ext (by omega) (by omega)

section
variable {yh yv : Nat} (h : (yh, yv) ∈ legalLuma)
include h

/-- The Y blocks of an MCU are in the first YH·YV slots. -/
theorem lumaSlot_lt {x y : Nat} (hx : x < 8 * yh) (hy : y < 8 * yv) : lumaSlot yh x y < yh * yv := by
  unfold lumaSlot
  obtain ⟨rfl, rfl⟩ | ⟨rfl, rfl⟩ | ⟨rfl, rfl⟩ := mem_legalLuma.mp h <;> omega

theorem fwdLumaStores_addr {m : Memory} {a : Nat} (ha : a ∈ (fwdLumaStores m yh yv).map Prod.fst) :
    ∃ n < yh * yv, ∃ k < 64, a = smpAddr n k := by
  simp only [fwdLumaStores, List.map_map, List.mem_map, mem_tile] at ha
  obtain ⟨p, ⟨hx, hy⟩, rfl⟩ := ha
  exact ⟨_, lumaSlot_lt h hx hy, _, lumaPos_lt _ _, rfl⟩

/-- No two pixels of an MCU have the same luma sample. -/
theorem lumaAddr_injOn {p q : Nat × Nat} (hp : p ∈ tile (8 * yh) (8 * yv)) (hq : q ∈ tile (8 * yh) (8 * yv))
    (e : smpAddr (lumaSlot yh p.1 p.2) (lumaPos p.1 p.2) = smpAddr (lumaSlot yh q.1 q.2) (lumaPos q.1 q.2)) : p = q := by
  rw [mem_tile] at hp hq
  simp only [smpAddr, lumaSlot, lumaPos] at e
  refine Prod.ext ?_ ?_ <;>
    obtain ⟨rfl, rfl⟩ | ⟨rfl, rfl⟩ | ⟨rfl, rfl⟩ := mem_legalLuma.mp h <;> omega

theorem fwdLumaStores_nodup (m : Memory) : ((fwdLumaStores m yh yv).map Prod.fst).Nodup := by
  rw [fwdLumaStores, List.map_map]
  exact (tile_nodup _ _).map_on fun p hp q hq e => lumaAddr_injOn h hp hq e

/-- CSC_FWD stores to each SMP byte at most once: the Y blocks lie below slot 4. -/
theorem cscFwdStores_nodup (m : Memory) : ((cscFwdStores m yh yv).map Prod.fst).Nodup := by
  have hslots : yh * yv ≤ 4 := by
    obtain ⟨rfl, rfl⟩ | ⟨rfl, rfl⟩ | ⟨rfl, rfl⟩ := mem_legalLuma.mp h <;> norm_num
  rw [cscFwdStores, List.map_append, List.map_append]
  refine ((fwdLumaStores_nodup h m).append (fwdChromaStores_nodup ..) ?_).append (fwdChromaStores_nodup ..) ?_
  · intro a hluma hcb
    obtain ⟨n, hn, k, hk, rfl⟩ := fwdLumaStores_addr h hluma
    obtain ⟨l, hl, e⟩ := fwdChromaStores_addr hcb
    have := slot_eq_of_smpAddr_eq hk hl e
    simp only [cbSlot] at this
    omega
  · intro a hbefore hcr
    obtain ⟨l, hl, rfl⟩ := fwdChromaStores_addr hcr
    rcases List.mem_append.mp hbefore with hluma | hcb
    · obtain ⟨n, hn, k, hk, e⟩ := fwdLumaStores_addr h hluma
      have := slot_eq_of_smpAddr_eq hl hk e
      simp only [crSlot] at this
      omega
    · obtain ⟨k, hk, e⟩ := fwdChromaStores_addr hcb
      exact absurd (slot_eq_of_smpAddr_eq hl hk e) (by decide)

/-- Every pixel's luma sample reads as its rounded luma. -/
theorem smp_cscFwdStores_luma (m : Memory) {x y : Nat} (hx : x < 8 * yh) (hy : y < 8 * yv) :
    (m.writeAll (cscFwdStores m yh yv)).smp (lumaSlot yh x y) (lumaPos x y) = pixelTo rgbToY m x y := by
  refine Memory.read_writeAll_mem _ _ _ _ (cscFwdStores_nodup h m) ?_
  exact List.mem_append_left _ (List.mem_append_left _ (List.mem_map.mpr ⟨(x, y), mem_tile.mpr ⟨hx, hy⟩, rfl⟩))

/-- Both chroma samples of every pixel group read as the means of its rounded chroma values. -/
theorem smp_cscFwdStores_chroma (m : Memory) {i j : Nat} (hi : i < 8) (hj : j < 8) :
    (m.writeAll (cscFwdStores m yh yv)).smp 4 (8 * j + i) = chromaMean rgbToCb m yh yv i j ∧
      (m.writeAll (cscFwdStores m yh yv)).smp 5 (8 * j + i) = chromaMean rgbToCr m yh yv i j := by
  have hstore (f : Byte → Byte → Byte → Byte) (slot : Nat) :
      (smpAddr slot (8 * j + i), chromaMean f m yh yv i j) ∈ fwdChromaStores f slot m yh yv :=
    List.mem_map.mpr ⟨(i, j), mem_tile.mpr ⟨hi, hj⟩, rfl⟩
  have hnodup := cscFwdStores_nodup h m
  exact ⟨Memory.read_writeAll_mem _ _ _ _ hnodup (List.mem_append_left _ (List.mem_append_right _ (hstore ..))),
    Memory.read_writeAll_mem _ _ _ _ hnodup (List.mem_append_right _ (hstore ..))⟩

/-- CSC_FWD stores in the Y blocks of the MCU and in slots 4 and 5 alone (R302). -/
theorem read_cscFwdStores_other (m : Memory) {a : Nat}
    (ha : ∀ k < 64, (∀ n < yh * yv, a ≠ smpAddr n k) ∧ a ≠ smpAddr 4 k ∧ a ≠ smpAddr 5 k) :
    (m.writeAll (cscFwdStores m yh yv)).read a = m.read a := by
  refine Memory.read_writeAll_other _ _ _ fun c hc e => ?_
  subst e
  rcases mem_cscFwdStores hc with ⟨x, hx, y, hy, e⟩ | ⟨k, hk, hcb | hcr⟩
  · exact (ha _ (lumaPos_lt x y)).1 _ (lumaSlot_lt h hx hy) e
  · exact (ha k hk).2.1 hcb
  · exact (ha k hk).2.2 hcr

end

/-- Settles O41: every SMP byte is stored at most once, the luma equation's value or the mean of the chroma equations' values. -/
theorem cscFwdConvertsMcu : Obligations.CscFwdConvertsMcu := by
  intro s yh yv h r g b lf cbf crf mean
  have hpos : 0 < yh * yv := by
    obtain ⟨rfl, rfl⟩ | ⟨rfl, rfl⟩ | ⟨rfl, rfl⟩ := mem_legalLuma.mp h <;> norm_num
  have hmean (f : Byte → Byte → Byte → Byte) (v : Nat → Nat → ℤ)
      (hf : ∀ x y, ((pixelTo f s.mem x y).toNat : ℤ) = v x y) (i j : Nat) :
      ((chromaMean f s.mem yh yv i j).toNat : ℤ) = mean v i j := by
    simp only [toNat_chromaMean f s.mem hpos, hf, mean]
  refine ⟨_, exec_cscFwd_legal h s, fun x hx y hy => ?_, fun i hi j hj => ?_, fun a => read_cscFwdStores_other h s.mem⟩
  · exact smp_cscFwdStores_luma h s.mem hx hy ▸ toNat_rgbToY ..
  · obtain ⟨hcb, hcr⟩ := smp_cscFwdStores_chroma h s.mem hi hj
    rw [hcb, hcr]
    exact ⟨hmean rgbToCb cbf (fun _ _ => toNat_rgbToCb ..) i j, hmean rgbToCr crf (fun _ _ => toNat_rgbToCr ..) i j⟩

end Sys2Proof.Proofs
end

section
/-! Statements about the host's table generator (48_host_software.md): the quantizer entries fall as the quality rises. -/

namespace Sys2Proof.Proofs

open Sys2Proof.Machine Sys2Proof.Claims

/-- The scale does not rise with the quality. Across R331's boundary the lower quality's scale is at least 5000 / 49 = 102, and the
higher's at most 100. -/
theorem qualityScale_le_of_lt {q1 q2 : Nat} (hpos : 1 ≤ q1) (hlt : q1 < q2) : qualityScale q2 ≤ qualityScale q1 := by
  unfold qualityScale
  split_ifs with h2 h1 h1
  · exact Nat.div_le_div_left hlt.le hpos
  · omega
  · have hlow : 5000 / 49 ≤ 5000 / q1 := Nat.div_le_div_left (by omega) hpos
    omega
  · omega

/-- At one base value, the rounding and the clamp of R332 keep the order of the scales. -/
theorem qualityEntry_le_of_scale_le {q1 q2 : Nat} (h : qualityScale q2 ≤ qualityScale q1) (b : Nat) :
    qualityEntry q2 b ≤ qualityEntry q1 b := by
  unfold qualityEntry
  gcongr

/-- Settles O60: the scale falls with the quality, and an entry follows its scale. -/
theorem qualityIsMonotone : Obligations.QualityIsMonotone := fun _ _ b hpos hlt _ =>
  qualityEntry_le_of_scale_le (qualityScale_le_of_lt hpos hlt) b

end Sys2Proof.Proofs
end

section
/-! PROOFS. How commands end (60_exceptions.md): what each command's body can raise (R350, R354, R355), and the four outcomes of
an engine step (R351, R356). -/

namespace Sys2Proof.Proofs

open Sys2Proof.Machine Sys2Proof.Claims

/-! ## What each command may raise -/

/-- The command is a writer, and its complete bytes, stuffing included, do not fit in OBUF from WR_POS on (R355). -/
def OutputOverflows (i : Instr) (s : State) : Prop :=
  (i = .bsFlushWr ∧ s.params.obufBytes < s.wrPos.toNat + (outBytes (paddedBits s)).length) ∨
  (∃ slot comp dct act bits, i = .henc slot comp dct act ∧
    encodeBlock (htTable s.mem dct) (htTable s.mem (4 + act)) (s.dcPred.get comp) (s.mem.coefBlock slot) = .ok bits ∧
    s.params.obufBytes < s.wrPos.toNat + (outBytes (s.pendingBits ++ bits)).length)

/-- What the exceptions chapter lets a command raise: an error of its row (R350), NEED_DATA in HDEC before the final data (R354),
OUT_FULL in a writer that overflows (R355). -/
def MayRaise (i : Instr) (s : State) : Raise → Prop
  | .error e d => (e.code, d) ∈ listedErrors (opOf i)
  | .needData => (∃ slot comp dct act, i = .hdec slot comp dct act) ∧ s.fin = false
  | .outFull => OutputOverflows i s

/-- A command with the row of `op` may raise the errors of that row. -/
theorem mayRaise_of_listed {i : Instr} {s : State} {e : ErrorCode} {d : Byte} (op : Op)
    (hrow : listedErrors (opOf i) = listedErrors op) (h : (e.code, d) ∈ listedErrors op) : MayRaise i s (.error e d) := by
  rw [MayRaise, hrow]
  exact h

theorem htBuild_mayRaise {cls : HtClass} {id : Nat} (s : State) {d : Byte} (h : d ∈ [1#8, 2#8, 3#8, 4#8]) :
    MayRaise (.htBuild cls id) s (.error .malformedTable d) := by
  have hrow : ∀ d ∈ [1#8, 2#8, 3#8, 4#8], (ErrorCode.malformedTable.code, d) ∈ listedErrors .htBuild := by decide
  exact mayRaise_of_listed .htBuild rfl (hrow d h)

section
variable {s : State} {slot comp dct act : Nat} {r : Raise}

/-- The reader stops with an error only in the final data or at a marker, and else asks for data (42_huffman.md R210, R212). -/
theorem readerStop_mayRaise (h : ReaderStop s.source r) : MayRaise (.hdec slot comp dct act) s r := by
  cases h with
  | truncated => exact mayRaise_of_listed .hdec rfl (by decide)
  | needData hfin => exact ⟨⟨slot, comp, dct, act, rfl⟩, hfin⟩
  | marker => exact mayRaise_of_listed .hdec rfl (by decide)

theorem decodeStop_mayRaise (h : DecodeStop s.source r) : MayRaise (.hdec slot comp dct act) s r := by
  cases h with
  | reader hr => exact readerStop_mayRaise hr
  | noCode => exact mayRaise_of_listed .hdec rfl (by decide)
  | dcCategory => exact mayRaise_of_listed .hdec rfl (by decide)
  | acSymbol => exact mayRaise_of_listed .hdec rfl (by decide)
  | acRun => exact mayRaise_of_listed .hdec rfl (by decide)

theorem encodeStop_mayRaise (h : EncodeStop r) : MayRaise (.henc slot comp dct act) s r := by
  cases h with
  | dcCategory => exact mayRaise_of_listed .henc rfl (by decide)
  | noCode => exact mayRaise_of_listed .henc rfl (by decide)
  | acCategory => exact mayRaise_of_listed .henc rfl (by decide)

theorem hdecBody_mayRaise (h : hdecBody slot comp dct act s = .error r) : MayRaise (.hdec slot comp dct act) s r := by
  rcases hdecBody_error h with ⟨-, rfl⟩ | rfl | hstop
  · exact mayRaise_of_listed .hdec rfl (by decide)
  · exact mayRaise_of_listed .hdec rfl (by decide)
  · exact decodeStop_mayRaise hstop

theorem hencBody_mayRaise (h : hencBody slot comp dct act s = .error r) : MayRaise (.henc slot comp dct act) s r := by
  rcases hencBody_error h with ⟨-, rfl⟩ | rfl | hstop | ⟨rfl, bits, hbits, hfull⟩
  · exact mayRaise_of_listed .henc rfl (by decide)
  · exact mayRaise_of_listed .henc rfl (by decide)
  · exact encodeStop_mayRaise hstop
  · have hdc : dcTableIndex dct = dct := by simp [dcTableIndex, htIndex, classBit]
    rw [hdc] at hbits
    exact .inr ⟨slot, comp, dct, act, bits, rfl, hbits, hfull⟩

/-- IDCT and FDCT have the same row of the error table. -/
theorem transformBody_mayRaise {i : Instr} {q : Nat} (hrow : listedErrors (opOf i) = listedErrors .idct)
    (h : idctBody slot q s = .error r ∨ fdctBody slot q s = .error r) : MayRaise i s r := by
  rcases transformBody_error h with ⟨-, rfl⟩ | rfl
  · exact mayRaise_of_listed .idct hrow (by decide)
  · exact mayRaise_of_listed .idct hrow (by decide)

/-- CSC_INV and CSC_FWD have the same row of the error table. -/
theorem colourBody_mayRaise {i : Instr} {a b c d : Nat} (hrow : listedErrors (opOf i) = listedErrors .cscInv)
    (h : cscInvBody a b c d s = .error r ∨ cscFwdBody a b c d s = .error r) : MayRaise i s r := by
  obtain rfl := colourBody_error h
  exact mayRaise_of_listed .cscInv hrow (by decide)

end

/-- A body raises only what its command may raise. -/
theorem body_mayRaise {i : Instr} {s : State} {r : Raise} (h : body i s = .error r) : MayRaise i s r := by
  cases i with
  | nop => cases h
  | htBuild cls id =>
    obtain ⟨d, hd, rfl⟩ := htBuildBody_error h
    exact htBuild_mayRaise s hd
  | dcReset => cases h
  | bsAlignRd => cases h
  | bsFlushWr =>
    obtain ⟨hfull, rfl⟩ := flushOut_error h
    exact .inl ⟨rfl, hfull⟩
  | hdec slot comp dct act => exact hdecBody_mayRaise h
  | henc slot comp dct act => exact hencBody_mayRaise h
  | idct slot q => exact transformBody_mayRaise rfl (.inl h)
  | fdct slot q => exact transformBody_mayRaise rfl (.inr h)
  | cscInv a b c d => exact colourBody_mayRaise rfl (.inl h)
  | cscFwd a b c d => exact colourBody_mayRaise rfl (.inr h)

/-! ## The four outcomes -/

/-- An ok body moves neither STATUS nor ERRCODE, so completion sets DONE alone (R351). -/
theorem doneState_of_body_ok {i : Instr} {s t : State} (h : body i s = .ok t) :
    (doneState t).status = { s.status with done := true } ∧ (doneState t).errcode = s.errcode := by
  rw [(body_ok_frame h).1]
  exact ⟨rfl, rfl⟩

/-- How a command ends, and when: ok, an error of its row, a request for data by HDEC before the final data, or an output that
does not fit (R351, R352, R354, R355). -/
theorem exec_cases {i : Instr} {s t : State} (h : exec i s = .next t) :
    (t.status = { s.status with done := true } ∧ t.errcode = s.errcode) ∨
    (∃ p ∈ listedErrors (opOf i), t = errorState s (opOf i).code p.1 p.2) ∨
    ((∃ slot comp dct act, i = .hdec slot comp dct act) ∧ s.fin = false ∧ t = needDataState s) ∨
    (OutputOverflows i s ∧ t = outFullState s) := by
  rw [exec_eq] at h
  obtain rfl := Host.Outcome.next.inj h
  cases hb : body i s with
  | ok u => exact .inl (doneState_of_body_ok hb)
  | error r =>
    have hr : MayRaise i s r := body_mayRaise hb
    cases r with
    | error e d => exact .inr (.inl ⟨(e.code, d), hr, rfl⟩)
    | needData => exact .inr (.inr (.inl ⟨hr.1, hr.2, rfl⟩))
    | outFull => exact .inr (.inr (.inr ⟨hr, rfl⟩))

/-! ## The statements -/

/-- Settles O6: every command is its body, completed, and completion leaves BUSY 0. -/
theorem commandEndsInOneOutcome : Obligations.CommandEndsInOneOutcome := by
  intro i s
  refine ⟨_, exec_eq i s, by simp [State.busy], ?_⟩
  rcases exec_cases (exec_eq i s) with hok | ⟨p, -, ht⟩ | ⟨-, -, ht⟩ | ⟨-, ht⟩
  · exact .inl hok
  · exact .inr (.inl ⟨p.1, p.2, ht⟩)
  · exact .inr (.inr (.inl ht))
  · exact .inr (.inr (.inr ht))

/-- Settles O7: of the four outcomes only the request for data raises the flag, and the idle block then accepts. -/
theorem needDataOnlyFromHdec : Obligations.NeedDataOnlyFromHdec := by
  intro i s t h0 h hflag
  rcases exec_cases h with ⟨hst, -⟩ | ⟨p, -, rfl⟩ | ⟨hdec, hfin, rfl⟩ | ⟨-, rfl⟩
  · simp [hst, h0] at hflag
  · simp [errorState, h0] at hflag
  · exact ⟨hdec, hfin, rfl, fun herr cw => offerCommand_accepted (s := needDataState s) rfl herr cw⟩
  · simp [outFullState, h0] at hflag

/-- Settles O8: of the four outcomes only an overflowing writer raises the flag. -/
theorem outFullOnlyFromWriters : Obligations.OutFullOnlyFromWriters := by
  intro i s t h0 h hflag
  rcases exec_cases h with ⟨hst, -⟩ | ⟨p, -, rfl⟩ | ⟨-, -, rfl⟩ | ⟨hfull, rfl⟩
  · simp [hst, h0] at hflag
  · simp [errorState, h0] at hflag
  · simp [needDataState, h0] at hflag
  · exact ⟨rfl, hfull⟩

/-- Settles O9: of the four outcomes only a listed error raises the flag. -/
theorem onlyListedErrorsAreRaised : Obligations.OnlyListedErrorsAreRaised := by
  intro i s t h0 h hflag
  rcases exec_cases h with ⟨hst, -⟩ | hlisted | ⟨-, -, rfl⟩ | ⟨-, rfl⟩
  · simp [hst, h0] at hflag
  · exact hlisted
  · simp [needDataState, h0] at hflag
  · simp [outFullState, h0] at hflag

end Sys2Proof.Proofs
end

section
/-! PROOFS. Reset and hazards (70_reset_and_hazards.md): what both power-on resets leave (R390), how long a busy block can stay
busy (R402), and how much output one HENC forms (R404). -/

namespace Sys2Proof.Proofs

open Sys2Proof.Machine Sys2Proof.Claims

/-! ## Power-on reset (R390) -/

/-- Settles O56: the offsets are aligned words of the window, and the idle block reads each as its register's value. -/
theorem resetRegistersRead : Obligations.ResetRegistersRead := by
  refine ⟨fun p hp => ?_, rfl, rfl⟩
  obtain ⟨h4, hend, hw⟩ : p.1 % 4 = 0 ∧ p.1 ≤ 0x2FFFF ∧
      wordAt State.reset p.1 (locate State.reset.params p.1) = p.2 := by
    revert p
    decide
  rw [hostStep_load (s := State.reset) rfl rfl h4 hend, wordAt_inputs, hw]
  rfl

/-- Settles O57: the reset input takes effect as `powerOn`, whose memory lists no byte of the new power cycle. -/
theorem powerOnResetClearsRegisters : Obligations.PowerOnResetClearsRegisters := by
  intro s rest hi
  have hstep : hostStep s = .next (powerOn { s with inputs := rest }) := by rw [hostStep, hi]
  exact ⟨_, hstep, rfl, fun _ => rfl⟩

/-- Settles O58: every register the invariant speaks of is 0, and no memory byte is listed. -/
theorem resetMeetsInvariant : Obligations.ResetMeetsInvariant where
  legal := by decide
  memory := wf_empty 0
  cursors := by simp [State.cursorsInside, State.reset]
  tables := fun h _ hb => by simp [State.reset, htBit] at hb
  flags := flagsQuiet_of_idle rfl
  errcode := by simp [State.errcodeReserved, State.reset]

/-! ## A busy block completes (R402) -/

/-- The engine's turn always leaves the block idle. -/
theorem step_idle_of_engine_turn {s : State} (ht : turnOf s = .engine) : ∃ t, step s = .next t ∧ t.busy = false := by
  cases hl : s.latch with
  | none => exact ⟨_, step_engine_idle ht hl, by simp [State.busy, hl]⟩
  | some l =>
    cases hd : decode l.cw with
    | ok i => exact ⟨_, (step_engine ht hl hd).trans (exec_eq i _), by simp [State.busy]⟩
    | error r => exact ⟨_, step_engine_illegal ht hl hd, by simp [State.busy, illegalCommand]⟩

/-- A host step has a next state or faults. -/
theorem hostStep_next_or_fault (s : State) : (∃ t, hostStep s = .next t) ∨ ∃ r, hostStep s = .fault r := by
  have access {addr bytes : Nat} {v : Word} {rest : List Input}
      (hi : s.inputs = .read addr bytes :: rest ∨ s.inputs = .write addr bytes v :: rest) :
      (∃ t, hostStep s = .next t) ∨ ∃ r, hostStep s = .fault r := by
    obtain ⟨hfault, hnext⟩ := hostStep_access hi
    by_cases ha : accepted s.params addr bytes = true
    · exact .inl (hnext ha)
    · exact .inr ⟨_, hfault ha⟩
  match hi : s.inputs with
  | [] => exact .inl ⟨_, by rw [hostStep, hi]⟩
  | .read _ _ :: _ => exact access (v := 0#32) (.inl hi)
  | .write _ _ _ :: _ => exact access (.inr hi)
  | .wait :: _ => exact .inl ⟨_, by rw [hostStep, hi]⟩
  | .powerOnReset :: _ => exact .inl ⟨_, by rw [hostStep, hi]⟩

theorem hostWrite_schedule (s : State) (off : Nat) (v : Word) : (hostWrite s off v).schedule = s.schedule := by
  rcases hostWrite_cases s off v with h | ⟨-, h⟩ | h | h | ⟨-, h⟩ | ⟨-, h⟩ <;> rw [h]
  · obtain ⟨-, -, -, hsched, -, -⟩ := writeCtrl_frame s v
    exact hsched
  · rw [offerCommand_frame]
  · rw [storeAt_frame]

/-- The host does not change whose turn comes next. -/
theorem hostStep_schedule {s t : State} (h : hostStep s = .next t) : t.schedule = s.schedule := by
  rcases hostStep_cases h with ⟨-, rfl⟩ | ⟨addr, _, rest, -, -, rfl⟩ | ⟨_, _, v, rest, -, -, rfl⟩ | ⟨rest, -, rfl⟩ |
    ⟨rest, -, rfl⟩
  · rfl
  · obtain ⟨w, n, hr⟩ := hostRead_frame { s with inputs := rest } (addr - s.params.base)
    rw [hr]
  · exact hostWrite_schedule _ _ v
  · split <;> rfl
  · rfl

theorem run_succ_of_next {M : Host.Core} {s t : M.State} (h : M.step s = .next t) (k : Nat) : M.run (k + 1) s = M.run k t := by
  rw [Host.Core.run, h]

theorem run_one_of_fault {M : Host.Core} {s : M.State} {r : M.Fault} (h : M.step s = .fault r) : M.run 1 s = .fault r := by
  rw [Host.Core.run, h]

theorem run_idle_of_engine_turn {s : State} (ht : turnOf s = .engine) : ∃ t, core.run 1 s = .next t ∧ t.busy = false := by
  obtain ⟨t, hst, hidle⟩ := step_idle_of_engine_turn ht
  exact ⟨t, run_succ_of_next (M := core) hst 0, hidle⟩

/-- Settles O13, by induction on the schedule: the engine's turn completes the command; a turn of the host stops the run, leaves the
block idle, or leaves it busy with a shorter schedule. -/
theorem busyBlockCompletes : Obligations.BusyBlockCompletes := by
  intro s
  induction hs : s.schedule generalizing s with
  | nil =>
    intro hb
    exact ⟨1, le_rfl, .inl (run_idle_of_engine_turn (by rw [turnOf_of_nil hs, hb]; rfl))⟩
  | cons a rest ih =>
    intro hb
    cases a with
    | engine => exact ⟨1, by omega, .inl (run_idle_of_engine_turn (turnOf_of_cons hs))⟩
    | host =>
      have hst : step s = hostStep (takeTurn s) := step_host (turnOf_of_cons hs)
      rcases hostStep_next_or_fault (takeTurn s) with ⟨t, ht⟩ | ⟨r, hr⟩
      · have hrun := run_succ_of_next (M := core) (hst.trans ht)
        cases htb : t.busy with
        | false => exact ⟨1, by omega, .inl ⟨t, hrun 0, htb⟩⟩
        | true =>
          have hsched : t.schedule = rest := by rw [hostStep_schedule ht, takeTurn_schedule, hs, List.tail_cons]
          obtain ⟨k, hk, hend⟩ := ih t hsched htb
          refine ⟨k + 1, Nat.succ_le_succ hk, ?_⟩
          rwa [hrun k]
      · exact ⟨1, by omega, .inr ⟨r, run_one_of_fault (M := core) (hst.trans hr)⟩⟩

/-! ## The output of one HENC (R404) -/

/-- A derived table's codes have at most 16 bits (41_control_commands.md R171). -/
theorem codeOf_htTable_length_le (m : Memory) (h : Nat) (x : Byte) : (codeOf (htTable m h) x).length ≤ 16 := by
  rw [codeOf]
  split
  · rename_i e hf
    obtain ⟨-, hsize, -⟩ := htTable_entry (List.mem_of_find?_eq_some hf)
    rwa [bitsOf_length]
  · exact Nat.zero_le 16

/-- A symbol is sent with its code and its magnitude bits. -/
theorem symbolBits_htTable_length_le (m : Memory) (h : Nat) (p : Byte × Nat) :
    (symbolBits (htTable m h) p).length ≤ 16 + p.1.toNat % 16 := by
  rw [symbolBits, List.length_append, bitsOf_length]
  exact Nat.add_le_add_right (codeOf_htTable_length_le m h p.1) _

/-- An AC item takes at most 26 bits and stands for at least one coefficient. -/
theorem acItems_bits_le {m : Memory} {h : Nat} {items : List (Byte × Nat)} (hp : ∀ p ∈ items, AcItem (htTable m h) p) :
    (items.flatMap (symbolBits (htTable m h))).length ≤ 26 * (items.flatMap acValues).length := by
  induction items with
  | nil => exact Nat.zero_le _
  | cons p items ih =>
    obtain ⟨⟨-, hitem⟩, hrest⟩ := List.forall_mem_cons.mp hp
    have hsize : p.1.toNat % 16 ≤ 10 := by
      rcases hitem with rfl | ⟨-, hs, -⟩
      · decide
      · exact hs
    have hbits := symbolBits_htTable_length_le m h p
    have hval := one_le_length_acValues p
    have htail := ih hrest
    rw [List.flatMap_cons, List.flatMap_cons, List.length_append, List.length_append]
    omega

/-- A front of a block takes at most 27 bits for the DC value and 26 for each AC coefficient after it. -/
theorem codedFront_bits_le {m : Memory} {hdc hac : Nat} {pred : Half} {z : List Half} {bits : List Bool}
    (hf : CodedFront (htTable m hdc) (htTable m hac) pred z bits) : bits.length ≤ 1 + 26 * z.length := by
  obtain ⟨t, raw, items, ⟨-, ht, -, hp, rfl⟩, rfl⟩ := hf
  have hdcBits : (symbolBits (htTable m hdc) (t, raw)).length ≤ 16 + t.toNat % 16 := symbolBits_htTable_length_le m hdc _
  have hacBits := acItems_bits_le hp
  rw [List.length_append, List.length_cons]
  omega

/-- A block takes at most 27 + 63·26 bits: an EOB is shorter than the coefficient it spares. -/
theorem encodeBlock_bits_le {m : Memory} {hdc hac : Nat} {pred : Half} {z : List Half} {bits : List Bool} (hz : z.length = 64)
    (h : encodeBlock (htTable m hdc) (htTable m hac) pred z = .ok bits) : bits.length ≤ 1665 := by
  rcases encodeBlock_inv hz h with hf | ⟨z', front, hf, hz', -, -, rfl⟩
  · have hfront := codedFront_bits_le hf
    omega
  · have hfront := codedFront_bits_le hf
    have heob := codeOf_htTable_length_le m hac 0x00#8
    rw [List.length_append]
    omega

/-- At most seven bits are pending (10_state.md R44). -/
theorem pendingBits_length_le (s : State) : s.pendingBits.length ≤ 7 := by
  rw [State.pendingBits, bitsOf_length]
  exact Nat.le_of_lt_succ s.wrBit.isLt

/-- Settles O34: 7 pending bits and 1665 of the block are 209 bytes, and stuffing at most doubles them. -/
theorem hencOutputIsBounded : Obligations.HencOutputIsBounded := by
  intro s slot comp dct act bits h
  have hblock := encodeBlock_bits_le (coefBlock_length s.mem slot) h
  have hpending := pendingBits_length_le s
  have hpack := packBytes_length (s.pendingBits ++ bits)
  rw [List.length_append] at hpack
  have hbytes : (packBytes (s.pendingBits ++ bits)).1.length ≤ 209 := by omega
  have hstuff : (outBytes (s.pendingBits ++ bits)).length ≤ 2 * (packBytes (s.pendingBits ++ bits)).1.length :=
    stuff_length_le _
  exact ⟨hbytes, by omega⟩

end Sys2Proof.Proofs
end
